-- ==== Sys2Proof/Word.lean ====
section
/-!
DEFINITION. The word types of NDPE: bytes of a frame, 16-bit checksum words, 32-bit registers (R12).
-/
namespace Sys2Proof

/-- One byte of the frame buffer (R15). -/
abbrev Byte := BitVec 8

/-- A 16-bit value: a checksum word, an offset, a length (R12). -/
abbrev Half := BitVec 16

/-- A 32-bit value: a register, the checksum accumulator, the BPF accumulator (R12). -/
abbrev Word := BitVec 32

end Sys2Proof
end

