-- ==== Sys2Proof/Syntax.lean ====
section
/-!
DEFINITION. The instructions of NDPE: one constructor per row of spec/opcode_table.json. Eight rows are command words
(R103, R104), five are classic-BPF program entries (R107, R110, R111). The bits a rule calls ignored on a command word
(R103: bits 7..4 and 31..9) are no part of an instruction; WB (bit 8) is kept for every command, because it is a field of
the word although only CSUM_ICMP6 reads it (R105), and so are jt and jf of every entry, although only `jeq` reads them (R111).
-/
namespace Sys2Proof

/-- An instruction: a command the engine completes, or an entry of the filter program. -/
inductive Instr where
  /-- NOP, OP 0x0 (R160). -/
  | nop (wb : Bool)
  /-- CSUM_ADD, OP 0x1 (R143). -/
  | csumAdd (wb : Bool)
  /-- CSUM_ICMP6, OP 0x2 (R150). -/
  | csumIcmp6 (wb : Bool)
  /-- PARSE, OP 0x3 (R180). -/
  | parse (wb : Bool)
  /-- FILTER_GEN, OP 0x4 (R230). -/
  | filterGen (wb : Bool)
  /-- FILTER_RUN, OP 0x5 (R240). -/
  | filterRun (wb : Bool)
  /-- The reserved commands 0x6 and 0x7 (R112, R281). -/
  | reservedLow (op : BitVec 4) (wb : Bool)
  /-- The reserved commands 0x8 to 0xF (R112, R281). -/
  | reservedHigh (op : BitVec 4) (wb : Bool)
  /-- `ldh [k]`, code 0x0028 (R242). -/
  | ldh (jt jf : Byte) (k : Word)
  /-- `ldb [k]`, code 0x0030 (R243). -/
  | ldb (jt jf : Byte) (k : Word)
  /-- `jeq #k, jt, jf`, code 0x0015 (R244). -/
  | jeq (jt jf : Byte) (k : Word)
  /-- `ret #k`, code 0x0006 (R245). -/
  | ret (jt jf : Byte) (k : Word)
  /-- An entry with any other code (R111, R246). -/
  | illegalBpf (code : Half) (jt jf : Byte) (k : Word)
  deriving DecidableEq, Repr

end Sys2Proof
end

