-- ==== Sys2Proof/WellFormed.lean ====
section
/-!
DEFINITION. Which terms of `Instr` stand for an encoding of the spec: the reserved commands carry a reserved OP of their own
row (R104, R112), an illegal entry carries a code that is none of the four supported ones (R110, R111).
-/
namespace Sys2Proof

/-- The four supported BPF codes, in the order of R110. -/
def supportedCodes : List Half := [0x0028#16, 0x0030#16, 0x0015#16, 0x0006#16]

/-- Whether a term stands for a word of the spec. -/
def Instr.wellFormed : Instr → Bool
  | .nop _ => true
  | .csumAdd _ => true
  | .csumIcmp6 _ => true
  | .parse _ => true
  | .filterGen _ => true
  | .filterRun _ => true
  | .reservedLow op _ => op == 0x6 || op == 0x7
  | .reservedHigh op _ => decide (0x8 ≤ op.toNat)
  | .ldh _ _ _ => true
  | .ldb _ _ _ => true
  | .jeq _ _ _ => true
  | .ret _ _ _ => true
  | .illegalBpf code _ _ _ => !supportedCodes.contains code

/-- The same as a proposition. -/
abbrev Instr.WellFormed (i : Instr) : Prop := i.wellFormed = true

end Sys2Proof
end

