-- ==== Sys2Proof/Decode.lean ====
section
/-!
DEFINITION. The decoder of command words (R103, R104) and of classic-BPF entries (R107, R110, R111), total on any words, and
the encoder of both. A command word is one 32-bit word (R100); an entry is PROG_CODE then PROG_K, two 32-bit words (R107).
-/
namespace Sys2Proof

/-- The two encoded forms (R100). -/
inductive Format where
  /-- CMD32: a word written to CMD. -/
  | command
  /-- BPF64: an entry of PROG. -/
  | entry
  deriving DecidableEq, Repr

/-- Why a list of words is no instruction. -/
inductive DecodeError where
  /-- A command is one word and an entry is two (R100, R113): any other number of words is no encoding. -/
  | wrongLength (f : Format) (words : Nat)
  deriving DecidableEq, Repr

/-- OP, bits 3..0 of a command word (R103). -/
def cmdOp (w : Word) : BitVec 4 := w.extractLsb' 0 4

/-- WB, bit 8 of a command word (R103). -/
def cmdWb (w : Word) : Bool := w.getLsbD 8

/-- `code`, bits 15..0 of PROG_CODE (R107). -/
def entryCode (c : Word) : Half := c.extractLsb' 0 16

/-- `jt`, bits 23..16 of PROG_CODE (R107). -/
def entryJt (c : Word) : Byte := c.extractLsb' 16 8

/-- `jf`, bits 31..24 of PROG_CODE (R107). -/
def entryJf (c : Word) : Byte := c.extractLsb' 24 8

/-- The command of an opcode (R104); bits 3..0 select one, WB is carried along. -/
def decodeOp (op : BitVec 4) (wb : Bool) : Instr :=
  if op = 0x0#4 then .nop wb
  else if op = 0x1#4 then .csumAdd wb
  else if op = 0x2#4 then .csumIcmp6 wb
  else if op = 0x3#4 then .parse wb
  else if op = 0x4#4 then .filterGen wb
  else if op = 0x5#4 then .filterRun wb
  else if op = 0x6#4 ∨ op = 0x7#4 then .reservedLow op wb
  else .reservedHigh op wb

/-- Decode a command word: bits 7..4 and 31..9 are ignored (R103). -/
def decodeCommand (w : Word) : Instr := decodeOp (cmdOp w) (cmdWb w)

/-- The five forms a `code` can have (R110, R111). -/
inductive BpfForm where
  | ldh | ldb | jeq | ret | illegal
  deriving DecidableEq, Repr

/-- The form of a code: an exact match of all 16 bits (R111). -/
def bpfForm (code : Half) : BpfForm :=
  if code = 0x0028#16 then .ldh
  else if code = 0x0030#16 then .ldb
  else if code = 0x0015#16 then .jeq
  else if code = 0x0006#16 then .ret
  else .illegal

/-- Decode an entry from PROG_CODE and PROG_K (R107, R111). -/
def decodeEntry (c k : Word) : Instr :=
  match bpfForm (entryCode c) with
  | .ldh => .ldh (entryJt c) (entryJf c) k
  | .ldb => .ldb (entryJt c) (entryJf c) k
  | .jeq => .jeq (entryJt c) (entryJf c) k
  | .ret => .ret (entryJt c) (entryJf c) k
  | .illegal => .illegalBpf (entryCode c) (entryJt c) (entryJf c) k

/-- Decode the words of an instruction of a given format; a list of another length is refused by name. -/
def decodeWords (f : Format) (ws : List Word) : Except DecodeError Instr :=
  match f, ws with
  | .command, [w] => .ok (decodeCommand w)
  | .entry, [c, k] => .ok (decodeEntry c k)
  | f, ws => .error (.wrongLength f ws.length)

/-! ## The encoder -/

/-- The command word OP | WB << 8 with every ignored bit 0 (R114). -/
def commandWord (op : BitVec 4) (wb : Bool) : Word := 0#23 ++ BitVec.ofBool wb ++ 0#4 ++ op

/-- PROG_CODE = jf, jt, code from the high bits down (R107). -/
def codeWord (code : Half) (jt jf : Byte) : Word := jf ++ jt ++ code

/-- The format of an instruction. -/
def Instr.format : Instr → Format
  | .nop _ => .command
  | .csumAdd _ => .command
  | .csumIcmp6 _ => .command
  | .parse _ => .command
  | .filterGen _ => .command
  | .filterRun _ => .command
  | .reservedLow _ _ => .command
  | .reservedHigh _ _ => .command
  | .ldh _ _ _ => .entry
  | .ldb _ _ _ => .entry
  | .jeq _ _ _ => .entry
  | .ret _ _ _ => .entry
  | .illegalBpf _ _ _ _ => .entry

/-- The words of an instruction, first word first. -/
def encode : Instr → List Word
  | .nop wb => [commandWord 0x0 wb]
  | .csumAdd wb => [commandWord 0x1 wb]
  | .csumIcmp6 wb => [commandWord 0x2 wb]
  | .parse wb => [commandWord 0x3 wb]
  | .filterGen wb => [commandWord 0x4 wb]
  | .filterRun wb => [commandWord 0x5 wb]
  | .reservedLow op wb => [commandWord op wb]
  | .reservedHigh op wb => [commandWord op wb]
  | .ldh jt jf k => [codeWord 0x0028 jt jf, k]
  | .ldb jt jf k => [codeWord 0x0030 jt jf, k]
  | .jeq jt jf k => [codeWord 0x0015 jt jf, k]
  | .ret jt jf k => [codeWord 0x0006 jt jf, k]
  | .illegalBpf code jt jf k => [codeWord code jt jf, k]

/-! ## The opcode table's numbering -/

/-- The format a row of the opcode table has, told from the number of bits it gives: a command row fixes bits of a 32-bit
word (its fixed bits lie in the first byte), an entry row fixes the 16-bit `code` or all 64 bits of an entry (assumption 9). -/
def tableFormat (nbits : Nat) : Format :=
  if nbits = 16 ∨ 32 < nbits then .entry else .command

/-- What the decoder reads from an instruction whose bits are `w`, bit 0 the least significant of the first word. -/
def decodeTableWord (nbits w : Nat) : Option Instr :=
  match tableFormat nbits with
  | .command => (decodeWords .command [BitVec.ofNat 32 w]).toOption
  | .entry => (decodeWords .entry [BitVec.ofNat 32 w, BitVec.ofNat 32 (w / 2 ^ 32)]).toOption

end Sys2Proof
end

