-- ==== Sys2Proof/Config.lean ====
section
/-!
DEFINITION. What an implementation fixes (R8 to R11, the open parameters), the fixed protocol numbers (R13 and the head of
41_frame_parser.md), and the one free value of the model (R84).
-/
namespace Sys2Proof

/-- The parameters of an instance (R8, R9, R10, R289). They never change while the machine runs (R25). -/
structure Params where
  /-- FB_SIZE, bytes of the frame buffer (R8). -/
  fbSize : Nat
  /-- PROG_CAP, entries of the filter program memory (R9). -/
  progCap : Nat
  /-- BASE, the host bus address of offset 0 (R10): open. -/
  base : Nat
  /-- IRQ_LINE, the number of the line the IRQ output drives (R289): open. -/
  irqLine : Nat
  deriving DecidableEq, Repr

/-- The legal ranges of R8 and R9. -/
abbrev Params.Legal (p : Params) : Prop :=
  (1294 ≤ p.fbSize ∧ p.fbSize ≤ 65535) ∧ (9 ≤ p.progCap ∧ p.progCap ≤ 256)

/-- The default instance: FB_SIZE 4096 (R8), PROG_CAP 16 (R9). BASE and IRQ_LINE are open and the spec gives no default:
0 each, DESIGN CHOICE (assumption 2). -/
def Params.default : Params := { fbSize := 4096, progCap := 16, base := 0, irqLine := 0 }

namespace Config

/-- The ID register, the ASCII bytes NDPE (R24). -/
def idValue : Word := 0x4E445045#32

/-- ACCEPT_K (R11). -/
def acceptK : Word := 0xFFFFFFFF#32

/-- Bytes of the host window (R10, R70). -/
def windowSize : Nat := 0x20000

/-- ETH_HLEN (R13). -/
def ethLen : Nat := 14
/-- IP6_HLEN (R13). -/
def ip6Len : Nat := 40
/-- HDR_LEN (R13). -/
def hdrLen : Nat := ethLen + ip6Len
/-- ICMP6_HLEN (R13). -/
def icmp6Len : Nat := 8
/-- NS_LEN (R13). -/
def nsLen : Nat := 24
/-- NA_LEN (R13). -/
def naLen : Nat := 24
/-- OPT_LLA_LEN (R13). -/
def optLlaLen : Nat := 8

/-- The ether_type of IPv6 (R184). -/
def etherIpv6 : Half := 0x86DD#16
/-- Next header Hop-by-Hop (R186). -/
def nhHopByHop : Byte := 0x00#8
/-- Next header ICMPv6 (R145, R186). -/
def nhIcmp6 : Byte := 0x3A#8
/-- ICMPv6 type of a Neighbor Solicitation (R189). -/
def typeNs : Byte := 135#8
/-- ICMPv6 type of a Neighbor Advertisement (R189). -/
def typeNa : Byte := 136#8
/-- Option type Source Link-Layer Address (R190). -/
def optSlla : Byte := 0x01#8

/-- FREE VALUE (assumption 6): what a host read returns at a location the pending command may write (R84, U4), drawn
afresh at each such read. It has no body: nothing constrains it. -/
opaque freeRead : Nat → Word

end Config
end Sys2Proof
end

