-- ==== Sys2Proof/Machine/State.lean ====
section
/-!
DEFINITION. The state of NDPE (R20): the registers of the register map (R21), the frame buffer FB (R55), the filter program
memory PROG (R54), the pending-command latch (R51), the BPF run inside a FILTER_RUN (R56), and the model's own fields: the
host's turns still to come, the data of the last host read, the recorded model faults (R286) and the count of free reads (R84).
BUSY (R27), IRQ (R60) and FDESC (R40) are exact views of other fields and are computed, not stored.
-/
namespace Sys2Proof.Machine

/-! ## The parts of the state -/

/-- The pending-command latch's content, OP and WB of the accepted command (R51). -/
structure Pending where
  op : BitVec 4
  wb : Bool
  deriving DecidableEq, Repr

/-- The error codes of R280; no other value of ERRCODE is ever written. -/
inductive ErrCode where
  | ok | illegalCmd | range | short | progLen | bpfIllegal | bpfPc
  deriving DecidableEq, Repr

/-- The discard reasons of R181. -/
inductive DiscardReason where
  | shortHdr | notIpv6 | plenMismatch | extTrunc | extNh | nhUnsupported
  | icmpShort | csumBad | nsShort | nsNoSlla | nsBadSlla | naShort
  deriving DecidableEq, Repr

/-- PVERDICT.CLASS together with PVERDICT.REASON (R46): REASON is 0 unless the class is DISCARD. -/
inductive Verdict where
  | none
  | ns
  | na
  | other
  | discard (r : DiscardReason)
  deriving DecidableEq, Repr

/-- A 128-bit IPv6 address as the four big-endian words its registers hold, word 0 the most significant (R53). -/
structure Ip6 where
  w0 : Word
  w1 : Word
  w2 : Word
  w3 : Word
  deriving DecidableEq, Repr

/-- The unspecified address `::` (R18). -/
def Ip6.unspecified : Ip6 := { w0 := 0, w1 := 0, w2 := 0, w3 := 0 }

/-- The parse result registers (R46 to R50, R53). -/
structure ParseResult where
  /-- PVERDICT.CLASS and REASON. -/
  verdict : Verdict
  /-- PVERDICT.SLLA_VALID. -/
  sllaValid : Bool
  /-- PVERDICT.ICMP_TYPE. -/
  icmpType : Byte
  /-- PICMP.ICMP_OFF. -/
  icmpOff : Half
  /-- PICMP.ICMP_LEN. -/
  icmpLen : Half
  /-- PCSUM.RX. -/
  csumRx : Half
  /-- PCSUM.CALC. -/
  csumCalc : Half
  /-- PEXT.EXT_COUNT. -/
  extCount : Half
  /-- PSLLA_HI[15:0], link-layer address bytes 0 and 1. -/
  sllaHi : Half
  /-- PSLLA_LO, link-layer address bytes 2 to 5. -/
  sllaLo : Word
  /-- PSRC0..3. -/
  src : Ip6
  /-- PDST0..3. -/
  dst : Ip6
  /-- PTGT0..3. -/
  tgt : Ip6
  deriving DecidableEq, Repr

/-- Every parse result register 0: the reset values (R21) and what `clear_results()` leaves (R192). -/
def ParseResult.cleared : ParseResult :=
  { verdict := .none, sllaValid := false, icmpType := 0, icmpOff := 0, icmpLen := 0, csumRx := 0, csumCalc := 0, extCount := 0
    sllaHi := 0, sllaLo := 0, src := .unspecified, dst := .unspecified, tgt := .unspecified }

/-- FINFO (R44). -/
structure FilterInfo where
  /-- PC, bits 9..0. -/
  pc : BitVec 10
  /-- ACCEPT, bit 10. -/
  accept : Bool
  /-- OOB, bit 11. -/
  oob : Bool
  /-- STEPS, bits 24..16. -/
  steps : BitVec 9
  deriving DecidableEq, Repr

/-- FINFO after reset (R21). -/
def FilterInfo.zero : FilterInfo := { pc := 0, accept := false, oob := false, steps := 0 }

/-- The state of the BPF interpreter, which exists only inside one FILTER_RUN (R56): the accumulator A, the program counter
(an entry index) and the number of entries executed so far (R240). -/
structure BpfRun where
  a : Word
  pc : Nat
  steps : Nat
  deriving DecidableEq, Repr

/-- The run state at the start of a FILTER_RUN: A, pc and the step count are 0 (R240, R241). -/
def BpfRun.start : BpfRun := { a := 0, pc := 0, steps := 0 }

/-- The registers of the register map (R21). -/
inductive Reg where
  | id | config | cmd | status | ctrl | frameLen | opa | opb | oplen | acc | csumResult | fdesc | fcfg | progLen
  | fresult | finfo | fa | pverdict | picmp | pcsum | pext | psllaHi | psllaLo
  | psrc (n : Fin 4) | pdst (n : Fin 4) | ptgt (n : Fin 4)
  deriving DecidableEq, Repr

/-- What stands at a place of the host window (R21, R70). -/
inductive Place where
  /-- A register. -/
  | reg (r : Reg)
  /-- PROG_CODE[i]. -/
  | progCode (i : Nat)
  /-- PROG_K[i]. -/
  | progK (i : Nat)
  /-- FB[j]. -/
  | fb (j : Nat)
  /-- A reserved offset (R23, R75). -/
  | reserved
  deriving DecidableEq, Repr

/-- The widths of a host access (R74). -/
inductive Width where
  | w8 | w16 | w32
  deriving DecidableEq, Repr

/-- A host bus access at a host bus address (R10, R114). -/
inductive Access where
  /-- W8, W16, W32: a write; a narrow write uses the low bits of the data. -/
  | write (w : Width) (addr : Nat) (v : Word)
  /-- R8, R16, R32: a read. -/
  | read (w : Width) (addr : Nat)
  deriving DecidableEq, Repr

/-- One turn of an agent or of the platform (R19, R77, R310). A list of turns is one interleaving of host accesses and engine
steps; every interleaving is such a list. -/
inductive Turn where
  /-- The host makes one access. -/
  | host (a : Access)
  /-- The host polls STATUS until BUSY reads 0 (R114). -/
  | poll
  /-- The engine takes its step, if it is enabled (R52). -/
  | engine
  /-- The platform pulses the reset input (R310). -/
  | reset
  deriving DecidableEq, Repr

/-- A model fault that is recorded while the machine goes on, because the spec gives the access its effect (R74, R286). -/
inductive ModelFault where
  /-- HostBusError: an access of an illegal width or a misaligned one, at this offset. -/
  | hostBusError (w : Width) (off : Nat)
  deriving DecidableEq, Repr

/-- Memory with a value only where something has been written: address and value pairs. -/
abbrev Cells (α : Type) := List (Nat × α)

/-- The state of NDPE. -/
structure State where
  /-- The parameters of the instance (R8, R9, R10, R289); the CONFIG register shows two of them (R25). -/
  cfg : Params
  /-- The pending-command latch (R51); STATUS.BUSY is `pending ≠ none` (R27). -/
  pending : Option Pending
  /-- STATUS.DONE (R28). -/
  done : Bool
  /-- STATUS.ERR (R29). -/
  err : Bool
  /-- STATUS.OVR (R30). -/
  ovr : Bool
  /-- STATUS.ERRCODE (R31). -/
  errcode : ErrCode
  /-- STATUS.LASTOP (R32). -/
  lastop : BitVec 4
  /-- CTRL.IRQ_EN (R33). -/
  irqEn : Bool
  /-- FRAME_LEN.LEN (R34). -/
  frameLen : Half
  /-- OPA.OFF (R35). -/
  opa : Half
  /-- OPB.OFF (R36). -/
  opb : Half
  /-- OPLEN.LEN (R37). -/
  oplen : Half
  /-- ACC (R38). -/
  acc : Word
  /-- CSUM_RESULT[15:0] (R39). -/
  csumResult : Half
  /-- FCFG.FMT (R41): false is Linux, true is BSD. -/
  fmt : Bool
  /-- PROG_LEN.LEN (R42). -/
  progLen : BitVec 9
  /-- FRESULT (R43). -/
  fresult : Word
  /-- FINFO (R44). -/
  finfo : FilterInfo
  /-- FA (R45). -/
  fa : Word
  /-- The parse result registers (R46 to R50, R53). -/
  parse : ParseResult
  /-- PROG (R54), by 32-bit word: word 2i is PROG_CODE[i], word 2i+1 is PROG_K[i]; an absent word is unwritten (R62). -/
  prog : Cells Word
  /-- FB (R55), by byte; an absent byte is unwritten (R62). -/
  fb : List Host.Cell
  /-- The BPF run, present only inside a FILTER_RUN (R56). -/
  run : Option BpfRun
  /-- MODEL: the turns still to come, oldest first (assumption 3). -/
  turns : List Turn
  /-- MODEL: the data lines at the host's last read (assumption 5). -/
  readData : Option Word
  /-- MODEL: the recorded model faults, oldest first; nothing removes one (R286, R288). -/
  faults : List ModelFault
  /-- MODEL: how many free values host reads have drawn (R84, assumption 6). -/
  draws : Nat
  deriving DecidableEq, Repr

/-- Why the machine stops with a fault. -/
inductive Fault where
  /-- UninitRead (R62, R287): raised by a command, an entry of the filter program or a host read that reads an FB byte or a
  PROG word nobody has written since reset. It names LASTOP and the place. Safe: the spec's model refuses to pick the value. -/
  | uninitRead (lastop : BitVec 4) (p : Place)
  /-- HazardWrite (R286, R320): raised by a host write to FRAME_LEN, OPA, OPB, OPLEN, ACC, PROG_LEN, PROG or FB while BUSY = 1.
  Safe: such a write has no defined effect. -/
  | hazardWrite (lastop : BitVec 4) (p : Place)
  /-- Raised by the meaning of a program entry where no FILTER_RUN is in progress: A and pc exist only inside one (R56). No
  step raises it. Safe. -/
  | noFilterRun
  deriving DecidableEq, Repr

/-- Why an instruction has no meaning. -/
inductive Refusal where
  /-- Raised by an arm of `exec` for an instruction the model does not have; no arm does. Safe. -/
  | notModelled (mnemonic : String)
  deriving DecidableEq, Repr

/-! ## Reset -/

/-- An instance with the given parameters right after reset (R61, R310): every register at its reset value of R21, no command
pending, every FB byte and PROG field unwritten. -/
def State.resetWith (p : Params) : State :=
  { cfg := p, pending := none
    done := false, err := false, ovr := false, errcode := .ok, lastop := 0, irqEn := false
    frameLen := 0, opa := 0, opb := 0, oplen := 0, acc := 0, csumResult := 0
    fmt := false, progLen := 0, fresult := 0, finfo := .zero, fa := 0, parse := .cleared
    prog := [], fb := [], run := none
    turns := [], readData := none, faults := [], draws := 0 }

/-- The machine right after reset, with the default parameters. -/
def State.reset : State := State.resetWith .default

end Sys2Proof.Machine
end

