-- ==== Sys2Proof/Machine/Flags.lean ====
section
/-!
DEFINITION. The status flags (R27 to R33, R59), the numbers of the error codes, classes and reasons, the IRQ output (R60) and
the words the status and result registers read as (R21). NDPE has no condition codes (R59).
-/
namespace Sys2Proof.Machine

/-- The number of an error code (R280). -/
def ErrCode.code : ErrCode → Byte
  | .ok => 0x00
  | .illegalCmd => 0x01
  | .range => 0x02
  | .short => 0x03
  | .progLen => 0x04
  | .bpfIllegal => 0x05
  | .bpfPc => 0x06

/-- The number of a discard reason (R181). -/
def DiscardReason.code : DiscardReason → Byte
  | .shortHdr => 0x01
  | .notIpv6 => 0x02
  | .plenMismatch => 0x03
  | .extTrunc => 0x04
  | .extNh => 0x05
  | .nhUnsupported => 0x06
  | .icmpShort => 0x07
  | .csumBad => 0x08
  | .nsShort => 0x09
  | .nsNoSlla => 0x0A
  | .nsBadSlla => 0x0B
  | .naShort => 0x0C

/-- PVERDICT.CLASS (R46). -/
def Verdict.classCode : Verdict → BitVec 3
  | .none => 0
  | .ns => 1
  | .na => 2
  | .other => 3
  | .discard _ => 4

/-- PVERDICT.REASON (R46). -/
def Verdict.reasonCode : Verdict → Byte
  | .none => 0
  | .ns => 0
  | .na => 0
  | .other => 0
  | .discard r => r.code

/-- STATUS.BUSY is exactly `pending ≠ none` (R27, R51). -/
def State.busy (s : State) : Bool := s.pending.isSome

/-- The IRQ output, IRQ_EN and DONE (R60). -/
def State.irq (s : State) : Bool := s.irqEn && s.done

/-- The level NDPE drives on a numbered interrupt line of the platform: IRQ on its own line, nothing on others (R289). -/
def State.irqOnLine (s : State) (line : Nat) : Bool := decide (line = s.cfg.irqLine) && s.irq

/-- STATUS as it reads (R21, R27 to R32). -/
def statusWord (s : State) : Word :=
  0#12 ++ s.lastop ++ s.errcode.code ++ 0#4
    ++ BitVec.ofBool s.ovr ++ BitVec.ofBool s.err ++ BitVec.ofBool s.done ++ BitVec.ofBool s.busy

/-- CONFIG as it reads (R25). -/
def configWord (p : Params) : Word := 0#7 ++ BitVec.ofNat 9 p.progCap ++ BitVec.ofNat 16 p.fbSize

/-- FINFO as it reads (R44, R241). -/
def finfoWord (f : FilterInfo) : Word :=
  0#7 ++ f.steps ++ 0#4 ++ BitVec.ofBool f.oob ++ BitVec.ofBool f.accept ++ f.pc

/-- PVERDICT as it reads (R46). -/
def pverdictWord (r : ParseResult) : Word :=
  r.icmpType ++ 0#7 ++ BitVec.ofBool r.sllaValid ++ r.verdict.reasonCode ++ 0#5 ++ r.verdict.classCode

/-- FDESC, the length field of the program descriptor in the dialect FMT selects (R40). -/
def fdescWord (s : State) : Word :=
  if s.fmt then s.progLen.setWidth 32 else 0#16 ++ s.progLen.setWidth 16

/-- A host write of `v` to STATUS (R22, R28 to R31): a 1 in bit 1, 2 or 3 clears DONE, ERR or OVR, and the 1 that clears ERR
clears ERRCODE too; every other bit is read-only or reserved. -/
def writeStatus (v : Word) (s : State) : State :=
  { s with
    done := s.done && !v.getLsbD 1
    err := s.err && !v.getLsbD 2
    ovr := s.ovr && !v.getLsbD 3
    errcode := if v.getLsbD 2 then .ok else s.errcode }

end Sys2Proof.Machine
end

