-- ==== Sys2Proof/Machine/Ops.lean ====
section
/-!
DEFINITION. The named operations: memory that is unwritten where nothing was stored (R62), reads and writes of FB and PROG,
accepting a command (R101, R102), completing one with or without an error (R52, R280, R284), and reset (R310). NDPE has no
traps (R285): `raiseErr` is all there is of taking an exception, and `writeStatus` or the next `accept` is the return from it.
-/
namespace Sys2Proof.Machine

/-- The outcomes of a step of this machine. -/
abbrev Result := Host.Outcome State Fault Refusal

/-! ## Memory -/

/-- The value at an address, `none` where nothing was written (R62). -/
def memRead {α : Type} : Cells α → Nat → Option α
  | [], _ => none
  | (k, x) :: m, a => if k = a then some x else memRead m a

/-- Write a value, keeping the addresses strictly rising. -/
def memWrite {α : Type} : Cells α → Nat → α → Cells α
  | [], a, v => [(a, v)]
  | (k, x) :: m, a, v =>
    if a < k then (a, v) :: (k, x) :: m
    else if a = k then (a, v) :: m
    else (k, x) :: memWrite m a v

/-- Write consecutive values from an address on. -/
def memWriteList {α : Type} : Cells α → Nat → List α → Cells α
  | m, _, [] => m
  | m, a, v :: vs => memWriteList (memWrite m a v) (a + 1) vs

/-- The canonical form: addresses strictly rising. An unlisted address has no value, so no entry can equal it. -/
abbrev Memory.wf {α : Type} (m : Cells α) : Prop := m.Pairwise fun x y => x.1 < y.1

/-- Every address of the memory lies below a bound. -/
abbrev Memory.below {α : Type} (m : Cells α) (n : Nat) : Prop := ∀ x ∈ m, x.1 < n

/-! ## Reads that may meet an unwritten place: the error is the place (R287) -/

/-- FB[j]. -/
def fbByte (fb : List Host.Cell) (j : Nat) : Except Place Byte :=
  match memRead fb j with
  | some b => .ok b
  | none => .error (.fb j)

/-- MemRead(a, n), the bytes FB[a..a+n) from the lowest up (R15). -/
def fbSpan (fb : List Host.Cell) (a : Nat) : Nat → Except Place (List Byte)
  | 0 => .ok []
  | n + 1 => do
    let b ← fbByte fb a
    let bs ← fbSpan fb (a + 1) n
    .ok (b :: bs)

/-- be16(i), FB[i] the most significant (R15, R71). -/
def fbBe16 (fb : List Host.Cell) (i : Nat) : Except Place Half := do
  let hi ← fbByte fb i
  let lo ← fbByte fb (i + 1)
  .ok (hi ++ lo)

/-- be32(i), FB[i] the most significant (R15, R71). -/
def fbBe32 (fb : List Host.Cell) (i : Nat) : Except Place Word := do
  let hi ← fbBe16 fb i
  let lo ← fbBe16 fb (i + 2)
  .ok (hi ++ lo)

/-- be128(i), as the four words of an address (R15, R53). -/
def fbIp6 (fb : List Host.Cell) (i : Nat) : Except Place Ip6 := do
  let w0 ← fbBe32 fb i
  let w1 ← fbBe32 fb (i + 4)
  let w2 ← fbBe32 fb (i + 8)
  let w3 ← fbBe32 fb (i + 12)
  .ok { w0 := w0, w1 := w1, w2 := w2, w3 := w3 }

/-- PROG_CODE[i]. -/
def progCodeAt (prog : Cells Word) (i : Nat) : Except Place Word :=
  match memRead prog (2 * i) with
  | some c => .ok c
  | none => .error (.progCode i)

/-- PROG_K[i]. -/
def progKAt (prog : Cells Word) (i : Nat) : Except Place Word :=
  match memRead prog (2 * i + 1) with
  | some k => .ok k
  | none => .error (.progK i)

/-- PROG[i] whole, as `e := PROG[pc]` of R240 reads it: both words (assumption 8). -/
def progEntry (prog : Cells Word) (i : Nat) : Except Place (Word × Word) := do
  let c ← progCodeAt prog i
  let k ← progKAt prog i
  .ok (c, k)

/-- Go on with the value read, or fault at the first unwritten place (R283, R287). -/
def orUninit {α : Type} (s : State) (x : Except Place α) (go : α → Result) : Result :=
  match x with
  | .ok v => go v
  | .error p => .fault (.uninitRead s.lastop p)

/-! ## Accepting and completing a command -/

/-- Acceptance of a command (R101): BUSY rises with `pending`, DONE, ERR and ERRCODE are cleared, LASTOP is the OP. -/
def accept (p : Pending) (s : State) : State :=
  { s with pending := some p, done := false, err := false, errcode := .ok, lastop := p.op }

/-- A host write of a command word to CMD: accepted when idle (R101), dropped with OVR set while BUSY (R102). -/
def writeCmd (p : Pending) (s : State) : State :=
  match s.pending with
  | none => accept p s
  | some _ => { s with ovr := true }

/-- Completion of a command with an error code, 0 for success (R52): BUSY falls, DONE rises, ERRCODE and ERR are written. -/
def complete (code : ErrCode) (s : State) : State :=
  { s with pending := none, done := true, errcode := code, err := decide (code ≠ .ok) }

/-- `raise Err(code)` (R16, R284, R285): the command ends with that error code; nothing is saved, no control is transferred. -/
def raiseErr (code : ErrCode) (s : State) : Result := .next (complete code s)

/-- The command ends without an error. -/
def finishOk (s : State) : Result := .next (complete .ok s)

/-- The reset input is pulsed (R310): every element of R61 takes its reset value and a pending command is abandoned. The
parameters are no state (R20); recorded model faults stay (R288); the turns still to come, the host's last read data and the
count of free values are the model's own and stay (assumption 4). -/
def applyReset (s : State) : State :=
  { State.resetWith s.cfg with turns := s.turns, readData := s.readData, faults := s.faults, draws := s.draws }

end Sys2Proof.Machine
end

