-- ==== Sys2Proof/Machine/Operands.lean ====
section
/-!
DEFINITION. The operand forms: the 16-bit register operands of the commands as exact integers (R106), the spans they name and
their range checks (R282), the offset and constant `k` of a program entry (R109), and the map from a host bus address to a
place of the window (R10, R21, R70).
-/
namespace Sys2Proof.Machine

/-! ## Operands of commands and entries -/

/-- OPA.OFF as an exact integer (R35, R106). -/
def opaVal (s : State) : Nat := s.opa.toNat
/-- OPB.OFF as an exact integer (R36, R106). -/
def opbVal (s : State) : Nat := s.opb.toNat
/-- OPLEN.LEN as an exact integer (R37, R106). -/
def oplenVal (s : State) : Nat := s.oplen.toNat
/-- FRAME_LEN.LEN as an exact integer (R34, R106). -/
def frameLenVal (s : State) : Nat := s.frameLen.toNat
/-- PROG_LEN.LEN as an exact integer (R42, R106). -/
def progLenVal (s : State) : Nat := s.progLen.toNat

/-- Whether the span of n bytes from a passes the end of FB; the sum is exact (R282). -/
def pastFb (s : State) (a n : Nat) : Bool := decide (s.cfg.fbSize < a + n)

/-- Whether a load of n bytes at frame offset k passes the end of the frame; the sum is exact (R242, R243). -/
def pastFrame (s : State) (k : Word) (n : Nat) : Bool := decide (frameLenVal s < k.toNat + n)

/-! ## The host window -/

/-- Bytes of an access. -/
def Width.bytes : Width → Nat
  | .w8 => 1
  | .w16 => 2
  | .w32 => 4

/-- The offset from BASE of a host bus address inside the window; `none` outside it (R10, R79). -/
def offsetOf (p : Params) (addr : Nat) : Option Nat :=
  if p.base ≤ addr ∧ addr < p.base + Config.windowSize then some (addr - p.base) else none

/-- The register map (R21), part 1. -/
def regMapControl : List (Nat × Reg) :=
  [(0x000, .id), (0x004, .config), (0x008, .cmd), (0x00C, .status), (0x010, .ctrl), (0x014, .frameLen), (0x018, .opa),
   (0x01C, .opb), (0x020, .oplen), (0x024, .acc), (0x028, .csumResult), (0x02C, .fdesc), (0x030, .fcfg), (0x034, .progLen),
   (0x038, .fresult), (0x03C, .finfo), (0x040, .fa)]

/-- The register map (R21), part 2: 0x054 is reserved. -/
def regMapParse : List (Nat × Reg) :=
  [(0x044, .pverdict), (0x048, .picmp), (0x04C, .pcsum), (0x050, .pext), (0x058, .psllaHi), (0x05C, .psllaLo),
   (0x060, .psrc 0), (0x064, .psrc 1), (0x068, .psrc 2), (0x06C, .psrc 3),
   (0x070, .pdst 0), (0x074, .pdst 1), (0x078, .pdst 2), (0x07C, .pdst 3),
   (0x080, .ptgt 0), (0x084, .ptgt 1), (0x088, .ptgt 2), (0x08C, .ptgt 3)]

/-- The register map (R21). -/
def regMap : List (Nat × Reg) := regMapControl ++ regMapParse

/-- What stands at an offset of the window that is a multiple of 4, or at any offset of the FB window (R21, R70, R75). -/
def placeAt (p : Params) (off : Nat) : Place :=
  if off < 0x100 then
    match memRead regMap off with
    | some r => .reg r
    | none => .reserved
  else if off < 0x900 then
    if (off - 0x100) / 8 < p.progCap then
      if (off - 0x100) % 8 = 0 then .progCode ((off - 0x100) / 8) else .progK ((off - 0x100) / 8)
    else .reserved
  else if off < 0x10000 then .reserved
  else if off - 0x10000 < p.fbSize then .fb (off - 0x10000)
  else .reserved

/-- A bus error (R74): a width that is not 32 bits below the FB window, or an offset that is no multiple of the width. -/
def busError (w : Width) (off : Nat) : Bool :=
  (decide (off < 0x10000) && decide (w.bytes ≠ 4)) || decide (off % w.bytes ≠ 0)

end Sys2Proof.Machine
end

