-- ==== Sys2Proof/Machine/Bus.lean ====
section
/-!
DEFINITION. The host bus: reads and writes of the window (R21 to R23, R70 to R75), their side effects (R78, R101, R102), the
bus error (R74), the hazard of writing a command's inputs while BUSY (R320) and the arbitrary value of a result read while
BUSY (R84).
-/
namespace Sys2Proof.Machine

/-! ## Reads -/

/-- Word n of an address register group (R53). -/
def Ip6.word (a : Ip6) (n : Fin 4) : Word :=
  if n = 0 then a.w0 else if n = 1 then a.w1 else if n = 2 then a.w2 else a.w3

/-- What a host read of a register returns (R21 to R25, R40, R44, R46 to R50, R53); reserved bits read 0 (R23). -/
def readReg (s : State) : Reg → Word
  | .id => Config.idValue
  | .config => configWord s.cfg
  | .cmd => 0
  | .status => statusWord s
  | .ctrl => (BitVec.ofBool s.irqEn).setWidth 32
  | .frameLen => s.frameLen.setWidth 32
  | .opa => s.opa.setWidth 32
  | .opb => s.opb.setWidth 32
  | .oplen => s.oplen.setWidth 32
  | .acc => s.acc
  | .csumResult => s.csumResult.setWidth 32
  | .fdesc => fdescWord s
  | .fcfg => (BitVec.ofBool s.fmt).setWidth 32
  | .progLen => s.progLen.setWidth 32
  | .fresult => s.fresult
  | .finfo => finfoWord s.finfo
  | .fa => s.fa
  | .pverdict => pverdictWord s.parse
  | .picmp => s.parse.icmpLen ++ s.parse.icmpOff
  | .pcsum => s.parse.csumCalc ++ s.parse.csumRx
  | .pext => s.parse.extCount.setWidth 32
  | .psllaHi => s.parse.sllaHi.setWidth 32
  | .psllaLo => s.parse.sllaLo
  | .psrc n => s.parse.src.word n
  | .pdst n => s.parse.dst.word n
  | .ptgt n => s.parse.tgt.word n

/-- Whether a command may write a place (R84): the result registers and memory places listed there for each OP. -/
def mayWrite (s : State) (c : Pending) : Place → Bool
  | .reg r =>
    match r with
    | .acc => c.op == 0x1#4 || c.op == 0x2#4
    | .csumResult => c.op == 0x2#4
    | .pverdict | .picmp | .pcsum | .pext | .psllaHi | .psllaLo => c.op == 0x3#4
    | .psrc _ | .pdst _ | .ptgt _ => c.op == 0x3#4
    | .progLen | .fdesc => c.op == 0x4#4
    | .fresult | .finfo | .fa => c.op == 0x5#4
    | .id | .config | .cmd | .status | .ctrl | .frameLen | .opa | .opb | .oplen | .fcfg => false
  | .progCode i => c.op == 0x4#4 && decide (i < 9)
  | .progK i => c.op == 0x4#4 && decide (i < 9)
  | .fb j => c.op == 0x2#4 && c.wb && (decide (j = opbVal s + 2) || decide (j = opbVal s + 3))
  | .reserved => false

/-- Whether a host read of a place returns an arbitrary value now: a command that may write it is pending (R84). -/
def readsFree (s : State) (p : Place) : Bool :=
  match s.pending with
  | some c => mayWrite s c p
  | none => false

/-- What a host read of a word-wide place finds, unless the value is arbitrary; an unwritten program word is the error (R62). -/
def readPlace (s : State) : Place → Except Place Word
  | .reg r => .ok (readReg s r)
  | .progCode i => progCodeAt s.prog i
  | .progK i => progKAt s.prog i
  | .fb j => do
    let b ← fbByte s.fb j
    .ok (b.setWidth 32)
  | .reserved => .ok 0

/-- The byte lane of a word, lane 0 the bits 7..0 (R72). -/
def lane (v : Word) (i : Nat) : Byte := v.extractLsb' (8 * i) 8

/-- Bytes on the data lines, the first on bits 7..0, the lines above them 0 (R72). -/
def lanesWord : List Byte → Word
  | [] => 0
  | b :: bs => (lanesWord bs <<< 8) ||| b.setWidth 32

/-- What one lane of a read of the FB window returns: 0 at or above FB_SIZE (R75), else the byte, or an arbitrary byte (R84). -/
def readLane (s : State) (off i : Nat) : Except Place Byte :=
  match placeAt s.cfg (off + i) with
  | .fb j => do
    let b ← fbByte s.fb j
    .ok (if readsFree s (.fb j) then lane (Config.freeRead s.draws) i else b)
  | .reg _ => .ok 0
  | .progCode _ => .ok 0
  | .progK _ => .ok 0
  | .reserved => .ok 0

/-- `n` lanes of a read of the FB window from lane `i` on. -/
def readLanes (s : State) (off i : Nat) : Nat → Except Place (List Byte)
  | 0 => .ok []
  | n + 1 => do
    let b ← readLane s off i
    let bs ← readLanes s off (i + 1) n
    .ok (b :: bs)

/-- Whether some lane of an access reads an arbitrary value. -/
def lanesFree (s : State) (off : Nat) (n : Nat) : Bool := (List.range n).any fun i => readsFree s (placeAt s.cfg (off + i))

/-- The data of a legal read at an offset (R22, R72, R75, R84), and whether a free value was drawn. -/
def readOffset (s : State) (w : Width) (off : Nat) : Except Place (Word × Bool) :=
  if off < 0x10000 then do
    let v ← readPlace s (placeAt s.cfg off)
    if readsFree s (placeAt s.cfg off) then .ok (Config.freeRead s.draws, true) else .ok (v, false)
  else do
    let bs ← readLanes s off 0 w.bytes
    .ok (lanesWord bs, lanesFree s off w.bytes)

/-- A legal host read: the data lines carry the value; nothing else changes (R78). -/
def hostRead (w : Width) (off : Nat) (s : State) : Result :=
  orUninit s (readOffset s w off) fun d =>
    .next { s with readData := some d.1, draws := if d.2 then s.draws + 1 else s.draws }

/-! ## Writes -/

/-- Whether a place is an input of commands, which the host must not write while BUSY = 1 (R320). -/
def isOperand : Place → Bool
  | .reg r =>
    match r with
    | .frameLen | .opa | .opb | .oplen | .acc | .progLen => true
    | .id | .config | .cmd | .status | .ctrl | .csumResult | .fdesc | .fcfg | .fresult | .finfo | .fa => false
    | .pverdict | .picmp | .pcsum | .pext | .psllaHi | .psllaLo => false
    | .psrc _ | .pdst _ | .ptgt _ => false
  | .progCode _ => true
  | .progK _ => true
  | .fb _ => true
  | .reserved => false

/-- A host write of a register (R21, R22): RW fields are stored, CMD requests a command (R101, R102), STATUS clears by writing
one, read-only registers and reserved bits ignore the write (R22, R23). -/
def writeReg (v : Word) (s : State) : Reg → State
  | .cmd => writeCmd { op := cmdOp v, wb := cmdWb v } s
  | .status => writeStatus v s
  | .ctrl => { s with irqEn := v.getLsbD 0 }
  | .frameLen => { s with frameLen := v.setWidth 16 }
  | .opa => { s with opa := v.setWidth 16 }
  | .opb => { s with opb := v.setWidth 16 }
  | .oplen => { s with oplen := v.setWidth 16 }
  | .acc => { s with acc := v }
  | .fcfg => { s with fmt := v.getLsbD 0 }
  | .progLen => { s with progLen := v.setWidth 9 }
  | .id => s
  | .config => s
  | .csumResult => s
  | .fdesc => s
  | .fresult => s
  | .finfo => s
  | .fa => s
  | .pverdict => s
  | .picmp => s
  | .pcsum => s
  | .pext => s
  | .psllaHi => s
  | .psllaLo => s
  | .psrc _ => s
  | .pdst _ => s
  | .ptgt _ => s

/-- A host write of a word-wide place, or of one byte of FB with its low 8 bits (R22, R23, R54, R55). -/
def writePlace (v : Word) (s : State) : Place → State
  | .reg r => writeReg v s r
  | .progCode i => { s with prog := memWrite s.prog (2 * i) v }
  | .progK i => { s with prog := memWrite s.prog (2 * i + 1) v }
  | .fb j => { s with fb := memWrite s.fb j (v.setWidth 8) }
  | .reserved => s

/-- `n` lanes of a write to the FB window from lane `i` on; lanes at or above FB_SIZE are ignored (R72, R75). -/
def writeLanes (v : Word) (off i : Nat) : Nat → State → State
  | 0, s => s
  | n + 1, s => writeLanes v off (i + 1) n (writePlace ((lane v i).setWidth 32) s (placeAt s.cfg (off + i)))

/-- The first input of commands that an access covers, if any. -/
def operandAt (p : Params) (off n : Nat) : Option Place :=
  ((List.range n).map fun i => placeAt p (off + i)).find? isOperand

/-- The places an access covers: one word-wide place below the FB window, one byte per lane in it. -/
def accessLanes (w : Width) (off : Nat) : Nat := if off < 0x10000 then 1 else w.bytes

/-- A legal host write: a hazard while BUSY on an input of commands (R320), else the write (R22, R72). -/
def hostWrite (w : Width) (off : Nat) (v : Word) (s : State) : Result :=
  match s.pending, operandAt s.cfg off (accessLanes w off) with
  | some _, some p => .fault (.hazardWrite s.lastop p)
  | _, _ =>
    if off < 0x10000 then .next (writePlace v s (placeAt s.cfg off))
    else .next (writeLanes v off 0 w.bytes s)

/-! ## One access -/

/-- A bus error (R74, R286): no effect on the block, the fault is recorded; a read finds 0 on the data lines. -/
def hostBusError (w : Width) (off : Nat) (data : Option Word) (s : State) : Result :=
  .next { s with faults := s.faults ++ [.hostBusError w off], readData := data }

/-- One host access (R74, R77, R81). An address outside the window is not this block's and leaves it as it is (R79). -/
def hostAccess (a : Access) (s : State) : Result :=
  match a with
  | .write w addr v =>
    match offsetOf s.cfg addr with
    | none => .next s
    | some off => if busError w off then hostBusError w off s.readData s else hostWrite w off v s
  | .read w addr =>
    match offsetOf s.cfg addr with
    | none => .next s
    | some off => if busError w off then hostBusError w off (some 0) s else hostRead w off s

/-- `W32 off, v` (R114). -/
def w32 (p : Params) (off : Nat) (v : Word) : Turn := .host (.write .w32 (p.base + off) v)
/-- `W16 off, v` (R114). -/
def w16 (p : Params) (off : Nat) (v : Word) : Turn := .host (.write .w16 (p.base + off) v)
/-- `W8 off, v` (R114). -/
def w8 (p : Params) (off : Nat) (v : Word) : Turn := .host (.write .w8 (p.base + off) v)
/-- `R32 off` (R114). -/
def r32 (p : Params) (off : Nat) : Turn := .host (.read .w32 (p.base + off))
/-- `R16 off` (R114). -/
def r16 (p : Params) (off : Nat) : Turn := .host (.read .w16 (p.base + off))
/-- `R8 off` (R114). -/
def r8 (p : Params) (off : Nat) : Turn := .host (.read .w8 (p.base + off))
/-- `CMD <mnemonic>[, WB]`: a write of OP | WB << 8 to CMD (R114). -/
def cmdTurn (p : Params) (op : BitVec 4) (wb : Bool) : Turn := w32 p 0x008 (commandWord op wb)

end Sys2Proof.Machine
end

