-- ==== Sys2Proof/Machine/Checksum.lean ====
section
/-!
DEFINITION. The checksum engine: the checksum function (R140, R141), CSUM_ADD (R143) and CSUM_ICMP6 (R145, R146, R150).
-/
namespace Sys2Proof.Machine

/-- One word into the running sum: the add wraps at 32 bits, then at most one subtraction of 0xFFFF (R141). -/
def foldStep (s : Word) (w : Half) : Word :=
  let t := s + w.setWidth 32
  if 0xFFFF#32 < t then t - 0xFFFF#32 else t

/-- `checksum(seed, b)`: big-endian words paired from the start of the bytes, a trailing odd byte as a high byte (R140). -/
def checksum (seed : Word) : List Byte → Word
  | [] => seed
  | [b] => foldStep seed (b ++ (0x00 : Byte))
  | a :: b :: rest => checksum (foldStep seed (a ++ b)) rest

/-- BE32(v), most significant byte first (R15). -/
def be32Bytes (v : Word) : List Byte :=
  [v.extractLsb' 24 8, v.extractLsb' 16 8, v.extractLsb' 8 8, v.extractLsb' 0 8]

/-- The message with its checksum field, bytes 2 and 3, taken as zero (R146). -/
def zeroField (m : List Byte) : List Byte := (m.set 2 0x00).set 3 0x00

/-- The 40 bytes of the pseudo-header, from the two addresses and the ICMPv6 length (R145). -/
def pseudoHeader (src dst : List Byte) (n : Nat) : List Byte :=
  src ++ dst ++ be32Bytes (BitVec.ofNat 32 n) ++ [0x00, 0x00, 0x00, Config.nhIcmp6]

/-- The folded sum S over the pseudo-header and the message whose field is taken as zero, from seed 0 (R150). -/
def icmp6Sum (fb : List Host.Cell) (h i n : Nat) : Except Place Word := do
  let src ← fbSpan fb (h + 8) 16
  let dst ← fbSpan fb (h + 24) 16
  let m ← fbSpan fb i n
  .ok (checksum 0 (pseudoHeader src dst n ++ zeroField m))

/-- C, the 16-bit one's complement of S (R150). -/
def csumOf (sum : Word) : Half := ~~~ sum.setWidth 16

/-- CSUM_ADD: accumulate the span FB[OPA..OPA+OPLEN) into ACC (R143); WB is ignored (R105). -/
def execCsumAdd (_wb : Bool) (s : State) : Result :=
  if pastFb s (opaVal s) (oplenVal s) then raiseErr .range s
  else orUninit s (fbSpan s.fb (opaVal s) (oplenVal s)) fun bytes =>
    finishOk { s with acc := checksum s.acc bytes }

/-- CSUM_ICMP6: the ICMPv6 checksum of the message at OPB under the IPv6 header at OPA, stored big-endian into the message's
checksum field when WB = 1 (R150). -/
def execCsumIcmp6 (wb : Bool) (s : State) : Result :=
  if pastFb s (opaVal s) Config.ip6Len then raiseErr .range s
  else if pastFb s (opbVal s) (oplenVal s) then raiseErr .range s
  else if oplenVal s < 4 then raiseErr .short s
  else orUninit s (icmp6Sum s.fb (opaVal s) (opbVal s) (oplenVal s)) fun sum =>
    let c := csumOf sum
    finishOk
      { s with
        acc := sum
        csumResult := c
        fb := if wb then memWriteList s.fb (opbVal s + 2) [c.extractLsb' 8 8, c.extractLsb' 0 8] else s.fb }

end Sys2Proof.Machine
end

