-- ==== Sys2Proof/Machine/Control.lean ====
section
/-!
DEFINITION. The commands that only complete: NOP (R160) and the reserved commands (R112, R281).
-/
namespace Sys2Proof.Machine

/-- NOP: nothing but the completion (R160); WB is ignored (R105). -/
def execNop (_wb : Bool) (s : State) : Result := finishOk s

/-- A reserved command 0x6 or 0x7 completes with ERR_ILLEGAL_CMD and changes nothing but STATUS (R112, R281). -/
def execReservedLow (_op : BitVec 4) (_wb : Bool) (s : State) : Result := raiseErr .illegalCmd s

/-- A reserved command 0x8 to 0xF completes with ERR_ILLEGAL_CMD and changes nothing but STATUS (R112, R281). -/
def execReservedHigh (_op : BitVec 4) (_wb : Bool) (s : State) : Result := raiseErr .illegalCmd s

end Sys2Proof.Machine
end

