-- ==== Sys2Proof/Machine/Filter.lean ====
section
/-!
DEFINITION. The filter generator (R230, R231), the entries of the filter program (R242 to R246) and the run of a program
against a frame (R240, R241, R247). The meaning of an entry acts on the run state the machine holds inside a FILTER_RUN;
FILTER_RUN itself starts a run and carries it to its end in one step (R52).
-/
namespace Sys2Proof.Machine

/-! ## FILTER_GEN -/

/-- An entry of a program as its two words, PROG_CODE then PROG_K (R107). -/
def entryWords (code : Half) (jt jf : Byte) (k : Word) : List Word := [codeWord code jt jf, k]

/-- Offset of ether_type in the frame (R231). -/
def genEtherOff : Word := 12
/-- Offset of the IPv6 next-header byte in the frame (R231). -/
def genNextOff : Word := BitVec.ofNat 32 (Config.ethLen + 6)
/-- Offset of the ICMPv6 type byte in a frame without extension headers (R231). -/
def genTypeOff : Word := BitVec.ofNat 32 Config.hdrLen

/-- The generated program GEN, entries 0 to 8 (R231). -/
def genWords : List Word :=
  entryWords 0x0028 0 0 genEtherOff
  ++ entryWords 0x0015 0 6 (Config.etherIpv6.setWidth 32)
  ++ entryWords 0x0030 0 0 genNextOff
  ++ entryWords 0x0015 0 4 (Config.nhIcmp6.setWidth 32)
  ++ entryWords 0x0030 0 0 genTypeOff
  ++ entryWords 0x0015 1 0 (Config.typeNs.setWidth 32)
  ++ entryWords 0x0015 0 1 (Config.typeNa.setWidth 32)
  ++ entryWords 0x0006 0 0 Config.acceptK
  ++ entryWords 0x0006 0 0 0

/-- FILTER_GEN: PROG[0..8] <- GEN, PROG_LEN <- 9 (R230); WB is ignored (R105). -/
def execFilterGen (_wb : Bool) (s : State) : Result :=
  finishOk { s with prog := memWriteList s.prog 0 genWords, progLen := 9#9 }

/-! ## The two ends of a run -/

/-- FINFO at the end of a run (R241). -/
def runInfo (r : BpfRun) (accepted oob : Bool) : FilterInfo :=
  { pc := BitVec.ofNat 10 r.pc, accept := accepted, oob := oob, steps := BitVec.ofNat 9 r.steps }

/-- `finish(v, oob)`: FRESULT, FINFO and FA are written and FILTER_RUN completes without an error (R241). -/
def runFinish (v : Word) (oob : Bool) (r : BpfRun) (s : State) : Result :=
  finishOk { s with fresult := v, finfo := runInfo r (decide (v ≠ 0)) oob, fa := r.a, run := none }

/-- `fail(code)`: FRESULT = 0, FINFO and FA are written and FILTER_RUN completes with the error (R241, R284). -/
def runFail (code : ErrCode) (r : BpfRun) (s : State) : Result :=
  raiseErr code { s with fresult := 0, finfo := runInfo r false false, fa := r.a, run := none }

/-- Go on with the run state; outside a FILTER_RUN there is none (R56). -/
def withRun (s : State) (go : BpfRun → Result) : Result :=
  match s.run with
  | some r => go r
  | none => .fault .noFilterRun

/-! ## The entries -/

/-- `ldh [k]`: A gets the halfword, or the run ends out of bounds (R242); jt and jf are ignored (R111). -/
def execLdh (_jt _jf : Byte) (k : Word) (s : State) : Result :=
  withRun s fun r =>
    if pastFrame s k 2 then runFinish 0 true r s
    else orUninit s (fbBe16 s.fb k.toNat) fun h =>
      .next { s with run := some { r with a := h.setWidth 32, pc := r.pc + 1 } }

/-- `ldb [k]`: A gets the byte, or the run ends out of bounds (R243); jt and jf are ignored (R111). -/
def execLdb (_jt _jf : Byte) (k : Word) (s : State) : Result :=
  withRun s fun r =>
    if pastFrame s k 1 then runFinish 0 true r s
    else orUninit s (fbByte s.fb k.toNat) fun b =>
      .next { s with run := some { r with a := b.setWidth 32, pc := r.pc + 1 } }

/-- `jeq #k, jt, jf`: pc moves past the entry and jt more when A = k, jf more otherwise (R244, R108). -/
def execJeq (jt jf : Byte) (k : Word) (s : State) : Result :=
  withRun s fun r =>
    .next { s with run := some { r with pc := r.pc + 1 + (if r.a = k then jt.toNat else jf.toNat) } }

/-- `ret #k`: the run ends with value k (R245); jt and jf are ignored (R111). -/
def execRet (_jt _jf : Byte) (k : Word) (s : State) : Result :=
  withRun s fun r => runFinish k false r s

/-- An entry of any other code ends the run with ERR_BPF_ILLEGAL (R246). -/
def execIllegalBpf (_code : Half) (_jt _jf : Byte) (_k : Word) (s : State) : Result :=
  withRun s fun r => runFail .bpfIllegal r s

/-! ## The run -/

/-- One turn of the loop of R240: a fetch at pc >= PROG_LEN fails (R247), before the entry is looked at (R283); otherwise the
entry is read whole, counted, and carried out by `go` on its two words. -/
def fetchEntry (s : State) (r : BpfRun) (go : Word → Word → State → Result) : Result :=
  if progLenVal s ≤ r.pc then runFail .bpfPc r s
  else orUninit s (progEntry s.prog r.pc) fun e =>
    go e.1 e.2 { s with run := some { r with steps := r.steps + 1 } }

/-- Carry out the entry of two words by its form (R240). -/
def execEntry (c k : Word) (s : State) : Result :=
  match bpfForm (entryCode c) with
  | .ldh => execLdh (entryJt c) (entryJf c) k s
  | .ldb => execLdb (entryJt c) (entryJf c) k s
  | .jeq => execJeq (entryJt c) (entryJf c) k s
  | .ret => execRet (entryJt c) (entryJf c) k s
  | .illegal => execIllegalBpf (entryCode c) (entryJt c) (entryJf c) k s

/-- The loop of R240. Every turn that goes on raises pc, so fuel PROG_LEN + 1 ends every run (R248; Laws: `runLoop_ends`). -/
def runLoop : Nat → State → Result
  | 0, s => .next s
  | fuel + 1, s =>
    match s.run with
    | none => .next s
    | some r =>
      match fetchEntry s r execEntry with
      | .next t => runLoop fuel t
      | .fault f => .fault f
      | .refused q => .refused q

/-- FILTER_RUN (R240): the start checks in their order (R283), then the whole run; WB is ignored (R105). -/
def execFilterRun (_wb : Bool) (s : State) : Result :=
  if progLenVal s = 0 ∨ s.cfg.progCap < progLenVal s then raiseErr .progLen s
  else if pastFb s 0 (frameLenVal s) then raiseErr .range s
  else runLoop (progLenVal s + 1) { s with run := some .start }

end Sys2Proof.Machine
end

