-- ==== Sys2Proof/Machine/Parse.lean ====
section
/-!
DEFINITION. The frame parser and validator: PARSE (R180 to R193), step by step in the order of 41_frame_parser.md. Each
function reads only the bytes R182 names for it, in pseudocode order.
-/
namespace Sys2Proof.Machine

/-- How the Hop-by-Hop walk of step 4 ends (R186). -/
inductive Walk where
  /-- ICMPv6 starts at `off` after `ext` Hop-by-Hop headers. -/
  | arrived (off ext : Nat)
  /-- The frame is discarded. -/
  | dropped (r : DiscardReason)
  deriving DecidableEq, Repr

/-- `discard(r)`: CLASS and REASON are written, earlier results stay (R192). -/
def discardWith (r : DiscardReason) (p : ParseResult) : ParseResult := { p with verdict := .discard r }

/-- The chain loop of step 4 from a header at `off` after `ext` headers (R186). Each header takes at least 8 bytes, so fuel
(L - off) / 8 + 1 never runs out (Laws: `hbhWalk_fuel`). -/
def hbhWalk (fb : List Host.Cell) (len : Nat) : Nat → Nat → Nat → Except Place Walk
  | 0, _, _ => .ok (.dropped .extTrunc)
  | fuel + 1, off, ext =>
    if len - off < 8 then .ok (.dropped .extTrunc)
    else do
      let extLen ← fbByte fb (off + 1)
      let hl := 8 + 8 * extLen.toNat
      if len - off < hl then .ok (.dropped .extTrunc)
      else do
        let nnh ← fbByte fb off
        if nnh = Config.nhIcmp6 then .ok (.arrived (off + hl) (ext + 1))
        else if nnh = Config.nhHopByHop then hbhWalk fb len fuel (off + hl) (ext + 1)
        else .ok (.dropped .extNh)

/-- Step 4: the top-level next header, then the chain (R186). -/
def nextHeaderWalk (fb : List Host.Cell) (len : Nat) : Except Place Walk := do
  let nh ← fbByte fb 20
  if nh = Config.nhIcmp6 then .ok (.arrived Config.hdrLen 0)
  else if nh = Config.nhHopByHop then hbhWalk fb len ((len - Config.hdrLen) / 8 + 1) Config.hdrLen 0
  else .ok (.dropped .nhUnsupported)

/-- The three addresses of an NS or NA (R190, R191). -/
def parseAddrs (fb : List Host.Cell) (off : Nat) (p : ParseResult) : Except Place ParseResult := do
  let src ← fbIp6 fb 22
  let dst ← fbIp6 fb 38
  let tgt ← fbIp6 fb (off + 8)
  .ok { p with src := src, dst := dst, tgt := tgt }

/-- The link-layer address of a taken SLLA option (R190). -/
def parseSlla (fb : List Host.Cell) (off : Nat) (p : ParseResult) : Except Place ParseResult := do
  let hi ← fbBe16 fb (off + 26)
  let lo ← fbBe32 fb (off + 28)
  .ok { p with sllaValid := true, sllaHi := hi, sllaLo := lo }

/-- The end of an NS: addresses and CLASS = NS (R190). -/
def finishNs (fb : List Host.Cell) (off : Nat) (p : ParseResult) : Except Place ParseResult := do
  let q ← parseAddrs fb off p
  .ok { q with verdict := .ns }

/-- NS validation (R190). -/
def parseNs (fb : List Host.Cell) (off ilen : Nat) (p : ParseResult) : Except Place ParseResult :=
  if ilen < Config.nsLen then .ok (discardWith .nsShort p)
  else do
    let src ← fbIp6 fb 22
    if src = .unspecified then finishNs fb off p
    else if ilen < Config.nsLen + Config.optLlaLen then .ok (discardWith .nsNoSlla p)
    else do
      let ty ← fbByte fb (off + 24)
      let ln ← fbByte fb (off + 25)
      if ty ≠ Config.optSlla ∨ ln ≠ 0x01#8 then .ok (discardWith .nsBadSlla p)
      else do
        let q ← parseSlla fb off p
        finishNs fb off q

/-- NA validation (R191). -/
def parseNa (fb : List Host.Cell) (off ilen : Nat) (p : ParseResult) : Except Place ParseResult :=
  if ilen < Config.naLen then .ok (discardWith .naShort p)
  else do
    let q ← parseAddrs fb off p
    .ok { q with verdict := .na }

/-- Step 7: dispatch by ICMPv6 type (R189). -/
def parseType (fb : List Host.Cell) (off ilen : Nat) (ty : Byte) (p : ParseResult) : Except Place ParseResult :=
  if ty = Config.typeNs then parseNs fb off ilen p
  else if ty = Config.typeNa then parseNa fb off ilen p
  else .ok { p with verdict := .other }

/-- Steps 5 and 6: the length of the ICMPv6 header and the checksum, by equality (R187, R188); then step 7. -/
def parseIcmp (fb : List Host.Cell) (off ilen : Nat) (p : ParseResult) : Except Place ParseResult :=
  if ilen < Config.icmp6Len then .ok (discardWith .icmpShort p)
  else do
    let rx ← fbBe16 fb (off + 2)
    let sum ← icmp6Sum fb Config.ethLen off ilen
    let ty ← fbByte fb off
    let q := { p with csumRx := rx, csumCalc := csumOf sum, icmpType := ty }
    if csumOf sum ≠ rx then .ok (discardWith .csumBad q)
    else parseType fb off ilen ty q

/-- What follows step 4: PICMP and PEXT are written when ICMPv6 was reached (R180, R192). -/
def parseAfterWalk (fb : List Host.Cell) (len : Nat) : Walk → Except Place ParseResult
  | .dropped r => .ok (discardWith r .cleared)
  | .arrived off ext =>
    parseIcmp fb off (len - off)
      { ParseResult.cleared with
        icmpOff := BitVec.ofNat 16 off, icmpLen := BitVec.ofNat 16 (len - off), extCount := BitVec.ofNat 16 ext }

/-- The parse of the frame FB[0..len), from cleared results (R180, R183 to R192). -/
def parseFrame (fb : List Host.Cell) (len : Nat) : Except Place ParseResult :=
  if len < Config.hdrLen then .ok (discardWith .shortHdr .cleared)
  else do
    let ety ← fbBe16 fb 12
    if ety ≠ Config.etherIpv6 then .ok (discardWith .notIpv6 .cleared)
    else do
      let plen ← fbBe16 fb 18
      if plen.toNat ≠ len - Config.hdrLen then .ok (discardWith .plenMismatch .cleared)
      else do
        let w ← nextHeaderWalk fb len
        parseAfterWalk fb len w

/-- PARSE (R180): a discard is a successful completion; WB is ignored (R105). -/
def execParse (_wb : Bool) (s : State) : Result :=
  if pastFb s 0 (frameLenVal s) then raiseErr .range s
  else orUninit s (parseFrame s.fb (frameLenVal s)) fun r => finishOk { s with parse := r }

end Sys2Proof.Machine
end

