-- ==== Sys2Proof/Machine/Dispatch.lean ====
section
/-!
DEFINITION. One arm per instruction.
-/
namespace Sys2Proof.Machine

def exec (i : Instr) (s : State) : Host.Outcome State Fault Refusal :=
  match i with
  | .nop wb => Sys2Proof.Machine.execNop wb s
  | .csumAdd wb => Sys2Proof.Machine.execCsumAdd wb s
  | .csumIcmp6 wb => Sys2Proof.Machine.execCsumIcmp6 wb s
  | .parse wb => Sys2Proof.Machine.execParse wb s
  | .filterGen wb => Sys2Proof.Machine.execFilterGen wb s
  | .filterRun wb => Sys2Proof.Machine.execFilterRun wb s
  | .reservedLow op wb => Sys2Proof.Machine.execReservedLow op wb s
  | .reservedHigh op wb => Sys2Proof.Machine.execReservedHigh op wb s
  | .ldh jt jf k => Sys2Proof.Machine.execLdh jt jf k s
  | .ldb jt jf k => Sys2Proof.Machine.execLdb jt jf k s
  | .jeq jt jf k => Sys2Proof.Machine.execJeq jt jf k s
  | .ret jt jf k => Sys2Proof.Machine.execRet jt jf k s
  | .illegalBpf code jt jf k => Sys2Proof.Machine.execIllegalBpf code jt jf k s

end Sys2Proof.Machine
end

