-- ==== Sys2Proof/Machine/Step.lean ====
section
/-!
DEFINITION. One step of the machine: the engine inside a FILTER_RUN goes on with its program before any turn is taken (R52);
otherwise the oldest turn is taken, and where no turn is left the engine completes a pending command (R52, R330).
-/
namespace Sys2Proof.Machine

/-- The engine's completion step on the latch's content (R52): the command it holds, decoded from its word (R103). -/
def engineStep (c : Pending) (s : State) : Result := exec (decodeCommand (commandWord c.op c.wb)) s

/-- The engine's turn: enabled iff a command is pending (R52). -/
def engineTurn (s : State) : Result :=
  match s.pending with
  | some c => engineStep c s
  | none => .next s

/-- One turn, already taken off the list. POLL waits for the completion, then reads STATUS once (R114, assumption 3). -/
def takeTurn (t : Turn) (s : State) : Result :=
  match t with
  | .host a => hostAccess a s
  | .poll =>
    match s.pending with
    | some c => engineStep c { s with turns := .poll :: s.turns }
    | none => hostAccess (.read .w32 (s.cfg.base + 0x00C)) s
  | .engine => engineTurn s
  | .reset => .next (applyReset s)

/-- One step. -/
def step (s : State) : Host.Outcome State Fault Refusal :=
  match s.run with
  | some r => fetchEntry s r fun c k t => exec (decodeEntry c k) t
  | none =>
    match s.turns with
    | t :: ts => takeTurn t { s with turns := ts }
    | [] => engineTurn s

/-- The state with one instruction placed so that the next step runs it (assumption 9). A command: the latch holds its OP and
WB, no run is in progress and the engine has the next turn. An entry: it is PROG[0] of a FILTER_RUN just started. -/
def State.withFetchWord (s : State) (nbits w : Nat) : State :=
  match tableFormat nbits with
  | .command =>
    { s with
      pending := some { op := cmdOp (BitVec.ofNat 32 w), wb := cmdWb (BitVec.ofNat 32 w) }
      run := none
      turns := .engine :: s.turns }
  | .entry =>
    { s with
      pending := some { op := 0x5, wb := false }
      run := some .start
      prog := memWriteList s.prog 0 [BitVec.ofNat 32 w, BitVec.ofNat 32 (w / 2 ^ 32)]
      progLen := if s.progLen = 0 then 1 else s.progLen }

end Sys2Proof.Machine
end

