-- ==== Sys2Proof/Safety.lean ====
section
/-!
DEFINITION. What counts as a safe run, the invariants of the machine, and the words claims are stated in: bytes held from an
address on, the words those bytes make in wire order, the first byte unwritten, sums of words as integers, and the generated program as R231 prints it.
-/
namespace Sys2Proof.Machine

/-! ## Safe runs -/

/-- No model fault has been recorded (R286, R288). A claim about a run that assumes it says nothing of a faulted run. -/
def State.Clean (s : State) : Prop := s.faults = []

/-- A state a proved run may end in: the engine idle, no turn left, no fault recorded (R286: a fault makes a state non-final). -/
def State.Final (s : State) : Prop := s.pending = none ∧ s.run = none ∧ s.turns = [] ∧ s.Clean

/-! ## Invariants -/

/-- FB and PROG keep their canonical form inside their capacities (R54, R55). -/
def State.MemInv (s : State) : Prop :=
  (Memory.wf s.fb ∧ Memory.below s.fb s.cfg.fbSize) ∧ (Memory.wf s.prog ∧ Memory.below s.prog (2 * s.cfg.progCap))

/-- ERR = 1 exactly when ERRCODE is not 0 (D47), and while BUSY = 1 neither DONE nor an error code stands (R27, R28, R31, R101). -/
def State.StatusInv (s : State) : Prop :=
  s.err = decide (s.errcode ≠ .ok) ∧ (s.busy = true → s.done = false ∧ s.errcode = .ok)

/-- FINFO agrees with FRESULT, and its fields stay in range (R44, R58, R248, R249). -/
def State.FilterInv (s : State) : Prop :=
  s.finfo.accept = decide (s.fresult ≠ 0) ∧ s.finfo.steps.toNat ≤ s.cfg.progCap ∧ s.finfo.pc.toNat ≤ 511

/-- The parse result registers agree with one another (R46 to R50, R53, R186 to R192, R195). -/
structure ParseResult.Consistent (p : ParseResult) : Prop where
  /-- An SLLA is reported only for an NS. -/
  sllaNs : p.sllaValid = true → p.verdict = .ns
  /-- Without an SLLA its registers are 0. -/
  sllaZero : p.sllaValid = false → p.sllaHi = 0 ∧ p.sllaLo = 0
  /-- The addresses are 0 unless the class is NS or NA. -/
  addrZero : p.verdict ≠ .ns → p.verdict ≠ .na →
    p.src = .unspecified ∧ p.dst = .unspecified ∧ p.tgt = .unspecified
  /-- A class other than NONE and DISCARD has a checksum that matched and an ICMPv6 message of 8 bytes or more at 54 or above. -/
  checked : p.verdict = .ns ∨ p.verdict = .na ∨ p.verdict = .other →
    p.csumCalc = p.csumRx ∧ 54 ≤ p.icmpOff.toNat ∧ 8 ≤ p.icmpLen.toNat
  /-- An NS is a message of type 135 and 24 bytes or more. -/
  ns : p.verdict = .ns → p.icmpType = 135#8 ∧ 24 ≤ p.icmpLen.toNat
  /-- An NA is a message of type 136 and 24 bytes or more. -/
  na : p.verdict = .na → p.icmpType = 136#8 ∧ 24 ≤ p.icmpLen.toNat
  /-- OTHER is any other type. -/
  other : p.verdict = .other → p.icmpType ≠ 135#8 ∧ p.icmpType ≠ 136#8

/-- The invariant of the machine between two turns: legal parameters, memory, status, no half-done command (R52), and the
result registers. -/
structure State.Inv (s : State) : Prop where
  legal : s.cfg.Legal
  mem : s.MemInv
  status : s.StatusInv
  idleRun : s.run = none
  filter : s.FilterInv
  parse : s.parse.Consistent

/-! ## Words of the statements -/

/-- FB holds the bytes from address `a` on. -/
def Holds (fb : List Host.Cell) (a : Nat) (bs : List Byte) : Prop := ∀ j < bs.length, memRead fb (a + j) = bs[j]?

/-- The 16-bit word at index i of bytes in wire order, the first byte the most significant (R15, R71). -/
def be16Of (b : List Byte) (i : Nat) : Half := b.getD i 0 ++ b.getD (i + 1) 0

/-- The 32-bit word at index i of bytes in wire order, the first byte the most significant (R15, R71). -/
def be32Of (b : List Byte) (i : Nat) : Word := b.getD i 0 ++ b.getD (i + 1) 0 ++ b.getD (i + 2) 0 ++ b.getD (i + 3) 0

/-- What the four registers of an address hold whose bytes in wire order start at index i (R53). -/
def ip6Of (b : List Byte) (i : Nat) : Ip6 :=
  { w0 := be32Of b i, w1 := be32Of b (i + 4), w2 := be32Of b (i + 8), w3 := be32Of b (i + 12) }

/-- S of R150 and R188: the checksum over the source and destination address, the length of the message, the next header 58, and
the message with its checksum field as zero. -/
def messageSum (addrs m : List Byte) : Word :=
  checksum 0 (addrs ++ [0, 0, BitVec.ofNat 8 (m.length / 256), BitVec.ofNat 8 m.length] ++ [0, 0, 0, 58]
    ++ (m.take 2 ++ [0, 0] ++ m.drop 4))

/-- Every byte of FB[a..a+n) has been written. -/
def Written (fb : List Host.Cell) (a n : Nat) : Prop := ∀ j < n, (memRead fb (a + j)).isSome = true

/-- The sum, as an integer, of the 16-bit words of R140: big-endian pairs from the start, an odd last byte as a high byte. -/
def wordSum : List Byte → Nat
  | [] => 0
  | [b] => b.toNat * 256
  | a :: b :: rest => a.toNat * 256 + b.toNat + wordSum rest

/-- The first of these bytes of FB, in this order, that nobody has written: the place UninitRead names (R283, R287). -/
def firstUnwritten (fb : List Host.Cell) (reads : List Nat) : Option Nat := reads.find? fun j => (memRead fb j).isNone

/-- The generated program as the columns PROG_CODE and PROG_K of R231 print it, entry 0 first. -/
def genTable : List Word :=
  [0x00000028, 0x0000000C, 0x06000015, 0x000086DD, 0x00000030, 0x00000014, 0x04000015, 0x0000003A, 0x00000030, 0x00000036,
   0x00010015, 0x00000087, 0x01000015, 0x00000088, 0x00000006, 0xFFFFFFFF, 0x00000006, 0x00000000]

/-- PROG[0..9) is the generated program and PROG_LEN is 9. -/
def HoldsGen (s : State) : Prop := s.progLen = 9#9 ∧ ∀ i < 18, memRead s.prog i = genTable[i]?

/-- The chain of Hop-by-Hop headers at `off` with these length fields, inside a frame of `len` bytes: each fits, each but the
last announces Hop-by-Hop, the last announces ICMPv6 (R186). -/
def Chain (fb : List Host.Cell) (len : Nat) : Nat → List Byte → Prop
  | _, [] => False
  | off, [e] => off + (8 + 8 * e.toNat) ≤ len ∧ memRead fb (off + 1) = some e ∧ memRead fb off = some 0x3A#8
  | off, e :: es =>
    off + (8 + 8 * e.toNat) ≤ len ∧ memRead fb (off + 1) = some e ∧ memRead fb off = some 0x00#8
      ∧ Chain fb len (off + (8 + 8 * e.toNat)) es

/-- Hop-by-Hop headers at `off` with these length fields, none or more, each inside a frame of `len` bytes and announcing another
Hop-by-Hop header (R186). -/
def Links (fb : List Host.Cell) (len : Nat) : Nat → List Byte → Prop
  | _, [] => True
  | off, e :: es =>
    off + (8 + 8 * e.toNat) ≤ len ∧ memRead fb (off + 1) = some e ∧ memRead fb off = some 0x00#8
      ∧ Links fb len (off + (8 + 8 * e.toNat)) es

/-- The bytes a chain of headers with these length fields takes (R186). -/
def chainBytes : List Byte → Nat
  | [] => 0
  | e :: es => (8 + 8 * e.toNat) + chainBytes es

/-- Byte `j` is option content of a Hop-by-Hop header the walk passes: it lies past the first two bytes of a header that fits the
frame and follows only Hop-by-Hop headers (R186, R193). -/
def HopOption (fb : List Host.Cell) (len j : Nat) : Prop :=
  memRead fb 20 = some 0x00#8 ∧ ∃ es e, Links fb len 54 es ∧ memRead fb (54 + chainBytes es + 1) = some e
    ∧ 54 + chainBytes es + (8 + 8 * e.toNat) ≤ len
    ∧ 54 + chainBytes es + 2 ≤ j ∧ j < 54 + chainBytes es + (8 + 8 * e.toNat)

/-- The frame passes steps 1 to 3 of PARSE (R183, R184, R185) and its length fits FB. -/
def HeaderOk (s : State) : Prop :=
  s.frameLen.toNat ≤ s.cfg.fbSize ∧ 54 ≤ s.frameLen.toNat ∧ Holds s.fb 12 [0x86, 0xDD]
    ∧ Holds s.fb 18 [BitVec.ofNat 8 ((s.frameLen.toNat - 54) / 256), BitVec.ofNat 8 (s.frameLen.toNat - 54)]

end Sys2Proof.Machine
end

