-- ==== Sys2Proof/Certificates/Slice0/Obligations.lean ====
section
/-!
DEFINITION. The statements for the provers, in the order of the spec's files. Where a statement says what an instruction does,
its next state is written out as the old state with the fields that change, so that it states the frame too.
-/
open Sys2Proof Sys2Proof.Machine

/-! ## Encodings (30_encoding.md) -/

/-- R114's and R116's worked encodings, a command with every reserved bit of its first byte set (R103, vector V-S6), and one
entry of each other form from R231's columns and vector V-B8, each decoded from the word written out. -/
def Obligations.WorkedEncodingsDecode : Prop :=
  decodeCommand 0x00000102 = .csumIcmp6 true ∧ decodeCommand 0x000000F3 = .parse false
    ∧ decodeCommand 0x00000007 = .reservedLow 7 false ∧ decodeCommand 0x00000008 = .reservedHigh 8 false
    ∧ decodeEntry 0x06000015 0x000086DD = .jeq 0 6 0x86DD ∧ decodeEntry 0x00000028 0x0000000C = .ldh 0 0 12
    ∧ decodeEntry 0x00000030 0x00000036 = .ldb 0 0 54 ∧ decodeEntry 0x00000006 0xFFFFFFFF = .ret 0 0 0xFFFFFFFF
    ∧ decodeEntry 0x00000115 0x00000000 = .illegalBpf 0x0115 0 0 0

/-- Decoding what the encoder writes gives every well-formed instruction back, every operand at every value. -/
def Obligations.DecodeOfEncodeIsIdentity : Prop :=
  ∀ i : Instr, i.WellFormed → decodeWords i.format (encode i) = .ok i

/-- A command word decodes to a well-formed instruction that keeps exactly OP, bits 3..0, and WB, bit 8 (R103); a program
entry decodes to one that keeps every bit of its two words (R107, R111). -/
def Obligations.DecodedWordsKeepTheirBits : Prop :=
  (∀ w : Word, (decodeCommand w).WellFormed ∧ encode (decodeCommand w) = [w &&& 0x0000010F])
    ∧ ∀ c k : Word, (decodeEntry c k).WellFormed ∧ encode (decodeEntry c k) = [c, k]

/-! ## A step runs the decoded instruction -/

/-- When the engine has the next turn, or no turn is left, a step carries out the command whose OP and WB the latch holds, as
decoded from any word that carries them; the engine's turn is taken off the list and nothing else is added. The list of turns is
the model's way to say who moves next (assumption 3). -/
def Obligations.StepRunsPendingCommand : Prop :=
  ∀ (s : State) (w : Word), s.run = none → s.pending = some { op := w.extractLsb' 0 4, wb := w.getLsbD 8 } →
    (s.turns = [] → step s = exec (decodeCommand w) s)
      ∧ ∀ ts, s.turns = .engine :: ts → step s = exec (decodeCommand w) { s with turns := ts }

/-- Inside a FILTER_RUN a step reads the entry at pc, counts it and carries out what its two words decode to. That a
step can start inside a run is the model's choice (assumption 10). -/
def Obligations.StepRunsFetchedEntry : Prop :=
  ∀ (s : State) (r : BpfRun) (c k : Word), s.run = some r → r.pc < s.progLen.toNat →
    memRead s.prog (2 * r.pc) = some c → memRead s.prog (2 * r.pc + 1) = some k →
    step s = exec (decodeEntry c k) { s with run := some { r with steps := r.steps + 1 } }

/-! ## Acceptance, completion, status (R26 to R33, R52, R101, R102, R105, R160, R281) -/

/-- R101: a host write of v to CMD while no command is pending accepts the command and changes nothing else. -/
def Obligations.IdleCommandWriteIsAccepted : Prop :=
  ∀ (s : State) (v : Word) (ts : List Turn), s.run = none → s.pending = none →
    s.turns = .host (.write .w32 (s.cfg.base + 0x008) v) :: ts →
    step s = .next { s with
      turns := ts, pending := some { op := v.extractLsb' 0 4, wb := v.getLsbD 8 }
      done := false, err := false, errcode := .ok, lastop := v.extractLsb' 0 4 }

/-- R102: a host write to CMD while BUSY = 1 changes nothing except STATUS.OVR <- 1. -/
def Obligations.BusyCommandWriteSetsOvrOnly : Prop :=
  ∀ (s : State) (c : Pending) (v : Word) (ts : List Turn), s.run = none → s.pending = some c →
    s.turns = .host (.write .w32 (s.cfg.base + 0x008) v) :: ts →
    step s = .next { s with turns := ts, ovr := true }

/-- R28 to R31: a host write to STATUS clears DONE, ERR and OVR by a 1 in their bits, ERRCODE with ERR, and nothing else;
it is allowed at any time (R320). A 1 for DONE makes IRQ 0, and otherwise IRQ stays (R60, R289). -/
def Obligations.StatusWriteClearsByOnes : Prop :=
  ∀ (s : State) (v : Word) (ts : List Turn), s.run = none →
    s.turns = .host (.write .w32 (s.cfg.base + 0x00C) v) :: ts →
    let t : State := { s with
      turns := ts
      done := if v.getLsbD 1 then false else s.done
      err := if v.getLsbD 2 then false else s.err
      errcode := if v.getLsbD 2 then .ok else s.errcode
      ovr := if v.getLsbD 3 then false else s.ovr }
    step s = .next t ∧ t.irq = if v.getLsbD 1 then false else s.irq

/-- R160: NOP completes and changes nothing but STATUS. -/
def Obligations.NopOnlyCompletes : Prop :=
  ∀ (s : State) (wb : Bool),
    exec (.nop wb) s = .next { s with pending := none, done := true, errcode := .ok, err := false }

/-- R281: a reserved command completes with ERR_ILLEGAL_CMD and changes nothing but STATUS. -/
def Obligations.ReservedCommandsEndIllegal : Prop :=
  ∀ (s : State) (op : BitVec 4) (wb : Bool),
    exec (.reservedLow op wb) s = .next { s with pending := none, done := true, errcode := .illegalCmd, err := true }
      ∧ exec (.reservedHigh op wb) s = .next { s with pending := none, done := true, errcode := .illegalCmd, err := true }

/-- R105: every command but CSUM_ICMP6 does the same with WB = 1 as with WB = 0. -/
def Obligations.WbReadByCsumIcmp6Only : Prop :=
  ∀ (s : State) (op : BitVec 4), op ≠ 2#4 → exec (decodeOp op true) s = exec (decodeOp op false) s

/-- R52: when the engine's turn on a pending command goes on, the command has completed: BUSY is 0, DONE is 1, ERR tells
whether ERRCODE is not 0, IRQ is IRQ_EN (R60), LASTOP and OVR are unchanged (R30, R32), and no run is left half-done. R60, R289: in
every state IRQ is IRQ_EN and DONE, so it is 0 once a command has been accepted, and is the level on the line IRQ_LINE; NDPE drives
no other line (assumption 16). -/
def Obligations.EngineTurnCompletesTheCommand : Prop :=
  (∀ (s t : State) (c : Pending), s.run = none → s.pending = some c → engineTurn s = .next t →
    t.busy = false ∧ t.done = true ∧ t.err = decide (t.errcode ≠ .ok) ∧ t.irq = s.irqEn
      ∧ t.lastop = s.lastop ∧ t.ovr = s.ovr ∧ t.run = none)
  ∧ (∀ (s : State) (c : Pending), (accept c s).irq = false ∧ (accept c s).busy = true)
  ∧ ∀ (s : State) (line : Nat), (s.irq = true ↔ s.irqEn = true ∧ s.done = true)
      ∧ (s.irqOnLine line = true ↔ line = s.cfg.irqLine ∧ s.irqEn = true ∧ s.done = true)

/-! ## The checksum engine (40_checksum.md) -/

/-- R140, R141: whole words paired from the start of the span are folded in order, then a trailing odd byte as a high byte; each
fold is an add that wraps at 32 bits and then one subtraction of 0xFFFF if the sum exceeds it. -/
def Obligations.ChecksumFoldsPairedWords : Prop :=
  (∀ (s : Word) (w : Half), (foldStep s w).toNat =
      if 0xFFFF < (s.toNat + w.toNat) % 2 ^ 32 then (s.toNat + w.toNat) % 2 ^ 32 - 0xFFFF else (s.toNat + w.toNat) % 2 ^ 32)
    ∧ ∀ (seed : Word) (b : List Byte),
      checksum seed b =
        let s := (List.range (b.length / 2)).foldl (fun s i => foldStep s (b.getD (2 * i) 0 ++ b.getD (2 * i + 1) 0)) seed
        if b.length % 2 = 1 then foldStep s (b.getD (b.length - 1) 0 ++ 0x00#8) else s

/-- R142(a): from a seed of at most 0xFFFF every intermediate sum and the final one stay at most 0xFFFF. -/
def Obligations.ChecksumStaysSixteenBits : Prop :=
  ∀ (seed : Word) (b : List Byte), seed.toNat ≤ 0xFFFF →
    (∀ k, (checksum seed (b.take (2 * k))).toNat ≤ 0xFFFF) ∧ (checksum seed b).toNat ≤ 0xFFFF

/-- R142(b): with T the seed plus the integer sum of the words, the checksum is 0 if T = 0, else ((T - 1) mod 0xFFFF) + 1. -/
def Obligations.ChecksumClosedForm : Prop :=
  ∀ (seed : Word) (b : List Byte), seed.toNat ≤ 0xFFFF →
    (checksum seed b).toNat =
      if seed.toNat + wordSum b = 0 then 0 else (seed.toNat + wordSum b - 1) % 0xFFFF + 1

/-- R142(c): summing X and then Y from X's sum is summing X ++ Y when X has even length, for any seed. -/
def Obligations.ChecksumChainsAtEvenLengths : Prop :=
  ∀ (seed : Word) (x y : List Byte), x.length % 2 = 0 → checksum (checksum seed x) y = checksum seed (x ++ y)

/-- R152: flipping one bit of one byte changes the sum (stated of the checksum function, from a seed of at most 0xFFFF). -/
def Obligations.SingleBitFlipChangesTheSum : Prop :=
  ∀ (seed : Word) (b : List Byte) (j bit : Nat), seed.toNat ≤ 0xFFFF → j < b.length → bit < 8 →
    checksum seed (b.set j (b.getD j 0 ^^^ (1#8 <<< bit))) ≠ checksum seed b

/-- R143: ERR_RANGE when the span passes the end of FB, else ACC gets the checksum of the span seeded with ACC, else, where a
byte of the span is unwritten, UninitRead at the first one (R62, R283, R287). That the fault stops the machine is the model's
choice (assumption 7). -/
def Obligations.CsumAddBehaviour : Prop :=
  ∀ (s : State) (wb : Bool),
    (s.cfg.fbSize < s.opa.toNat + s.oplen.toNat →
      exec (.csumAdd wb) s = .next { s with pending := none, done := true, errcode := .range, err := true })
    ∧ (s.opa.toNat + s.oplen.toNat ≤ s.cfg.fbSize → ∀ bs : List Byte, bs.length = s.oplen.toNat →
        Holds s.fb s.opa.toNat bs →
        exec (.csumAdd wb) s = .next { s with
          acc := checksum s.acc bs, pending := none, done := true, errcode := .ok, err := false })
    ∧ (s.opa.toNat + s.oplen.toNat ≤ s.cfg.fbSize → ∀ j,
        firstUnwritten s.fb (List.range' s.opa.toNat s.oplen.toNat) = some j →
        exec (.csumAdd wb) s = .fault (.uninitRead s.lastop (.fb j)))

/-- R150, R145, R146: the checks in their order, then S over the pseudo-header and the message with its field as zero goes to
ACC, its complement C to CSUM_RESULT, and with WB = 1 C to the field, high byte first; UninitRead at the first unwritten byte
of the source address, the destination address and the message, in that order (R62, R283, R287). That the fault stops the machine
is the model's choice (assumption 7). -/
def Obligations.CsumIcmp6Behaviour : Prop :=
  ∀ (s : State) (wb : Bool) (h i n : Nat), s.opa.toNat = h → s.opb.toNat = i → s.oplen.toNat = n →
    (s.cfg.fbSize < h + 40 ∨ s.cfg.fbSize < i + n →
      exec (.csumIcmp6 wb) s = .next { s with pending := none, done := true, errcode := .range, err := true })
    ∧ (h + 40 ≤ s.cfg.fbSize → i + n ≤ s.cfg.fbSize → n < 4 →
      exec (.csumIcmp6 wb) s = .next { s with pending := none, done := true, errcode := .short, err := true })
    ∧ (h + 40 ≤ s.cfg.fbSize → i + n ≤ s.cfg.fbSize → 4 ≤ n →
        ∀ src dst m : List Byte, src.length = 16 → dst.length = 16 → m.length = n →
          Holds s.fb (h + 8) src → Holds s.fb (h + 24) dst → Holds s.fb i m →
        ∀ (sum : Word) (c : Half),
          sum = checksum 0 (src ++ dst ++ [0, 0, BitVec.ofNat 8 (n / 256), BitVec.ofNat 8 n] ++ [0, 0, 0, 58]
            ++ (m.take 2 ++ [0, 0] ++ m.drop 4)) →
          c = ~~~ sum.extractLsb' 0 16 →
          exec (.csumIcmp6 wb) s = .next { s with
            acc := sum, csumResult := c
            fb := if wb then memWrite (memWrite s.fb (i + 2) (c.extractLsb' 8 8)) (i + 3) (c.extractLsb' 0 8) else s.fb
            pending := none, done := true, errcode := .ok, err := false })
    ∧ (h + 40 ≤ s.cfg.fbSize → i + n ≤ s.cfg.fbSize → 4 ≤ n →
        ∀ j, firstUnwritten s.fb (List.range' (h + 8) 32 ++ List.range' i n) = some j →
        exec (.csumIcmp6 wb) s = .fault (.uninitRead s.lastop (.fb j)))

/-- R150, corner cases: a CSUM_ICMP6 that ends without an error leaves 1 <= ACC <= 0xFFFF and CSUM_RESULT <= 0xFFFE, and
CSUM_RESULT is the complement of ACC. -/
def Obligations.Icmp6SumIsNeverZero : Prop :=
  ∀ (s t : State) (wb : Bool), exec (.csumIcmp6 wb) s = .next t → t.errcode = .ok →
    1 ≤ t.acc.toNat ∧ t.acc.toNat ≤ 0xFFFF ∧ t.csumResult.toNat = 0xFFFF - t.acc.toNat

/-- R151: after CSUM_ICMP6 with WB = 1 the field holds C, and a second CSUM_ICMP6 with the same operands completes and returns the
same C where the checksum field lies outside the addresses of the IPv6 header (R151 does not say so; assumption 11). -/
def Obligations.CsumIcmp6RoundTrip : Prop :=
  ∀ (s t : State) (wb : Bool), exec (.csumIcmp6 true) s = .next t → t.errcode = .ok →
    Holds t.fb (s.opb.toNat + 2) [t.csumResult.extractLsb' 8 8, t.csumResult.extractLsb' 0 8]
      ∧ ∃ u, exec (.csumIcmp6 wb) t = .next u ∧ u.errcode = .ok
        ∧ (s.opb.toNat + 3 < s.opa.toNat + 8 ∨ s.opa.toNat + 40 ≤ s.opb.toNat + 2 →
            u.csumResult = t.csumResult ∧ u.acc = t.acc)

/-- R153: a message of 4 bytes or more whose field holds the checksum computed over it sums, field included, to 0xFFFF, and so
does one whose field holds 0xFFFF where the sum with the field as zero is already 0xFFFF. -/
def Obligations.VerificationBySummation : Prop :=
  ∀ (ph m : List Byte) (r : Half), ph.length = 40 → 4 ≤ m.length →
    m.getD 2 0 ++ m.getD 3 0 = r → 1 ≤ wordSum ph →
    ∀ sum, sum = checksum 0 (ph ++ (m.take 2 ++ [0, 0] ++ m.drop 4)) →
      (r = ~~~ sum.extractLsb' 0 16 ∨ (sum = 0xFFFF#32 ∧ r = 0xFFFF#16)) → checksum 0 (ph ++ m) = 0xFFFF#32

/-! ## The frame parser (41_frame_parser.md) -/

/-- R180: a frame longer than FB ends with ERR_RANGE; a PARSE that goes on writes nothing but the parse results and STATUS, and
without an error its class is not NONE (R192). -/
def Obligations.ParseWritesResultsOnly : Prop :=
  ∀ (s : State) (wb : Bool),
    (s.cfg.fbSize < s.frameLen.toNat →
      exec (.parse wb) s = .next { s with pending := none, done := true, errcode := .range, err := true })
    ∧ (s.frameLen.toNat ≤ s.cfg.fbSize → ∀ t, exec (.parse wb) s = .next t →
        t = { s with parse := t.parse, pending := none, done := true, errcode := .ok, err := false }
          ∧ t.parse.verdict ≠ .none)

/-- R180, R182: PARSE completes whenever its frame fits FB and every byte of the frame has been written; and it is UninitRead at the
first unwritten byte it reads (R283, R287): of ether_type, of the payload length, the next header, the length field and then the
next header of each Hop-by-Hop header it reaches, and, once ICMPv6 is reached, of the received checksum, the addresses and the
message, which hold every byte a later step reads. That the fault stops the machine is the model's choice (assumption 7). -/
def Obligations.ParseCompletesOnWrittenFrames : Prop :=
  ∀ (s : State) (wb : Bool), s.frameLen.toNat ≤ s.cfg.fbSize →
    let stops (j : Nat) : Prop := exec (.parse wb) s = .fault (.uninitRead s.lastop (.fb j))
    (Written s.fb 0 s.frameLen.toNat →
      ∃ p, p.Consistent ∧ exec (.parse wb) s = .next { s with
        parse := p, pending := none, done := true, errcode := .ok, err := false })
    ∧ (54 ≤ s.frameLen.toNat → ∀ j, firstUnwritten s.fb [12, 13] = some j → stops j)
    ∧ (54 ≤ s.frameLen.toNat → Holds s.fb 12 [0x86, 0xDD] → ∀ j, firstUnwritten s.fb [18, 19] = some j → stops j)
    ∧ (HeaderOk s → memRead s.fb 20 = none → stops 20)
    ∧ (HeaderOk s → memRead s.fb 20 = some 0x00#8 → ∀ es off, Links s.fb s.frameLen.toNat 54 es →
        off = 54 + chainBytes es → off + 8 ≤ s.frameLen.toNat →
        (memRead s.fb (off + 1) = none → stops (off + 1))
        ∧ ∀ e : Byte, memRead s.fb (off + 1) = some e → off + (8 + 8 * e.toNat) ≤ s.frameLen.toNat →
            memRead s.fb off = none → stops off)
    ∧ (HeaderOk s → ∀ off ext, nextHeaderWalk s.fb s.frameLen.toNat = .ok (.arrived off ext) →
        off + 8 ≤ s.frameLen.toNat → ∀ j,
        firstUnwritten s.fb ([off + 2, off + 3] ++ List.range' 22 32 ++ List.range' off (s.frameLen.toNat - off)) = some j →
        stops j)

/-- R183, R184, R185 with R192: the discards of steps 1 to 3 leave every other parse result 0. -/
def Obligations.HeaderStepsDiscard : Prop :=
  ∀ (s : State) (wb : Bool) (a b : Byte), s.frameLen.toNat ≤ s.cfg.fbSize →
    (s.frameLen.toNat < 54 →
      exec (.parse wb) s = .next { s with
        parse := { ParseResult.cleared with verdict := .discard .shortHdr }
        pending := none, done := true, errcode := .ok, err := false })
    ∧ (54 ≤ s.frameLen.toNat → Holds s.fb 12 [a, b] → a ++ b ≠ 0x86DD#16 →
      exec (.parse wb) s = .next { s with
        parse := { ParseResult.cleared with verdict := .discard .notIpv6 }
        pending := none, done := true, errcode := .ok, err := false })
    ∧ (54 ≤ s.frameLen.toNat → Holds s.fb 12 [0x86, 0xDD] → Holds s.fb 18 [a, b] →
        (a ++ b).toNat ≠ s.frameLen.toNat - 54 →
      exec (.parse wb) s = .next { s with
        parse := { ParseResult.cleared with verdict := .discard .plenMismatch }
        pending := none, done := true, errcode := .ok, err := false })

/-- R186: a top-level next header that is neither ICMPv6 nor Hop-by-Hop is NH_UNSUPPORTED; a chain header, the first (no `es`
before it) or any later one, is EXT_TRUNC where fewer than 8 bytes remain or its length exceeds what remains, and EXT_NH where it
announces anything but ICMPv6 and Hop-by-Hop. -/
def Obligations.NextHeaderStepDiscards : Prop :=
  ∀ (s : State) (wb : Bool) (nh e nnh : Byte) (es : List Byte) (off : Nat), HeaderOk s → memRead s.fb 20 = some nh →
    let out (r : DiscardReason) : Host.Outcome State Fault Refusal := .next { s with
      parse := { ParseResult.cleared with verdict := .discard r }
      pending := none, done := true, errcode := .ok, err := false }
    (nh ≠ 0x3A#8 → nh ≠ 0x00#8 → exec (.parse wb) s = out .nhUnsupported)
    ∧ (nh = 0x00#8 → Links s.fb s.frameLen.toNat 54 es → off = 54 + chainBytes es →
        (s.frameLen.toNat < off + 8 → exec (.parse wb) s = out .extTrunc)
        ∧ (off + 8 ≤ s.frameLen.toNat → memRead s.fb (off + 1) = some e → s.frameLen.toNat < off + (8 + 8 * e.toNat) →
            exec (.parse wb) s = out .extTrunc)
        ∧ (memRead s.fb (off + 1) = some e → off + (8 + 8 * e.toNat) ≤ s.frameLen.toNat →
            memRead s.fb off = some nnh → nnh ≠ 0x3A#8 → nnh ≠ 0x00#8 → exec (.parse wb) s = out .extNh))

/-- R186 with conflict C2: where the payload is ICMPv6 the walk arrives at 54 with no header counted; a chain of any number of
valid Hop-by-Hop headers that ends in ICMPv6 is walked to its end, one header counted for each. -/
def Obligations.HopByHopChainIsWalked : Prop :=
  ∀ (fb : List Host.Cell) (len : Nat),
    (memRead fb 20 = some 0x3A#8 → nextHeaderWalk fb len = .ok (.arrived 54 0))
    ∧ ∀ es : List Byte, memRead fb 20 = some 0x00#8 → Chain fb len 54 es →
        nextHeaderWalk fb len = .ok (.arrived (54 + chainBytes es) es.length)

/-- R186, its consequences: where the walk arrives, ICMPv6 starts inside the frame at a multiple of 8 from the payload's start,
past at least 8 bytes for each header walked. -/
def Obligations.WalkArrivesAligned : Prop :=
  ∀ (fb : List Host.Cell) (len off ext : Nat), 54 ≤ len → nextHeaderWalk fb len = .ok (.arrived off ext) →
    off ≤ len ∧ 54 + 8 * ext ≤ off ∧ (off - 54) % 8 = 0

/-- R187, R188, R189: after the walk, ICMP_SHORT below 8 bytes; else, of the 32 address bytes and the message, CSUM_BAD where
the message's field differs from the checksum computed, whatever the type; OTHER for a type that is neither NS nor NA. PICMP, PEXT,
PCSUM and ICMP_TYPE as each step writes. -/
def Obligations.IcmpStepsOutcomes : Prop :=
  ∀ (s : State) (wb : Bool) (off ext : Nat),
    HeaderOk s → nextHeaderWalk s.fb s.frameLen.toNat = .ok (.arrived off ext) →
    let walked := { ParseResult.cleared with
      icmpOff := BitVec.ofNat 16 off, icmpLen := BitVec.ofNat 16 (s.frameLen.toNat - off), extCount := BitVec.ofNat 16 ext }
    let out (p : ParseResult) : Host.Outcome State Fault Refusal := .next { s with
      parse := p, pending := none, done := true, errcode := .ok, err := false }
    (s.frameLen.toNat - off < 8 → exec (.parse wb) s = out { walked with verdict := .discard .icmpShort })
    ∧ ∀ addrs m : List Byte, addrs.length = 32 → m.length = s.frameLen.toNat - off → 8 ≤ m.length →
        Holds s.fb 22 addrs → Holds s.fb off m →
        let computed := ~~~ (messageSum addrs m).extractLsb' 0 16
        let checked := { walked with csumRx := be16Of m 2, csumCalc := computed, icmpType := m.getD 0 0 }
        (computed ≠ be16Of m 2 → exec (.parse wb) s = out { checked with verdict := .discard .csumBad })
        ∧ (computed = be16Of m 2 → m.getD 0 0 ≠ 135#8 → m.getD 0 0 ≠ 136#8 →
            exec (.parse wb) s = out { checked with verdict := .other })

/-- R190, R50, R53: an NS whose checksum matched, by its length, its source address and its first option; the addresses and the
link-layer address are the bytes of the frame in wire order. -/
def Obligations.NsOutcomes : Prop :=
  ∀ (s : State) (wb : Bool) (off ext : Nat) (addrs m : List Byte),
    HeaderOk s → nextHeaderWalk s.fb s.frameLen.toNat = .ok (.arrived off ext) →
    addrs.length = 32 → m.length = s.frameLen.toNat - off → 8 ≤ m.length → Holds s.fb 22 addrs → Holds s.fb off m →
    ~~~ (messageSum addrs m).extractLsb' 0 16 = be16Of m 2 → m.getD 0 0 = 135#8 →
    let checked := { ParseResult.cleared with
      icmpOff := BitVec.ofNat 16 off, icmpLen := BitVec.ofNat 16 m.length, extCount := BitVec.ofNat 16 ext
      csumRx := be16Of m 2, csumCalc := be16Of m 2, icmpType := 135#8 }
    let accepted := { checked with verdict := .ns, src := ip6Of addrs 0, dst := ip6Of addrs 16, tgt := ip6Of m 8 }
    let out (p : ParseResult) : Host.Outcome State Fault Refusal := .next { s with
      parse := p, pending := none, done := true, errcode := .ok, err := false }
    let unspecified : Prop := ∀ j < 16, addrs.getD j 0 = 0#8
    (m.length < 24 → exec (.parse wb) s = out { checked with verdict := .discard .nsShort })
    ∧ (24 ≤ m.length → unspecified → exec (.parse wb) s = out accepted)
    ∧ (24 ≤ m.length → ¬ unspecified →
        (m.length < 32 → exec (.parse wb) s = out { checked with verdict := .discard .nsNoSlla })
        ∧ (32 ≤ m.length → m.getD 24 0 ≠ 1#8 ∨ m.getD 25 0 ≠ 1#8 →
            exec (.parse wb) s = out { checked with verdict := .discard .nsBadSlla })
        ∧ (32 ≤ m.length → m.getD 24 0 = 1#8 → m.getD 25 0 = 1#8 →
            exec (.parse wb) s = out { accepted with sllaValid := true, sllaHi := be16Of m 26, sllaLo := be32Of m 28 }))

/-- R191, R53: an NA whose checksum matched, by its length; the addresses are the bytes of the frame in wire order. -/
def Obligations.NaOutcomes : Prop :=
  ∀ (s : State) (wb : Bool) (off ext : Nat) (addrs m : List Byte),
    HeaderOk s → nextHeaderWalk s.fb s.frameLen.toNat = .ok (.arrived off ext) →
    addrs.length = 32 → m.length = s.frameLen.toNat - off → 8 ≤ m.length → Holds s.fb 22 addrs → Holds s.fb off m →
    ~~~ (messageSum addrs m).extractLsb' 0 16 = be16Of m 2 → m.getD 0 0 = 136#8 →
    let checked := { ParseResult.cleared with
      icmpOff := BitVec.ofNat 16 off, icmpLen := BitVec.ofNat 16 m.length, extCount := BitVec.ofNat 16 ext
      csumRx := be16Of m 2, csumCalc := be16Of m 2, icmpType := 136#8 }
    let out (p : ParseResult) : Host.Outcome State Fault Refusal := .next { s with
      parse := p, pending := none, done := true, errcode := .ok, err := false }
    (m.length < 24 → exec (.parse wb) s = out { checked with verdict := .discard .naShort })
    ∧ (24 ≤ m.length → exec (.parse wb) s = out { checked with
        verdict := .na, src := ip6Of addrs 0, dst := ip6Of addrs 16, tgt := ip6Of m 8 })

/-- R193, R194: the parse depends on no byte at or past the frame's length, and on none of the Ethernet addresses, the first
four bytes of the IPv6 header (version, traffic class, flow label), the hop limit and the options inside the Hop-by-Hop headers. -/
def Obligations.ParseIgnoresUncheckedBytes : Prop :=
  ∀ (fb fc : List Host.Cell) (len : Nat),
    (∀ j < len, 12 ≤ j → ¬ (14 ≤ j ∧ j < 18) → j ≠ 21 → ¬ HopOption fb len j → memRead fb j = memRead fc j) →
    parseFrame fb len = parseFrame fc len

/-! ## The filter (42_filter.md) -/

/-- R230, R231: FILTER_GEN writes the 18 words of the table into entries 0 to 8, leaves every other entry, sets PROG_LEN to 9
and completes; run again it changes nothing more. -/
def Obligations.FilterGenWritesTheProgram : Prop :=
  ∀ (s : State) (wb : Bool), ∃ t, exec (.filterGen wb) s = .next t
    ∧ t = { s with prog := t.prog, progLen := 9#9, pending := none, done := true, errcode := .ok, err := false }
    ∧ (∀ i < 18, memRead t.prog i = genTable[i]?) ∧ (∀ i, 18 ≤ i → memRead t.prog i = memRead s.prog i)
    ∧ (Memory.wf s.prog → exec (.filterGen wb) t = .next t)

/-- R240, R283: FILTER_RUN ends with ERR_PROG_LEN when PROG_LEN is 0 or above PROG_CAP, before ERR_RANGE when FRAME_LEN is
above FB_SIZE; nothing but STATUS is written (R284). -/
def Obligations.FilterRunStartChecks : Prop :=
  ∀ (s : State) (wb : Bool),
    (s.progLen = 0#9 ∨ s.cfg.progCap < s.progLen.toNat →
      exec (.filterRun wb) s = .next { s with pending := none, done := true, errcode := .progLen, err := true })
    ∧ (s.progLen ≠ 0#9 → s.progLen.toNat ≤ s.cfg.progCap → s.cfg.fbSize < s.frameLen.toNat →
      exec (.filterRun wb) s = .next { s with pending := none, done := true, errcode := .range, err := true })

/-- R242: `ldh [k]`, in and out of bounds; and where a byte it loads is unwritten, UninitRead at the first (R62, R240, R283, R287).
That the fault stops the machine is the model's choice (assumption 7). -/
def Obligations.LdhLoadsHalfwordOrDrops : Prop :=
  ∀ (s : State) (r : BpfRun) (jt jf : Byte) (k : Word), s.run = some r →
    (s.frameLen.toNat < k.toNat + 2 →
      exec (.ldh jt jf k) s = .next { s with
        fresult := 0#32, fa := r.a, run := none
        finfo := { pc := BitVec.ofNat 10 r.pc, accept := false, oob := true, steps := BitVec.ofNat 9 r.steps }
        pending := none, done := true, errcode := .ok, err := false })
    ∧ (k.toNat + 2 ≤ s.frameLen.toNat → ∀ hi lo : Byte, memRead s.fb k.toNat = some hi →
        memRead s.fb (k.toNat + 1) = some lo →
        exec (.ldh jt jf k) s = .next { s with
          run := some { a := BitVec.ofNat 32 (hi.toNat * 256 + lo.toNat), pc := r.pc + 1, steps := r.steps } })
    ∧ (k.toNat + 2 ≤ s.frameLen.toNat → ∀ j, firstUnwritten s.fb [k.toNat, k.toNat + 1] = some j →
        exec (.ldh jt jf k) s = .fault (.uninitRead s.lastop (.fb j)))

/-- R243: `ldb [k]`, in and out of bounds; and where the byte is unwritten, UninitRead (R62, R240, R287). That the fault stops the
machine is the model's choice (assumption 7). -/
def Obligations.LdbLoadsByteOrDrops : Prop :=
  ∀ (s : State) (r : BpfRun) (jt jf : Byte) (k : Word), s.run = some r →
    (s.frameLen.toNat < k.toNat + 1 →
      exec (.ldb jt jf k) s = .next { s with
        fresult := 0#32, fa := r.a, run := none
        finfo := { pc := BitVec.ofNat 10 r.pc, accept := false, oob := true, steps := BitVec.ofNat 9 r.steps }
        pending := none, done := true, errcode := .ok, err := false })
    ∧ (k.toNat + 1 ≤ s.frameLen.toNat → ∀ b : Byte, memRead s.fb k.toNat = some b →
        exec (.ldb jt jf k) s = .next { s with
          run := some { a := BitVec.ofNat 32 b.toNat, pc := r.pc + 1, steps := r.steps } })
    ∧ (k.toNat + 1 ≤ s.frameLen.toNat → memRead s.fb k.toNat = none →
        exec (.ldb jt jf k) s = .fault (.uninitRead s.lastop (.fb k.toNat)))

/-- R244: `jeq #k, jt, jf` moves only pc, past itself and jt or jf entries more. -/
def Obligations.JeqBranchesForward : Prop :=
  ∀ (s : State) (r : BpfRun) (jt jf : Byte) (k : Word), s.run = some r →
    (r.a = k → exec (.jeq jt jf k) s = .next { s with
      run := some { a := r.a, pc := r.pc + 1 + jt.toNat, steps := r.steps } })
    ∧ (r.a ≠ k → exec (.jeq jt jf k) s = .next { s with
      run := some { a := r.a, pc := r.pc + 1 + jf.toNat, steps := r.steps } })

/-- R245: `ret #k` ends the run with value k, an accept exactly when k is not 0, without an error. -/
def Obligations.RetEndsWithItsValue : Prop :=
  ∀ (s : State) (r : BpfRun) (jt jf : Byte) (k : Word), s.run = some r →
    exec (.ret jt jf k) s = .next { s with
      fresult := k, fa := r.a, run := none
      finfo := { pc := BitVec.ofNat 10 r.pc, accept := decide (k ≠ 0#32), oob := false, steps := BitVec.ofNat 9 r.steps }
      pending := none, done := true, errcode := .ok, err := false }

/-- R246: an entry of any other code ends the run with ERR_BPF_ILLEGAL, FRESULT 0 and FINFO.PC its index. -/
def Obligations.IllegalEntryFailsTheRun : Prop :=
  ∀ (s : State) (r : BpfRun) (code : Half) (jt jf : Byte) (k : Word), s.run = some r →
    exec (.illegalBpf code jt jf k) s = .next { s with
      fresult := 0#32, fa := r.a, run := none
      finfo := { pc := BitVec.ofNat 10 r.pc, accept := false, oob := false, steps := BitVec.ofNat 9 r.steps }
      pending := none, done := true, errcode := .bpfIllegal, err := true }

/-- R247: a fetch with pc at or past PROG_LEN fails the run with ERR_BPF_PC and FINFO.PC that pc; STEPS counts no fetch. That a step
can start inside a run is the model's choice (assumption 10). -/
def Obligations.FetchPastTheEndFailsTheRun : Prop :=
  ∀ (s : State) (r : BpfRun), s.run = some r → s.progLen.toNat ≤ r.pc →
    step s = .next { s with
      fresult := 0#32, fa := r.a, run := none
      finfo := { pc := BitVec.ofNat 10 r.pc, accept := false, oob := false, steps := BitVec.ofNat 9 r.steps }
      pending := none, done := true, errcode := .bpfPc, err := true }

/-- R52, R240: FILTER_RUN in one step is what the machine's own steps give from the start of the run, entry by entry, in at
most PROG_LEN + 1 of them (assumption 10). -/
def Obligations.FilterRunRefinesEntrySteps : Prop :=
  ∀ (s : State) (wb : Bool), s.progLen ≠ 0#9 → s.progLen.toNat ≤ s.cfg.progCap → s.frameLen.toNat ≤ s.cfg.fbSize →
    ∃ k, k ≤ s.progLen.toNat + 1
      ∧ core.run k { s with run := some { a := 0, pc := 0, steps := 0 } } = exec (.filterRun wb) s

/-- R240, R241, R248: with a program of legal length all written and a frame all written, FILTER_RUN completes; it writes only
FRESULT, FINFO, FA and STATUS, no run is left, at most PROG_LEN entries were executed, and ACCEPT is FRESULT not 0 (R249). And
where the run, entry by entry (assumption 10), reaches an entry with a word unwritten, or a load inside the frame of a byte
unwritten, FILTER_RUN is UninitRead there (R283, R287). That an entry is read whole whatever its code, PROG_CODE first, with
writtenness kept per word, is the model's reading (assumption 8), and that the fault stops the machine its choice (assumption 7). -/
def Obligations.FilterRunCompletesOnWrittenPrograms : Prop :=
  ∀ (s : State) (wb : Bool), s.progLen ≠ 0#9 → s.progLen.toNat ≤ s.cfg.progCap → s.frameLen.toNat ≤ s.cfg.fbSize →
    (s.cfg.progCap ≤ 256 → (∀ i < 2 * s.progLen.toNat, (memRead s.prog i).isSome = true) → Written s.fb 0 s.frameLen.toNat →
      ∃ t, exec (.filterRun wb) s = .next t
        ∧ t = { s with
            fresult := t.fresult, finfo := t.finfo, fa := t.fa, run := none
            pending := none, done := true, errcode := t.errcode, err := decide (t.errcode ≠ .ok) }
        ∧ (t.errcode = .ok ∨ t.errcode = .bpfIllegal ∨ t.errcode = .bpfPc)
        ∧ (t.errcode ≠ .ok → t.fresult = 0#32)
        ∧ t.finfo.steps.toNat ≤ s.progLen.toNat ∧ t.finfo.accept = decide (t.fresult ≠ 0#32))
    ∧ ∀ (n : Nat) (t : State) (r : BpfRun),
        core.run n { s with run := some { a := 0, pc := 0, steps := 0 } } = .next t → t.run = some r →
        r.pc < s.progLen.toNat →
        let stops (p : Place) : Prop := exec (.filterRun wb) s = .fault (.uninitRead s.lastop p)
        (memRead s.prog (2 * r.pc) = none → stops (.progCode r.pc))
        ∧ (∀ c : Word, memRead s.prog (2 * r.pc) = some c → memRead s.prog (2 * r.pc + 1) = none → stops (.progK r.pc))
        ∧ ∀ c k : Word, memRead s.prog (2 * r.pc) = some c → memRead s.prog (2 * r.pc + 1) = some k →
            (c.extractLsb' 0 16 = 0x0028#16 → k.toNat + 2 ≤ s.frameLen.toNat →
              ∀ j, firstUnwritten s.fb [k.toNat, k.toNat + 1] = some j → stops (.fb j))
            ∧ (c.extractLsb' 0 16 = 0x0030#16 → k.toNat + 1 ≤ s.frameLen.toNat → memRead s.fb k.toNat = none →
              stops (.fb k.toNat))

/-- R250: the generated program completes without an error and accepts exactly the frames of 55 bytes or more with ether_type
IPv6, next header ICMPv6 and type NS or NA. -/
def Obligations.GeneratedProgramDecision : Prop :=
  ∀ (s : State) (wb : Bool), HoldsGen s → 9 ≤ s.cfg.progCap → s.frameLen.toNat ≤ s.cfg.fbSize →
    Written s.fb 0 s.frameLen.toNat →
    ∃ t, exec (.filterRun wb) s = .next t ∧ t.errcode = .ok
      ∧ (t.fresult ≠ 0#32 ↔
          55 ≤ s.frameLen.toNat ∧ memRead s.fb 12 = some 0x86#8 ∧ memRead s.fb 13 = some 0xDD#8
            ∧ memRead s.fb 20 = some 58#8 ∧ (memRead s.fb 54 = some 135#8 ∨ memRead s.fb 54 = some 136#8))

/-- R251: where PARSE gives class NS or NA with no extension header, the generated program accepts the same frame. -/
def Obligations.ParseAcceptImpliesFilterAccept : Prop :=
  ∀ (s t : State) (wb wc : Bool), HoldsGen s → 9 ≤ s.cfg.progCap → exec (.parse wb) s = .next t → t.errcode = .ok →
    (t.parse.verdict = .ns ∨ t.parse.verdict = .na) → t.parse.extCount = 0#16 →
    ∃ u, exec (.filterRun wc) s = .next u ∧ u.errcode = .ok ∧ u.fresult ≠ 0#32

/-- R41, R252: the dialect changes no command: from states that differ in FCFG.FMT alone, commands end alike but for FMT. -/
def Obligations.DialectChangesNoCommand : Prop :=
  ∀ (s t : State) (op : BitVec 4) (wb b : Bool), exec (decodeOp op wb) s = .next t →
    exec (decodeOp op wb) { s with fmt := b } = .next { t with fmt := b }

/-! ## Errors and what commands may write (60_exceptions.md, R106) -/

/-- R284: a command that ends in ERR_ILLEGAL_CMD, ERR_RANGE, ERR_SHORT or ERR_PROG_LEN changes no state other than STATUS. -/
def Obligations.StartErrorsArePrecise : Prop :=
  ∀ (s t : State) (op : BitVec 4) (wb : Bool), exec (decodeOp op wb) s = .next t →
    (t.errcode = .illegalCmd ∨ t.errcode = .range ∨ t.errcode = .short ∨ t.errcode = .progLen) →
    t = { s with pending := none, done := true, errcode := t.errcode, err := true }

/-- R106, R17: over all instructions, what each one leaves alone when it goes on: no instruction writes an operand register,
CTRL, FCFG, OVR or LASTOP; ACC, CSUM_RESULT, FB, PROG and PROG_LEN, the parse results and the run's results each change only
under the commands (or, for the last, the entries) that write them. -/
def Obligations.InstructionsWriteOnlyTheirResults : Prop :=
  ∀ (i : Instr) (s t : State), exec i s = .next t →
    (t.cfg = s.cfg ∧ t.frameLen = s.frameLen ∧ t.opa = s.opa ∧ t.opb = s.opb ∧ t.oplen = s.oplen
      ∧ t.irqEn = s.irqEn ∧ t.fmt = s.fmt ∧ t.ovr = s.ovr ∧ t.lastop = s.lastop
      ∧ t.turns = s.turns ∧ t.readData = s.readData ∧ t.faults = s.faults ∧ t.draws = s.draws)
    ∧ (t.acc = s.acc ∨ (∃ wb, i = .csumAdd wb) ∨ ∃ wb, i = .csumIcmp6 wb)
    ∧ (t.csumResult = s.csumResult ∨ ∃ wb, i = .csumIcmp6 wb)
    ∧ (t.fb = s.fb ∨ i = .csumIcmp6 true)
    ∧ (∀ a, a ≠ s.opb.toNat + 2 → a ≠ s.opb.toNat + 3 → memRead t.fb a = memRead s.fb a)
    ∧ ((t.prog = s.prog ∧ t.progLen = s.progLen) ∨ ∃ wb, i = .filterGen wb)
    ∧ (t.parse = s.parse ∨ ∃ wb, i = .parse wb)
    ∧ ((t.fresult = s.fresult ∧ t.finfo = s.finfo ∧ t.fa = s.fa) ∨ (∃ wb, i = .filterRun wb) ∨ i.format = .entry)

/-! ## The host bus (10_state.md, 20_memory.md, 70_reset_and_hazards.md) -/

/-- R22, R23, R33 to R38, R41, R42: an idle host write to each RW register stores exactly its field. -/
def Obligations.RegisterWritesStoreTheirField : Prop :=
  ∀ (s : State) (off : Nat) (v : Word) (ts : List Turn), s.run = none → s.pending = none →
    s.turns = .host (.write .w32 (s.cfg.base + off) v) :: ts →
    (off = 0x010 → step s = .next { s with turns := ts, irqEn := v.getLsbD 0 })
    ∧ (off = 0x014 → step s = .next { s with turns := ts, frameLen := v.extractLsb' 0 16 })
    ∧ (off = 0x018 → step s = .next { s with turns := ts, opa := v.extractLsb' 0 16 })
    ∧ (off = 0x01C → step s = .next { s with turns := ts, opb := v.extractLsb' 0 16 })
    ∧ (off = 0x020 → step s = .next { s with turns := ts, oplen := v.extractLsb' 0 16 })
    ∧ (off = 0x024 → step s = .next { s with turns := ts, acc := v })
    ∧ (off = 0x030 → step s = .next { s with turns := ts, fmt := v.getLsbD 0 })
    ∧ (off = 0x034 → step s = .next { s with turns := ts, progLen := v.extractLsb' 0 9 })
    ∧ (∀ i < s.cfg.progCap, s.cfg.progCap ≤ 256 → off = 0x100 + 8 * i →
        step s = .next { s with turns := ts, prog := memWrite s.prog (2 * i) v })
    ∧ (∀ i < s.cfg.progCap, s.cfg.progCap ≤ 256 → off = 0x104 + 8 * i →
        step s = .next { s with turns := ts, prog := memWrite s.prog (2 * i + 1) v })

/-- R22, R23: a 32-bit host write to a read-only register or a reserved offset below the FB window has no effect, busy or not. -/
def Obligations.ReadOnlyAndReservedIgnoreWrites : Prop :=
  ∀ (s : State) (off : Nat) (v : Word) (ts : List Turn), s.run = none →
    s.turns = .host (.write .w32 (s.cfg.base + off) v) :: ts → off % 4 = 0 →
    (off = 0x000 ∨ off = 0x004 ∨ off = 0x028 ∨ off = 0x02C ∨ (0x038 ≤ off ∧ off < 0x100)
      ∨ (0x100 + 8 * s.cfg.progCap ≤ off ∧ off < 0x10000)) →
    step s = .next { s with turns := ts }

/-- R72, R75: an idle, aligned host write of any width to the FB window stores each lane that lies below FB_SIZE, the low bits
first, and changes nothing else; one wholly at or above FB_SIZE has no effect, idle or busy (R23, R75; assumption 12). -/
def Obligations.FbWritesStoreByteLanes : Prop :=
  ∀ (s : State) (w : Width) (j : Nat) (v : Word) (ts : List Turn), s.run = none →
    s.turns = .host (.write w (s.cfg.base + (0x10000 + j)) v) :: ts → j % w.bytes = 0 → j < 0x10000 →
    (s.pending = none → ∃ t, step s = .next t ∧ t = { s with turns := ts, fb := t.fb }
      ∧ (∀ a, memRead t.fb a =
          if j ≤ a ∧ a < j + w.bytes ∧ a < s.cfg.fbSize then some (v.extractLsb' (8 * (a - j)) 8) else memRead s.fb a))
    ∧ (s.cfg.fbSize ≤ j → step s = .next { s with turns := ts })

/-- R72, R75, R78, R84: an aligned host read of the FB window, of any width, returns its bytes, the first on bits 7..0 and the lines
above them 0, with 0 for a byte at or above FB_SIZE, and changes nothing else, unless a pending CSUM_ICMP6 with WB = 1 may write one
of its bytes below FB_SIZE. -/
def Obligations.FbReadsReturnByteLanes : Prop :=
  ∀ (s : State) (w : Width) (j : Nat) (b : Nat → Byte) (ts : List Turn), s.run = none →
    (∀ c, s.pending = some c → c.op = 2#4 → c.wb = true →
      ∀ i < w.bytes, j + i < s.cfg.fbSize → j + i ≠ s.opb.toNat + 2 ∧ j + i ≠ s.opb.toNat + 3) →
    s.turns = .host (.read w (s.cfg.base + (0x10000 + j))) :: ts → j % w.bytes = 0 → j < 0x10000 →
    (∀ i < w.bytes, if j + i < s.cfg.fbSize then memRead s.fb (j + i) = some (b i) else b i = 0#8) →
    (w = .w8 → step s = .next { s with turns := ts, readData := some (0#24 ++ b 0) })
    ∧ (w = .w16 → step s = .next { s with turns := ts, readData := some (0#16 ++ b 1 ++ b 0) })
    ∧ (w = .w32 → step s = .next { s with turns := ts, readData := some (b 3 ++ b 2 ++ b 1 ++ b 0) })

/-- R62, R287: an aligned host read of the FB window, of any width, is the fault UninitRead at its first byte below FB_SIZE that
nobody has written, and so is a read of a program word nobody has written, idle or busy. That a word is the unit of writtenness,
that the fault stops the machine, and that it wins over the arbitrary value of R84 while a command that may write the place is
pending, is the model's choice (assumptions 7, 8). -/
def Obligations.HostReadOfUnwrittenFaults : Prop :=
  ∀ (s : State) (w : Width) (j : Nat) (ts : List Turn), s.run = none →
    (s.turns = .host (.read w (s.cfg.base + (0x10000 + j))) :: ts → j % w.bytes = 0 → j < 0x10000 →
      ∀ i, firstUnwritten s.fb ((List.range' j w.bytes).filter fun x => decide (x < s.cfg.fbSize)) = some i →
      step s = .fault (.uninitRead s.lastop (.fb i)))
    ∧ (s.turns = .host (.read .w32 (s.cfg.base + (0x100 + 8 * j))) :: ts → j < s.cfg.progCap → s.cfg.progCap ≤ 256 →
      memRead s.prog (2 * j) = none → step s = .fault (.uninitRead s.lastop (.progCode j)))
    ∧ (s.turns = .host (.read .w32 (s.cfg.base + (0x104 + 8 * j))) :: ts → j < s.cfg.progCap → s.cfg.progCap ≤ 256 →
      memRead s.prog (2 * j + 1) = none → step s = .fault (.uninitRead s.lastop (.progK j)))

/-- R74: an access of an illegal width or a misaligned one changes nothing of the block; a read finds 0 on the data lines. That
the machine goes on with the fault HostBusError recorded is the model's choice (assumption 1). -/
def Obligations.BusErrorHasNoEffect : Prop :=
  ∀ (s : State) (w : Width) (off : Nat) (v : Word) (ts : List Turn), s.run = none → off < 0x20000 →
    (off < 0x10000 ∧ w ≠ .w32) ∨ off % w.bytes ≠ 0 →
    (s.turns = .host (.write w (s.cfg.base + off) v) :: ts →
      step s = .next { s with turns := ts, faults := s.faults ++ [.hostBusError w off] })
    ∧ (s.turns = .host (.read w (s.cfg.base + off)) :: ts →
      step s = .next { s with turns := ts, faults := s.faults ++ [.hostBusError w off], readData := some 0#32 })

/-- R320: while BUSY = 1 a host write to FRAME_LEN, OPA, OPB, OPLEN, ACC, PROG_LEN, a PROG entry or an FB byte is the fault
HazardWrite, and writes to CTRL and FCFG have their effect (StatusWriteClearsByOnes says so of STATUS). That the fault stops the
machine is the model's choice (assumption 12). -/
def Obligations.OperandWritesWhileBusyAreHazards : Prop :=
  ∀ (s : State) (c : Pending) (w : Width) (off : Nat) (v : Word) (ts : List Turn), s.run = none → s.pending = some c →
    s.turns = .host (.write w (s.cfg.base + off) v) :: ts → s.cfg.Legal →
    (w = .w32 → off ∈ [0x014, 0x018, 0x01C, 0x020, 0x024, 0x034] → ∃ p, step s = .fault (.hazardWrite s.lastop p))
    ∧ (w = .w32 → off % 4 = 0 → 0x100 ≤ off → off < 0x100 + 8 * s.cfg.progCap →
        ∃ p, step s = .fault (.hazardWrite s.lastop p))
    ∧ (off % w.bytes = 0 → 0x10000 ≤ off → off < 0x10000 + s.cfg.fbSize → ∃ p, step s = .fault (.hazardWrite s.lastop p))
    ∧ (w = .w32 → off = 0x010 → step s = .next { s with turns := ts, irqEn := v.getLsbD 0 })
    ∧ (w = .w32 → off = 0x030 → step s = .next { s with turns := ts, fmt := v.getLsbD 0 })

/-- R78: a host read that goes on changes nothing of the block, only the host's data lines, the count of free values drawn, and
the recorded bus errors. R21 to R25, R27 to R50, R53: an aligned 32-bit read of a register returns its fields in their places, of a
program word the word (R54), of a reserved offset below the FB window 0 (R23), in every state in which no pending command may write
it (R84): beside each register stand the OPs that may. R280, R46, R181: the numbers of the error codes, the classes and the
reasons. -/
def Obligations.HostReadsHaveNoSideEffects : Prop :=
  (∀ (s t : State) (w : Width) (addr : Nat), hostAccess (.read w addr) s = .next t →
    t = { s with readData := t.readData, draws := t.draws, faults := t.faults })
  ∧ (∀ (s : State) (off : Nat) (ts : List Turn), s.run = none → s.turns = .host (.read .w32 (s.cfg.base + off)) :: ts →
      let p := s.parse
      let returns (v : Word) : Prop := step s = .next { s with turns := ts, readData := some v }
      let notBy (ops : List (BitVec 4)) : Prop := ∀ c, s.pending = some c → c.op ∉ ops
      (∀ x ∈ ([
          (0x000, [], 0x4E445045#32),
          (0x004, [], 0#7 ++ BitVec.ofNat 9 s.cfg.progCap ++ BitVec.ofNat 16 s.cfg.fbSize),
          (0x008, [], 0#32),
          (0x00C, [], 0#12 ++ s.lastop ++ s.errcode.code ++ 0#4 ++ BitVec.ofBool s.ovr ++ BitVec.ofBool s.err
            ++ BitVec.ofBool s.done ++ BitVec.ofBool s.pending.isSome),
          (0x010, [], 0#31 ++ BitVec.ofBool s.irqEn), (0x014, [], 0#16 ++ s.frameLen), (0x018, [], 0#16 ++ s.opa),
          (0x01C, [], 0#16 ++ s.opb), (0x020, [], 0#16 ++ s.oplen), (0x024, [1#4, 2#4], s.acc),
          (0x028, [2#4], 0#16 ++ s.csumResult), (0x02C, [4#4], 0#23 ++ s.progLen), (0x030, [], 0#31 ++ BitVec.ofBool s.fmt),
          (0x034, [4#4], 0#23 ++ s.progLen), (0x038, [5#4], s.fresult),
          (0x03C, [5#4], 0#7 ++ s.finfo.steps ++ 0#4 ++ BitVec.ofBool s.finfo.oob ++ BitVec.ofBool s.finfo.accept ++ s.finfo.pc),
          (0x040, [5#4], s.fa)] : List (Nat × List (BitVec 4) × Word)), off = x.1 → notBy x.2.1 → returns x.2.2)
      ∧ (∀ x ∈ ([
          (0x044, p.icmpType ++ 0#7 ++ BitVec.ofBool p.sllaValid ++ p.verdict.reasonCode ++ 0#5 ++ p.verdict.classCode),
          (0x048, p.icmpLen ++ p.icmpOff), (0x04C, p.csumCalc ++ p.csumRx), (0x050, 0#16 ++ p.extCount),
          (0x058, 0#16 ++ p.sllaHi), (0x05C, p.sllaLo),
          (0x060, p.src.w0), (0x064, p.src.w1), (0x068, p.src.w2), (0x06C, p.src.w3),
          (0x070, p.dst.w0), (0x074, p.dst.w1), (0x078, p.dst.w2), (0x07C, p.dst.w3),
          (0x080, p.tgt.w0), (0x084, p.tgt.w1), (0x088, p.tgt.w2), (0x08C, p.tgt.w3)] : List (Nat × Word)),
          off = x.1 → notBy [3#4] → returns x.2)
      ∧ (∀ i < s.cfg.progCap, s.cfg.progCap ≤ 256 → (i < 9 → notBy [4#4]) → ∀ v : Word,
          (off = 0x100 + 8 * i → memRead s.prog (2 * i) = some v → returns v)
          ∧ (off = 0x104 + 8 * i → memRead s.prog (2 * i + 1) = some v → returns v))
      ∧ (off % 4 = 0 → off = 0x054 ∨ (0x090 ≤ off ∧ off < 0x100) ∨ (0x100 + 8 * s.cfg.progCap ≤ off ∧ off < 0x10000) →
          returns 0#32))
  ∧ [ErrCode.ok, .illegalCmd, .range, .short, .progLen, .bpfIllegal, .bpfPc].map ErrCode.code
      = [0x00#8, 0x01#8, 0x02#8, 0x03#8, 0x04#8, 0x05#8, 0x06#8]
  ∧ [Verdict.none, .ns, .na, .other].map (fun v => (v.classCode, v.reasonCode))
      = [(0#3, 0x00#8), (1#3, 0x00#8), (2#3, 0x00#8), (3#3, 0x00#8)]
  ∧ [DiscardReason.shortHdr, .notIpv6, .plenMismatch, .extTrunc, .extNh, .nhUnsupported, .icmpShort, .csumBad, .nsShort, .nsNoSlla,
        .nsBadSlla, .naShort].map (fun r => ((Verdict.discard r).classCode, (Verdict.discard r).reasonCode))
      = [(4#3, 0x01#8), (4#3, 0x02#8), (4#3, 0x03#8), (4#3, 0x04#8), (4#3, 0x05#8), (4#3, 0x06#8), (4#3, 0x07#8), (4#3, 0x08#8),
        (4#3, 0x09#8), (4#3, 0x0A#8), (4#3, 0x0B#8), (4#3, 0x0C#8)]

/-- R84, R321: while a command is pending, a host read of one of its result registers, of a written program word FILTER_GEN
writes, or of a written byte of the checksum field CSUM_ICMP6 with WB = 1 writes, returns the next free value, an FB byte the lane
of it the byte stands on; and STATUS, CTRL, ID and CONFIG read their current values. That the value is drawn from the model's
free value is assumption 6. -/
def Obligations.ResultReadsWhileBusyAreFree : Prop :=
  (∀ (s : State) (c : Pending) (off : Nat) (ts : List Turn), s.run = none → s.pending = some c →
    s.turns = .host (.read .w32 (s.cfg.base + off)) :: ts →
    ((c.op = 1#4 ∧ off = 0x024) ∨ (c.op = 2#4 ∧ (off = 0x024 ∨ off = 0x028))
      ∨ (c.op = 3#4 ∧ 0x044 ≤ off ∧ off ≤ 0x08C ∧ off % 4 = 0 ∧ off ≠ 0x054) ∨ (c.op = 4#4 ∧ (off = 0x034 ∨ off = 0x02C))
      ∨ (c.op = 5#4 ∧ 0x038 ≤ off ∧ off ≤ 0x040 ∧ off % 4 = 0) →
      step s = .next { s with turns := ts, readData := some (Config.freeRead s.draws), draws := s.draws + 1 })
    ∧ (∀ i v, c.op = 4#4 → i < 9 → i < s.cfg.progCap →
        (off = 0x100 + 8 * i ∧ memRead s.prog (2 * i) = some v) ∨ (off = 0x104 + 8 * i ∧ memRead s.prog (2 * i + 1) = some v) →
        step s = .next { s with turns := ts, readData := some (Config.freeRead s.draws), draws := s.draws + 1 })
    ∧ (off = 0x000 → step s = .next { s with turns := ts, readData := some 0x4E445045#32 })
    ∧ (off = 0x004 → step s = .next { s with
        turns := ts, readData := some (0#7 ++ BitVec.ofNat 9 s.cfg.progCap ++ BitVec.ofNat 16 s.cfg.fbSize) })
    ∧ (off = 0x00C → step s = .next { s with
        turns := ts
        readData := some (0#12 ++ s.lastop ++ s.errcode.code ++ 0#4 ++ BitVec.ofBool s.ovr ++ BitVec.ofBool s.err
          ++ BitVec.ofBool s.done ++ 1#1) })
    ∧ (off = 0x010 → step s = .next { s with turns := ts, readData := some (if s.irqEn then 1#32 else 0#32) }))
  ∧ ∀ (s : State) (c : Pending) (w : Width) (j : Nat) (b : Nat → Byte) (ts : List Turn), s.run = none → s.pending = some c →
    c.op = 2#4 → c.wb = true → s.turns = .host (.read w (s.cfg.base + (0x10000 + j))) :: ts → j % w.bytes = 0 → j < 0x10000 →
    (∀ i < w.bytes, if j + i < s.cfg.fbSize then memRead s.fb (j + i) = some (b i) else b i = 0#8) →
    let field (i : Nat) : Bool :=
      decide (j + i < s.cfg.fbSize) && (decide (j + i = s.opb.toNat + 2) || decide (j + i = s.opb.toNat + 3))
    let lane (i : Nat) : Byte := if field i then (Config.freeRead s.draws).extractLsb' (8 * i) 8 else b i
    (∃ i < w.bytes, field i = true) →
    (w = .w8 → step s = .next { s with turns := ts, readData := some (0#24 ++ lane 0), draws := s.draws + 1 })
    ∧ (w = .w16 → step s = .next { s with turns := ts, readData := some (0#16 ++ lane 1 ++ lane 0), draws := s.draws + 1 })
    ∧ (w = .w32 → step s = .next { s with
        turns := ts, readData := some (lane 3 ++ lane 2 ++ lane 1 ++ lane 0), draws := s.draws + 1 })

/-! ## Reset and invariants -/

/-- R61, R310, R311: what every register reads right after reset, with FB and PROG unwritten, no command pending and IRQ low;
and a reset pulse leaves that state whatever ran before, but for the parameters, the recorded faults (R288) and the model's own
fields. That the pulse is one turn and keeps the model's own fields is the model's choice (assumption 4). -/
def Obligations.ResetValuesAndPulse : Prop :=
  (∀ r : Reg, readReg State.reset r = if r = .id then 0x4E445045 else if r = .config then 0x00101000 else 0)
    ∧ State.reset.pending = none ∧ State.reset.irq = false ∧ State.reset.run = none
    ∧ (∀ a, memRead State.reset.fb a = none) ∧ (∀ a, memRead State.reset.prog a = none)
    ∧ ∀ (s : State) (ts : List Turn), s.run = none → s.turns = .reset :: ts →
        step s = .next { State.reset with
          cfg := s.cfg, faults := s.faults, turns := ts, readData := s.readData, draws := s.draws }

/-- R25, R288: no step changes the parameters or removes a recorded fault. -/
def Obligations.ParametersAndRecordedFaultsStay : Prop :=
  ∀ s t : State, step s = .next t → t.cfg = s.cfg ∧ s.faults <+: t.faults

/-- Every step from a state that meets the invariant of the machine gives one that meets it: legal parameters, memory in its
canonical form and inside its capacities, ERR with ERRCODE, BUSY without DONE, no run left half-done (R52), ACCEPT with FRESULT,
and the parse results in agreement (R195). -/
def Obligations.EveryStepKeepsTheInvariant : Prop :=
  ∀ s t : State, s.Inv → step s = .next t → t.Inv

/-- The state after reset meets the invariant, for every legal choice of the parameters. -/
def Obligations.ResetMeetsTheInvariant : Prop :=
  (∀ p : Params, p.Legal → (State.resetWith p).Inv) ∧ State.reset.Inv
end

