-- ==== Sys2Proof/Laws/Memory.lean ====
section
/-!
SUPPORT. Memory that is unwritten where nothing was stored: read after write, the canonical form, and what the reads of FB
depend on.
-/
namespace Sys2Proof.Machine

variable {α : Type}

/-! ## Read after write -/

@[simp] theorem memRead_memWrite_same (m : Cells α) (a : Nat) (v : α) : memRead (memWrite m a v) a = some v := by
  induction m with
  | nil => simp [memWrite, memRead]
  | cons x m ih =>
    obtain ⟨k, y⟩ := x
    simp only [memWrite]
    split
    · simp [memRead]
    · split
      · simp [memRead]
      · have : k ≠ a := by omega
        simp [memRead, this, ih]

theorem memRead_memWrite_of_ne (m : Cells α) {a b : Nat} (v : α) (h : b ≠ a) :
    memRead (memWrite m a v) b = memRead m b := by
  induction m with
  | nil => simp [memWrite, memRead, Ne.symm h]
  | cons x m ih =>
    obtain ⟨k, y⟩ := x
    simp only [memWrite]
    split
    · simp [memRead, Ne.symm h]
    · split
      · subst a; simp [memRead, Ne.symm h]
      · simp [memRead, ih]

/-- A run of writes leaves every address outside it alone. -/
theorem memRead_memWriteList_outside (vs : List α) (m : Cells α) {a b : Nat} (h : b < a ∨ a + vs.length ≤ b) :
    memRead (memWriteList m a vs) b = memRead m b := by
  induction vs generalizing m a with
  | nil => rfl
  | cons v vs ih =>
    simp only [List.length_cons] at h
    rw [memWriteList, ih _ (by omega), memRead_memWrite_of_ne _ _ (by omega)]

/-- Each address of a run of writes holds its value. -/
theorem memRead_memWriteList_inside (vs : List α) (m : Cells α) {a i : Nat} (h : i < vs.length) :
    memRead (memWriteList m a vs) (a + i) = vs[i]? := by
  induction vs generalizing m a i with
  | nil => simp at h
  | cons v vs ih =>
    cases i with
    | zero => rw [memWriteList, memRead_memWriteList_outside _ _ (by omega)]; simp
    | succ i =>
      have := ih (memWrite m a v) (a := a + 1) (i := i) (by simpa using h)
      simpa [memWriteList, Nat.add_assoc, Nat.add_comm 1 i] using this

/-! ## The canonical form -/

theorem mem_memWrite {m : Cells α} {a : Nat} {v : α} {x : Nat × α} (h : x ∈ memWrite m a v) : x = (a, v) ∨ x ∈ m := by
  induction m with
  | nil => simpa [memWrite] using h
  | cons y m ih =>
    obtain ⟨k, w⟩ := y
    simp only [memWrite] at h
    split at h
    · simpa using h
    · split at h
      · simp only [List.mem_cons] at h ⊢; tauto
      · simp only [List.mem_cons] at h ⊢; tauto

/-- A write keeps the addresses strictly rising. -/
theorem memWrite_wf {m : Cells α} (h : Memory.wf m) (a : Nat) (v : α) : Memory.wf (memWrite m a v) := by
  induction m with
  | nil => simp [memWrite]
  | cons y m ih =>
    obtain ⟨k, w⟩ := y
    obtain ⟨hk, hm⟩ := List.pairwise_cons.1 h
    simp only [memWrite]
    split
    · refine List.pairwise_cons.2 ⟨fun x hx => ?_, h⟩
      rcases List.mem_cons.1 hx with rfl | hx
      · assumption
      · exact Nat.lt_trans ‹_› (hk x hx)
    · split
      · subst a; exact List.pairwise_cons.2 ⟨hk, hm⟩
      · refine List.pairwise_cons.2 ⟨fun x hx => ?_, ih hm⟩
        rcases mem_memWrite hx with rfl | hx
        · show k < a; omega
        · exact hk x hx

/-- A write below a bound keeps every address below it. -/
theorem memWrite_below {m : Cells α} {n : Nat} (h : Memory.below m n) {a : Nat} (ha : a < n) (v : α) :
    Memory.below (memWrite m a v) n := by
  intro x hx
  rcases mem_memWrite hx with rfl | hx
  · exact ha
  · exact h x hx

/-- Where an address reads a value, some entry holds it. -/
theorem mem_of_memRead {α : Type} {m : Cells α} {a : Nat} {v : α} (h : memRead m a = some v) : (a, v) ∈ m := by
  induction m with
  | nil => simp [memRead] at h
  | cons x m ih =>
    simp only [memRead] at h
    split at h
    · rename_i hk
      obtain ⟨k, y⟩ := x
      simp_all
    · exact List.mem_cons_of_mem _ (ih h)

/-- Writing the value an address already has changes nothing. -/
theorem memWrite_same {α : Type} {m : Cells α} {a : Nat} {v : α} (hw : Memory.wf m) (h : memRead m a = some v) :
    memWrite m a v = m := by
  induction m with
  | nil => simp [memRead] at h
  | cons x m ih =>
    obtain ⟨k, y⟩ := x
    obtain ⟨hlt, hw⟩ := List.pairwise_cons.1 hw
    simp only [memRead] at h
    simp only [memWrite]
    split at h
    · simp_all
    · have := hlt _ (mem_of_memRead h)
      simp only at this
      rw [if_neg (by omega), if_neg (by omega), ih hw h]

/-- Writing values that already stand there changes nothing. -/
theorem memWriteList_same {α : Type} (vs : List α) {m : Cells α} {a : Nat} (hw : Memory.wf m)
    (h : ∀ i < vs.length, memRead m (a + i) = vs[i]?) : memWriteList m a vs = m := by
  induction vs generalizing a with
  | nil => rfl
  | cons v vs ih =>
    rw [memWriteList, memWrite_same hw (by simpa using h 0 (by simp))]
    exact ih fun i hi => by simpa [Nat.add_assoc, Nat.add_comm 1] using h (i + 1) (by simpa using hi)

theorem memWriteList_wf {m : Cells α} (h : Memory.wf m) (a : Nat) (vs : List α) : Memory.wf (memWriteList m a vs) := by
  induction vs generalizing m a with
  | nil => exact h
  | cons v vs ih => exact ih (memWrite_wf h a v) (a + 1)

theorem memWriteList_below {m : Cells α} {n : Nat} (h : Memory.below m n) {a : Nat} (vs : List α) (ha : a + vs.length ≤ n) :
    Memory.below (memWriteList m a vs) n := by
  induction vs generalizing m a with
  | nil => exact h
  | cons v vs ih =>
    simp only [List.length_cons] at ha
    exact ih (memWrite_below h (by omega) v) (by omega)

theorem reset_memory_wf : Memory.wf State.reset.fb ∧ Memory.wf State.reset.prog := by decide

/-! ## Reads of FB -/

@[simp] theorem except_ok_bind {ε β γ : Type} (x : β) (f : β → Except ε γ) : (Except.ok x >>= f) = f x := rfl

@[simp] theorem except_error_bind {ε β γ : Type} (e : ε) (f : β → Except ε γ) :
    ((Except.error e : Except ε β) >>= f) = .error e := rfl

/-- The inversion of two reads in sequence. -/
theorem except_bind_eq_ok {ε β γ : Type} {x : Except ε β} {f : β → Except ε γ} {c : γ} (h : (x >>= f) = .ok c) :
    ∃ b, x = .ok b ∧ f b = .ok c := by
  cases x with
  | ok b => exact ⟨b, rfl, h⟩
  | error e => simp at h

theorem fbByte_eq_ok {fb : List Host.Cell} {j : Nat} {b : Byte} : fbByte fb j = .ok b ↔ memRead fb j = some b := by
  unfold fbByte; split <;> simp_all

/-- Reading a span gives its bytes in order. -/
theorem fbSpan_eq_ok {fb : List Host.Cell} {n a : Nat} {bs : List Byte} :
    fbSpan fb a n = .ok bs ↔ bs.length = n ∧ ∀ j < n, memRead fb (a + j) = bs[j]? := by
  induction n generalizing a bs with
  | zero => cases bs <;> simp [fbSpan]
  | succ n ih =>
    constructor
    · intro h
      obtain ⟨b, hb, h⟩ := except_bind_eq_ok h
      obtain ⟨cs, hcs, h⟩ := except_bind_eq_ok h
      obtain ⟨hl, hr⟩ := ih.1 hcs
      cases h
      refine ⟨by simp [hl], fun j hj => ?_⟩
      cases j with
      | zero => simpa using fbByte_eq_ok.1 hb
      | succ j => simpa [Nat.add_assoc, Nat.add_comm 1 j] using hr j (by omega)
    · rintro ⟨hl, hr⟩
      cases bs with
      | nil => simp at hl
      | cons b cs =>
        have hb : fbByte fb a = .ok b := fbByte_eq_ok.2 (by simpa using hr 0 (by omega))
        have hcs : fbSpan fb (a + 1) n = .ok cs :=
          ih.2 ⟨by simpa using hl, fun j hj => by
            simpa [Nat.add_assoc, Nat.add_comm 1 j] using hr (j + 1) (by omega)⟩
        simp [fbSpan, hb, hcs]

/-- A byte that cannot be read is unwritten. -/
theorem fbByte_eq_error {fb : List Host.Cell} {j : Nat} {p : Place} (h : fbByte fb j = .error p) :
    p = .fb j ∧ memRead fb j = none := by
  unfold fbByte at h
  split at h <;> simp_all

/-- A span that cannot be read has an unwritten byte, which the error names. -/
theorem fbSpan_eq_error {fb : List Host.Cell} {n a : Nat} {p : Place} (h : fbSpan fb a n = .error p) :
    ∃ j, p = .fb j ∧ memRead fb j = none := by
  induction n generalizing a with
  | zero => simp [fbSpan] at h
  | succ n ih =>
    simp only [fbSpan] at h
    cases hb : fbByte fb a with
    | error q =>
      rw [hb, except_error_bind] at h
      cases h
      exact ⟨_, fbByte_eq_error hb⟩
    | ok b =>
      cases hs : fbSpan fb (a + 1) n with
      | error q =>
        rw [hb, except_ok_bind, hs, except_error_bind] at h
        cases h
        exact ih hs
      | ok bs => simp [hb, hs] at h

/-- A span with every byte written can be read. -/
theorem fbSpan_written {fb : List Host.Cell} {n a : Nat} (h : ∀ j < n, (memRead fb (a + j)).isSome) :
    ∃ bs, fbSpan fb a n = .ok bs := by
  induction n generalizing a with
  | zero => exact ⟨[], rfl⟩
  | succ n ih =>
    obtain ⟨b, hb⟩ := Option.isSome_iff_exists.1 (h 0 (by omega))
    obtain ⟨bs, hbs⟩ := ih (a := a + 1) fun j hj => by
      simpa [Nat.add_assoc, Nat.add_comm 1 j] using h (j + 1) (by omega)
    exact ⟨b :: bs, by simp [fbSpan, hbs, fbByte_eq_ok.2 (by simpa using hb)]⟩

theorem fbByte_congr {fb fc : List Host.Cell} {j : Nat} (h : memRead fb j = memRead fc j) : fbByte fb j = fbByte fc j := by
  simp [fbByte, h]

/-- A span depends only on its own bytes. -/
theorem fbSpan_congr {fb fc : List Host.Cell} {n a : Nat} (h : ∀ j < n, memRead fb (a + j) = memRead fc (a + j)) :
    fbSpan fb a n = fbSpan fc a n := by
  induction n generalizing a with
  | zero => rfl
  | succ n ih =>
    have h0 : fbByte fb a = fbByte fc a := fbByte_congr (by simpa using h 0 (by omega))
    have h1 : fbSpan fb (a + 1) n = fbSpan fc (a + 1) n :=
      ih fun j hj => by simpa [Nat.add_assoc, Nat.add_comm 1 j] using h (j + 1) (by omega)
    simp [fbSpan, h0, h1]

theorem fbBe16_congr {fb fc : List Host.Cell} {i : Nat} (h : ∀ j < 2, memRead fb (i + j) = memRead fc (i + j)) :
    fbBe16 fb i = fbBe16 fc i := by
  simp only [fbBe16, fbByte_congr (show memRead fb i = memRead fc i by simpa using h 0 (by omega)),
    fbByte_congr (h 1 (by omega))]

theorem fbBe32_congr {fb fc : List Host.Cell} {i : Nat} (h : ∀ j < 4, memRead fb (i + j) = memRead fc (i + j)) :
    fbBe32 fb i = fbBe32 fc i := by
  have h0 : fbBe16 fb i = fbBe16 fc i := fbBe16_congr fun j hj => h j (by omega)
  have h2 : fbBe16 fb (i + 2) = fbBe16 fc (i + 2) := fbBe16_congr fun j hj => by
    simpa [Nat.add_assoc] using h (2 + j) (by omega)
  simp only [fbBe32, h0, h2]

theorem fbIp6_congr {fb fc : List Host.Cell} {i : Nat} (h : ∀ j < 16, memRead fb (i + j) = memRead fc (i + j)) :
    fbIp6 fb i = fbIp6 fc i := by
  have hw : ∀ k ≤ 12, fbBe32 fb (i + k) = fbBe32 fc (i + k) := fun k hk => fbBe32_congr fun j hj => by
    simpa [Nat.add_assoc] using h (k + j) (by omega)
  have h0 : fbBe32 fb i = fbBe32 fc i := by simpa using hw 0 (by omega)
  simp only [fbIp6, h0, hw 4 (by omega), hw 8 (by omega), hw 12 (by omega)]

end Sys2Proof.Machine
end

