-- ==== Sys2Proof/Laws/State.lean ====
section
/-!
SUPPORT. What each whole-state update does to each field, one lemma per field and update.
-/
namespace Sys2Proof.Machine

/-! ## `complete` -/

@[simp] theorem complete_cfg (c : ErrCode) (s : State) : (complete c s).cfg = s.cfg := rfl
@[simp] theorem complete_pending (c : ErrCode) (s : State) : (complete c s).pending = none := rfl
@[simp] theorem complete_done (c : ErrCode) (s : State) : (complete c s).done = true := rfl
@[simp] theorem complete_err (c : ErrCode) (s : State) : (complete c s).err = decide (c ≠ .ok) := rfl
@[simp] theorem complete_ovr (c : ErrCode) (s : State) : (complete c s).ovr = s.ovr := rfl
@[simp] theorem complete_errcode (c : ErrCode) (s : State) : (complete c s).errcode = c := rfl
@[simp] theorem complete_lastop (c : ErrCode) (s : State) : (complete c s).lastop = s.lastop := rfl
@[simp] theorem complete_irqEn (c : ErrCode) (s : State) : (complete c s).irqEn = s.irqEn := rfl
@[simp] theorem complete_frameLen (c : ErrCode) (s : State) : (complete c s).frameLen = s.frameLen := rfl
@[simp] theorem complete_opa (c : ErrCode) (s : State) : (complete c s).opa = s.opa := rfl
@[simp] theorem complete_opb (c : ErrCode) (s : State) : (complete c s).opb = s.opb := rfl
@[simp] theorem complete_oplen (c : ErrCode) (s : State) : (complete c s).oplen = s.oplen := rfl
@[simp] theorem complete_acc (c : ErrCode) (s : State) : (complete c s).acc = s.acc := rfl
@[simp] theorem complete_csumResult (c : ErrCode) (s : State) : (complete c s).csumResult = s.csumResult := rfl
@[simp] theorem complete_fmt (c : ErrCode) (s : State) : (complete c s).fmt = s.fmt := rfl
@[simp] theorem complete_progLen (c : ErrCode) (s : State) : (complete c s).progLen = s.progLen := rfl
@[simp] theorem complete_fresult (c : ErrCode) (s : State) : (complete c s).fresult = s.fresult := rfl
@[simp] theorem complete_finfo (c : ErrCode) (s : State) : (complete c s).finfo = s.finfo := rfl
@[simp] theorem complete_fa (c : ErrCode) (s : State) : (complete c s).fa = s.fa := rfl
@[simp] theorem complete_parse (c : ErrCode) (s : State) : (complete c s).parse = s.parse := rfl
@[simp] theorem complete_prog (c : ErrCode) (s : State) : (complete c s).prog = s.prog := rfl
@[simp] theorem complete_fb (c : ErrCode) (s : State) : (complete c s).fb = s.fb := rfl
@[simp] theorem complete_run (c : ErrCode) (s : State) : (complete c s).run = s.run := rfl
@[simp] theorem complete_turns (c : ErrCode) (s : State) : (complete c s).turns = s.turns := rfl
@[simp] theorem complete_readData (c : ErrCode) (s : State) : (complete c s).readData = s.readData := rfl
@[simp] theorem complete_faults (c : ErrCode) (s : State) : (complete c s).faults = s.faults := rfl
@[simp] theorem complete_draws (c : ErrCode) (s : State) : (complete c s).draws = s.draws := rfl

/-! ## `accept` -/

@[simp] theorem accept_cfg (p : Pending) (s : State) : (accept p s).cfg = s.cfg := rfl
@[simp] theorem accept_pending (p : Pending) (s : State) : (accept p s).pending = some p := rfl
@[simp] theorem accept_done (p : Pending) (s : State) : (accept p s).done = false := rfl
@[simp] theorem accept_err (p : Pending) (s : State) : (accept p s).err = false := rfl
@[simp] theorem accept_ovr (p : Pending) (s : State) : (accept p s).ovr = s.ovr := rfl
@[simp] theorem accept_errcode (p : Pending) (s : State) : (accept p s).errcode = .ok := rfl
@[simp] theorem accept_lastop (p : Pending) (s : State) : (accept p s).lastop = p.op := rfl
@[simp] theorem accept_irqEn (p : Pending) (s : State) : (accept p s).irqEn = s.irqEn := rfl
@[simp] theorem accept_frameLen (p : Pending) (s : State) : (accept p s).frameLen = s.frameLen := rfl
@[simp] theorem accept_opa (p : Pending) (s : State) : (accept p s).opa = s.opa := rfl
@[simp] theorem accept_opb (p : Pending) (s : State) : (accept p s).opb = s.opb := rfl
@[simp] theorem accept_oplen (p : Pending) (s : State) : (accept p s).oplen = s.oplen := rfl
@[simp] theorem accept_acc (p : Pending) (s : State) : (accept p s).acc = s.acc := rfl
@[simp] theorem accept_csumResult (p : Pending) (s : State) : (accept p s).csumResult = s.csumResult := rfl
@[simp] theorem accept_fmt (p : Pending) (s : State) : (accept p s).fmt = s.fmt := rfl
@[simp] theorem accept_progLen (p : Pending) (s : State) : (accept p s).progLen = s.progLen := rfl
@[simp] theorem accept_fresult (p : Pending) (s : State) : (accept p s).fresult = s.fresult := rfl
@[simp] theorem accept_finfo (p : Pending) (s : State) : (accept p s).finfo = s.finfo := rfl
@[simp] theorem accept_fa (p : Pending) (s : State) : (accept p s).fa = s.fa := rfl
@[simp] theorem accept_parse (p : Pending) (s : State) : (accept p s).parse = s.parse := rfl
@[simp] theorem accept_prog (p : Pending) (s : State) : (accept p s).prog = s.prog := rfl
@[simp] theorem accept_fb (p : Pending) (s : State) : (accept p s).fb = s.fb := rfl
@[simp] theorem accept_run (p : Pending) (s : State) : (accept p s).run = s.run := rfl
@[simp] theorem accept_turns (p : Pending) (s : State) : (accept p s).turns = s.turns := rfl
@[simp] theorem accept_readData (p : Pending) (s : State) : (accept p s).readData = s.readData := rfl
@[simp] theorem accept_faults (p : Pending) (s : State) : (accept p s).faults = s.faults := rfl
@[simp] theorem accept_draws (p : Pending) (s : State) : (accept p s).draws = s.draws := rfl

/-! ## `writeStatus` -/

@[simp] theorem writeStatus_cfg (v : Word) (s : State) : (writeStatus v s).cfg = s.cfg := rfl
@[simp] theorem writeStatus_pending (v : Word) (s : State) : (writeStatus v s).pending = s.pending := rfl
@[simp] theorem writeStatus_done (v : Word) (s : State) : (writeStatus v s).done = (s.done && !v.getLsbD 1) := rfl
@[simp] theorem writeStatus_err (v : Word) (s : State) : (writeStatus v s).err = (s.err && !v.getLsbD 2) := rfl
@[simp] theorem writeStatus_ovr (v : Word) (s : State) : (writeStatus v s).ovr = (s.ovr && !v.getLsbD 3) := rfl
@[simp] theorem writeStatus_errcode (v : Word) (s : State) : (writeStatus v s).errcode = (if v.getLsbD 2 then .ok else s.errcode) := rfl
@[simp] theorem writeStatus_lastop (v : Word) (s : State) : (writeStatus v s).lastop = s.lastop := rfl
@[simp] theorem writeStatus_irqEn (v : Word) (s : State) : (writeStatus v s).irqEn = s.irqEn := rfl
@[simp] theorem writeStatus_frameLen (v : Word) (s : State) : (writeStatus v s).frameLen = s.frameLen := rfl
@[simp] theorem writeStatus_opa (v : Word) (s : State) : (writeStatus v s).opa = s.opa := rfl
@[simp] theorem writeStatus_opb (v : Word) (s : State) : (writeStatus v s).opb = s.opb := rfl
@[simp] theorem writeStatus_oplen (v : Word) (s : State) : (writeStatus v s).oplen = s.oplen := rfl
@[simp] theorem writeStatus_acc (v : Word) (s : State) : (writeStatus v s).acc = s.acc := rfl
@[simp] theorem writeStatus_csumResult (v : Word) (s : State) : (writeStatus v s).csumResult = s.csumResult := rfl
@[simp] theorem writeStatus_fmt (v : Word) (s : State) : (writeStatus v s).fmt = s.fmt := rfl
@[simp] theorem writeStatus_progLen (v : Word) (s : State) : (writeStatus v s).progLen = s.progLen := rfl
@[simp] theorem writeStatus_fresult (v : Word) (s : State) : (writeStatus v s).fresult = s.fresult := rfl
@[simp] theorem writeStatus_finfo (v : Word) (s : State) : (writeStatus v s).finfo = s.finfo := rfl
@[simp] theorem writeStatus_fa (v : Word) (s : State) : (writeStatus v s).fa = s.fa := rfl
@[simp] theorem writeStatus_parse (v : Word) (s : State) : (writeStatus v s).parse = s.parse := rfl
@[simp] theorem writeStatus_prog (v : Word) (s : State) : (writeStatus v s).prog = s.prog := rfl
@[simp] theorem writeStatus_fb (v : Word) (s : State) : (writeStatus v s).fb = s.fb := rfl
@[simp] theorem writeStatus_run (v : Word) (s : State) : (writeStatus v s).run = s.run := rfl
@[simp] theorem writeStatus_turns (v : Word) (s : State) : (writeStatus v s).turns = s.turns := rfl
@[simp] theorem writeStatus_readData (v : Word) (s : State) : (writeStatus v s).readData = s.readData := rfl
@[simp] theorem writeStatus_faults (v : Word) (s : State) : (writeStatus v s).faults = s.faults := rfl
@[simp] theorem writeStatus_draws (v : Word) (s : State) : (writeStatus v s).draws = s.draws := rfl

/-! ## `applyReset` -/

@[simp] theorem applyReset_cfg (s : State) : (applyReset s).cfg = s.cfg := rfl
@[simp] theorem applyReset_pending (s : State) : (applyReset s).pending = none := rfl
@[simp] theorem applyReset_done (s : State) : (applyReset s).done = false := rfl
@[simp] theorem applyReset_err (s : State) : (applyReset s).err = false := rfl
@[simp] theorem applyReset_ovr (s : State) : (applyReset s).ovr = false := rfl
@[simp] theorem applyReset_errcode (s : State) : (applyReset s).errcode = .ok := rfl
@[simp] theorem applyReset_lastop (s : State) : (applyReset s).lastop = 0 := rfl
@[simp] theorem applyReset_irqEn (s : State) : (applyReset s).irqEn = false := rfl
@[simp] theorem applyReset_frameLen (s : State) : (applyReset s).frameLen = 0 := rfl
@[simp] theorem applyReset_opa (s : State) : (applyReset s).opa = 0 := rfl
@[simp] theorem applyReset_opb (s : State) : (applyReset s).opb = 0 := rfl
@[simp] theorem applyReset_oplen (s : State) : (applyReset s).oplen = 0 := rfl
@[simp] theorem applyReset_acc (s : State) : (applyReset s).acc = 0 := rfl
@[simp] theorem applyReset_csumResult (s : State) : (applyReset s).csumResult = 0 := rfl
@[simp] theorem applyReset_fmt (s : State) : (applyReset s).fmt = false := rfl
@[simp] theorem applyReset_progLen (s : State) : (applyReset s).progLen = 0 := rfl
@[simp] theorem applyReset_fresult (s : State) : (applyReset s).fresult = 0 := rfl
@[simp] theorem applyReset_finfo (s : State) : (applyReset s).finfo = .zero := rfl
@[simp] theorem applyReset_fa (s : State) : (applyReset s).fa = 0 := rfl
@[simp] theorem applyReset_parse (s : State) : (applyReset s).parse = .cleared := rfl
@[simp] theorem applyReset_prog (s : State) : (applyReset s).prog = [] := rfl
@[simp] theorem applyReset_fb (s : State) : (applyReset s).fb = [] := rfl
@[simp] theorem applyReset_run (s : State) : (applyReset s).run = none := rfl
@[simp] theorem applyReset_turns (s : State) : (applyReset s).turns = s.turns := rfl
@[simp] theorem applyReset_readData (s : State) : (applyReset s).readData = s.readData := rfl
@[simp] theorem applyReset_faults (s : State) : (applyReset s).faults = s.faults := rfl
@[simp] theorem applyReset_draws (s : State) : (applyReset s).draws = s.draws := rfl

/-! ## `writeCmd` -/

theorem writeCmd_idle {s : State} (h : s.pending = none) (p : Pending) : writeCmd p s = accept p s := by
  simp [writeCmd, h]

theorem writeCmd_busy {s : State} {c : Pending} (h : s.pending = some c) (p : Pending) :
    writeCmd p s = { s with ovr := true } := by
  simp [writeCmd, h]

/-! ## Range checks -/

theorem pastFb_of_lt {s : State} {a n : Nat} (h : s.cfg.fbSize < a + n) : pastFb s a n = true := decide_eq_true h

theorem pastFb_of_le {s : State} {a n : Nat} (h : a + n ≤ s.cfg.fbSize) : pastFb s a n = false :=
  decide_eq_false (Nat.not_lt.2 h)

theorem pastFrame_of_lt {s : State} {k : Word} {n : Nat} (h : s.frameLen.toNat < k.toNat + n) : pastFrame s k n = true :=
  decide_eq_true h

theorem pastFrame_of_le {s : State} {k : Word} {n : Nat} (h : k.toNat + n ≤ s.frameLen.toNat) : pastFrame s k n = false :=
  decide_eq_false (Nat.not_lt.2 h)

/-! ## Outcomes -/

/-- An outcome that goes on names one next state. -/
theorem raiseErr_eq_next {c : ErrCode} {s t : State} (h : raiseErr c s = .next t) : t = complete c s := by
  simpa [raiseErr, eq_comm] using h

theorem finishOk_eq_next {s t : State} (h : finishOk s = .next t) : t = complete .ok s := by
  simpa [finishOk, eq_comm] using h

/-- The inversion of a read that may meet an unwritten place. -/
theorem orUninit_eq_next {α : Type} {s t : State} {x : Except Place α} {go : α → Result}
    (h : orUninit s x go = .next t) : ∃ v, x = .ok v ∧ go v = .next t := by
  cases x with
  | ok v => exact ⟨v, rfl, h⟩
  | error p => simp [orUninit] at h

@[simp] theorem orUninit_ok {α : Type} (s : State) (v : α) (go : α → Result) : orUninit s (.ok v) go = go v := rfl

@[simp] theorem orUninit_error {α : Type} (s : State) (p : Place) (go : α → Result) :
    orUninit s (.error p) go = .fault (.uninitRead s.lastop p) := rfl

end Sys2Proof.Machine
end

