-- ==== Sys2Proof/Laws/Bus.lean ====
section
/-!
SUPPORT. What a host access can do, said once: which places the window has, what a write to each changes, and that a read
changes nothing of the block.
-/
namespace Sys2Proof.Machine

/-- The offset of an address given relative to BASE. -/
theorem offsetOf_base {p : Params} {off : Nat} (h : off < 0x20000) : offsetOf p (p.base + off) = some off := by
  have : p.base ≤ p.base + off ∧ p.base + off < p.base + Config.windowSize := ⟨by omega, by simp only [Config.windowSize]; omega⟩
  simp [offsetOf, this]

/-- In the FB window a place is a byte below FB_SIZE or reserved. -/
theorem placeAt_fb {p : Params} {off : Nat} (h : 0x10000 ≤ off) :
    placeAt p off = if off - 0x10000 < p.fbSize then .fb (off - 0x10000) else .reserved := by
  simp [placeAt, show ¬ off < 0x100 by omega, show ¬ off < 0x900 by omega, show ¬ off < 0x10000 by omega]

/-- Below the FB window no place is a byte of FB, and a program word belongs to an entry below PROG_CAP. -/
theorem placeAt_low {p : Params} {off : Nat} (h : off < 0x10000) :
    (∃ r, placeAt p off = .reg r) ∨ (∃ i, i < p.progCap ∧ (placeAt p off = .progCode i ∨ placeAt p off = .progK i)) ∨
      placeAt p off = .reserved := by
  unfold placeAt
  split
  · split <;> simp
  · split
    · split
      · rename_i hi
        split <;> exact .inr (.inl ⟨_, hi, by simp⟩)
      · simp
    · simp

/-- A write of lanes to the FB window changes FB alone. -/
theorem writeLanes_frame {v : Word} {off i n : Nat} {s : State} (h : 0x10000 ≤ off) :
    ∃ fb, writeLanes v off i n s = { s with fb := fb } ∧ (Memory.wf s.fb → Memory.wf fb) ∧
      (Memory.below s.fb s.cfg.fbSize → Memory.below fb s.cfg.fbSize) := by
  induction n generalizing i s with
  | zero => exact ⟨s.fb, rfl, id, id⟩
  | succ n ih =>
    simp only [writeLanes, placeAt_fb (show 0x10000 ≤ off + i by omega)]
    split
    · rename_i hlt
      obtain ⟨fb, h1, h2, h3⟩ :=
        ih (i := i + 1) (s := writePlace ((lane v i).setWidth 32) s (.fb (off + i - 0x10000)))
      exact ⟨fb, h1, fun hw => h2 (memWrite_wf hw _ _), fun hb => h3 (memWrite_below hb hlt _)⟩
    · exact ih (i := i + 1) (s := s)

/-- A host read that goes on changes only the data lines, the count of free values and the recorded faults, and removes no
fault. -/
theorem hostRead_frame {w : Width} {addr : Nat} {s t : State} (h : hostAccess (.read w addr) s = .next t) :
    ∃ d n f, t = { s with readData := d, draws := n, faults := s.faults ++ f } := by
  simp only [hostAccess] at h
  split at h
  · exact ⟨s.readData, s.draws, [], by cases h; simp⟩
  · split at h
    · exact ⟨_, s.draws, _, (Host.Outcome.next.inj h).symm⟩
    · obtain ⟨v, -, h⟩ := orUninit_eq_next h
      refine ⟨some v.1, if v.2 then s.draws + 1 else s.draws, [], ?_⟩
      rw [List.append_nil]
      exact (Host.Outcome.next.inj h).symm

/-- Everything a host write can do when it goes on: nothing (outside the window), a recorded bus error, the write of one place
below the FB window, or the write of lanes of FB; and while BUSY the place or the lanes hold no operand. -/
theorem hostWrite_cases {w : Width} {addr : Nat} {v : Word} {s t : State} (h : hostAccess (.write w addr v) s = .next t) :
    t = s ∨ (∃ off, t = { s with faults := s.faults ++ [.hostBusError w off] }) ∨
    (∃ off, off < 0x10000 ∧ (s.pending.isSome → isOperand (placeAt s.cfg off) = false) ∧ t = writePlace v s (placeAt s.cfg off)) ∨
    (∃ fb, (Memory.wf s.fb → Memory.wf fb) ∧ (Memory.below s.fb s.cfg.fbSize → Memory.below fb s.cfg.fbSize) ∧
      t = { s with fb := fb }) := by
  simp only [hostAccess] at h
  split at h
  · exact .inl (Host.Outcome.next.inj h).symm
  · rename_i off _
    split at h
    · exact .inr (.inl ⟨off, (Host.Outcome.next.inj h).symm⟩)
    · unfold hostWrite at h
      split at h
      · simp at h
      · rename_i hz
        split at h
        · rename_i hlow
          refine .inr (.inr (.inl ⟨off, hlow, fun hp => ?_, (Host.Outcome.next.inj h).symm⟩))
          obtain ⟨c, hc⟩ := Option.isSome_iff_exists.1 hp
          cases ho : operandAt s.cfg off (accessLanes w off) with
          | some p => exact absurd ho (hz c p hc)
          | none =>
            simpa [operandAt, accessLanes, hlow, List.range_succ] using ho
        · rename_i hhigh
          obtain ⟨fb, h1, h2, h3⟩ := writeLanes_frame (v := v) (i := 0) (n := w.bytes) (s := s) (Nat.not_lt.1 hhigh)
          exact .inr (.inr (.inr ⟨fb, h2, h3, by rw [← h1]; exact (Host.Outcome.next.inj h).symm⟩))

end Sys2Proof.Machine
end

