-- ==== Sys2Proof/Laws/Filter.lean ====
section
/-!
SUPPORT. What an entry of the filter program, a fetch and a whole run can do, said once each.
-/
namespace Sys2Proof.Machine

/-- The two ways a run is carried out agree: by the form of the entry (inside FILTER_RUN) and by the decoded instruction (in a
step). -/
theorem execEntry_eq_exec (c k : Word) (s : State) : execEntry c k s = exec (decodeEntry c k) s := by
  unfold execEntry decodeEntry
  cases bpfForm (entryCode c) <;> rfl

/-- GEN is 18 words. -/
@[simp] theorem genWords_length : genWords.length = 18 := rfl

/-- The run goes on: only the run state changed, pc moved forward by at most 256, no entry was counted. -/
def RunGoesOn (r : BpfRun) (s t : State) : Prop :=
  ∃ a pc, r.pc < pc ∧ pc ≤ r.pc + 256 ∧ t = { s with run := some { a := a, pc := pc, steps := r.steps } }

/-- The run ended: FRESULT, FINFO and FA are written from the run state and FILTER_RUN completed. -/
def RunEnds (r : BpfRun) (s t : State) : Prop :=
  ∃ code v oob, (code = .ok ∨ (code = .bpfIllegal ∨ code = .bpfPc) ∧ v = 0 ∧ oob = false) ∧
    t = complete code { s with fresult := v, finfo := runInfo r (decide (v ≠ 0)) oob, fa := r.a, run := none }

theorem runFinish_ends {v : Word} {oob : Bool} {r : BpfRun} {s t : State} (h : runFinish v oob r s = .next t) :
    RunEnds r s t :=
  ⟨.ok, v, oob, .inl rfl, finishOk_eq_next h⟩

theorem runFail_ends {code : ErrCode} {r : BpfRun} {s t : State} (hc : code = .bpfIllegal ∨ code = .bpfPc)
    (h : runFail code r s = .next t) : RunEnds r s t :=
  ⟨code, 0, false, .inr ⟨hc, rfl, rfl⟩, by simpa using raiseErr_eq_next h⟩

/-- Everything an entry can do inside a run when it goes on. -/
theorem execEntry_cases {c k : Word} {s t : State} {r : BpfRun} (hr : s.run = some r) (h : execEntry c k s = .next t) :
    RunGoesOn r s t ∨ RunEnds r s t := by
  unfold execEntry at h
  split at h
  · simp only [execLdh, withRun, hr] at h
    split at h
    · exact .inr (runFinish_ends h)
    · obtain ⟨v, -, h⟩ := orUninit_eq_next h
      exact .inl ⟨v.setWidth 32, r.pc + 1, by omega, by omega, by simpa [eq_comm] using h⟩
  · simp only [execLdb, withRun, hr] at h
    split at h
    · exact .inr (runFinish_ends h)
    · obtain ⟨v, -, h⟩ := orUninit_eq_next h
      exact .inl ⟨v.setWidth 32, r.pc + 1, by omega, by omega, by simpa [eq_comm] using h⟩
  · simp only [execJeq, withRun, hr] at h
    have h1 := (entryJt c).isLt
    have h2 := (entryJf c).isLt
    refine .inl ⟨_, _, ?_, ?_, by simpa [eq_comm] using h⟩ <;> split <;> omega
  · simp only [execRet, withRun, hr] at h
    exact .inr (runFinish_ends h)
  · simp only [execIllegalBpf, withRun, hr] at h
    exact .inr (runFail_ends (.inl rfl) h)

/-- Everything a fetch can do when it goes on: fail at the end of the program, or carry out a counted entry. -/
theorem fetchEntry_cases {s t : State} {r : BpfRun} {go : Word → Word → State → Result} (h : fetchEntry s r go = .next t) :
    (s.progLen.toNat ≤ r.pc ∧ RunEnds r s t) ∨
    (r.pc < s.progLen.toNat ∧ ∃ c k, progEntry s.prog r.pc = .ok (c, k) ∧
      go c k { s with run := some { r with steps := r.steps + 1 } } = .next t) := by
  unfold fetchEntry progLenVal at h
  split at h
  · exact .inl ⟨‹_›, runFail_ends (.inr rfl) h⟩
  · obtain ⟨⟨c, k⟩, he, h⟩ := orUninit_eq_next h
    exact .inr ⟨by omega, c, k, he, h⟩

/-- Everything a run can do when it goes on: with fuel for every entry still ahead it ends, from a run state whose step count
is at most PROG_LEN and whose pc is at most PROG_LEN + 255 or where it started. -/
theorem runLoop_ends {fuel : Nat} {s t : State} {r : BpfRun} (hr : s.run = some r) (h0 : 0 < fuel)
    (hf : s.progLen.toNat < fuel + r.pc) (hs : r.steps ≤ r.pc) (hn : r.steps ≤ s.progLen.toNat)
    (hp : r.pc ≤ s.progLen.toNat + 255) (h : runLoop fuel s = .next t) :
    ∃ q : BpfRun, q.steps ≤ s.progLen.toNat ∧ q.pc ≤ s.progLen.toNat + 255 ∧ RunEnds q s t := by
  induction fuel generalizing s r with
  | zero => omega
  | succ fuel ih =>
    simp only [runLoop, hr] at h
    cases hu : fetchEntry s r execEntry with
    | fault f => simp [hu] at h
    | refused q => simp [hu] at h
    | next u =>
      simp only [hu] at h
      have ended : ∀ {q : BpfRun}, RunEnds q s u → u = t := by
        rintro q ⟨code, v, oob, -, rfl⟩
        cases fuel <;> simpa [runLoop] using h
      rcases fetchEntry_cases hu with ⟨-, he⟩ | ⟨hlt, c, k, -, hgo⟩
      · exact ⟨r, hn, hp, ended he ▸ he⟩
      · rcases execEntry_cases rfl hgo with ⟨a, pc, h1, h2, rfl⟩ | he
        · simp only at h1 h2
          obtain ⟨q, hq1, hq2, code, v, oob, hc, rfl⟩ :=
            ih (r := { a := a, pc := pc, steps := r.steps + 1 }) rfl (by omega) (by simp only; omega) (by simp only; omega)
              (by simp only; omega) (by simp only; omega) h
          exact ⟨q, hq1, hq2, code, v, oob, hc, rfl⟩
        · have he' : RunEnds { r with steps := r.steps + 1 } s u := by
            obtain ⟨code, v, oob, hc, rfl⟩ := he
            exact ⟨code, v, oob, hc, rfl⟩
          exact ⟨_, by simp only; omega, by simp only; omega, ended he' ▸ he'⟩

/-- Everything FILTER_RUN can do when it goes on: end at a start check (R240), or run its program to an end. -/
theorem execFilterRun_cases {wb : Bool} {s t : State} (h : execFilterRun wb s = .next t) :
    (t = complete .progLen s ∧ (progLenVal s = 0 ∨ s.cfg.progCap < progLenVal s)) ∨ t = complete .range s ∨
    (0 < s.progLen.toNat ∧ s.progLen.toNat ≤ s.cfg.progCap ∧ s.frameLen.toNat ≤ s.cfg.fbSize ∧
      ∃ q : BpfRun, q.steps ≤ s.progLen.toNat ∧ q.pc ≤ s.progLen.toNat + 255 ∧ RunEnds q s t) := by
  unfold execFilterRun at h
  split at h
  · exact .inl ⟨raiseErr_eq_next h, ‹_›⟩
  · split at h
    · exact .inr (.inl (raiseErr_eq_next h))
    · rename_i h1 h2
      simp only [pastFb, frameLenVal, progLenVal, Nat.zero_add, decide_eq_true_eq, Nat.not_lt] at h1 h2
      obtain ⟨q, hq1, hq2, code, v, oob, hc, rfl⟩ := runLoop_ends (r := .start) rfl (by omega)
        (by simp [BpfRun.start, progLenVal]) (by simp [BpfRun.start]) (by simp [BpfRun.start]) (by simp [BpfRun.start]) h
      exact .inr (.inr ⟨by omega, by omega, h2, q, hq1, hq2, code, v, oob, hc, rfl⟩)

end Sys2Proof.Machine
end

