-- ==== Sys2Proof/Laws/Command.lean ====
section
/-!
SUPPORT. Everything each command can do when it goes on, said once each, and a summary over all of them.
-/
namespace Sys2Proof.Machine

/-- The state after a CSUM_ICMP6 whose sum is known (R150). -/
def icmp6Done (wb : Bool) (sum : Word) (s : State) : State :=
  { s with
    acc := sum, csumResult := csumOf sum
    fb := if wb then memWriteList s.fb (opbVal s + 2) [(csumOf sum).extractLsb' 8 8, (csumOf sum).extractLsb' 0 8] else s.fb }

theorem execCsumAdd_cases {wb : Bool} {s t : State} (h : execCsumAdd wb s = .next t) :
    (s.cfg.fbSize < s.opa.toNat + s.oplen.toNat ∧ t = complete .range s) ∨
    (s.opa.toNat + s.oplen.toNat ≤ s.cfg.fbSize ∧ ∃ bs, fbSpan s.fb s.opa.toNat s.oplen.toNat = .ok bs ∧
      t = complete .ok { s with acc := checksum s.acc bs }) := by
  unfold execCsumAdd at h
  split at h
  · rename_i hr
    exact .inl ⟨of_decide_eq_true hr, raiseErr_eq_next h⟩
  · rename_i hr
    obtain ⟨bs, hb, h⟩ := orUninit_eq_next h
    exact .inr ⟨Nat.not_lt.1 (of_decide_eq_false (Bool.not_eq_true _ ▸ hr)), bs, hb, finishOk_eq_next h⟩

theorem execCsumIcmp6_cases {wb : Bool} {s t : State} (h : execCsumIcmp6 wb s = .next t) :
    t = complete .range s ∨ t = complete .short s ∨
    (s.opa.toNat + 40 ≤ s.cfg.fbSize ∧ s.opb.toNat + s.oplen.toNat ≤ s.cfg.fbSize ∧ 4 ≤ s.oplen.toNat ∧
      ∃ sum, icmp6Sum s.fb s.opa.toNat s.opb.toNat s.oplen.toNat = .ok sum ∧ t = complete .ok (icmp6Done wb sum s)) := by
  unfold execCsumIcmp6 at h
  split at h
  · exact .inl (raiseErr_eq_next h)
  · rename_i h1
    split at h
    · exact .inl (raiseErr_eq_next h)
    · rename_i h2
      split at h
      · exact .inr (.inl (raiseErr_eq_next h))
      · rename_i h3
        obtain ⟨sum, hs, h⟩ := orUninit_eq_next h
        exact .inr (.inr ⟨Nat.not_lt.1 (of_decide_eq_false (Bool.not_eq_true _ ▸ h1)),
          Nat.not_lt.1 (of_decide_eq_false (Bool.not_eq_true _ ▸ h2)), Nat.not_lt.1 h3, sum, hs, finishOk_eq_next h⟩)

theorem execParse_cases {wb : Bool} {s t : State} (h : execParse wb s = .next t) :
    (s.cfg.fbSize < s.frameLen.toNat ∧ t = complete .range s) ∨
    (s.frameLen.toNat ≤ s.cfg.fbSize ∧ ∃ r, parseFrame s.fb s.frameLen.toNat = .ok r ∧
      t = complete .ok { s with parse := r }) := by
  unfold execParse at h
  split at h
  · rename_i hr
    exact .inl ⟨by simpa [pastFb, frameLenVal] using hr, raiseErr_eq_next h⟩
  · rename_i hr
    obtain ⟨r, hp, h⟩ := orUninit_eq_next h
    exact .inr ⟨by simpa [pastFb, frameLenVal] using hr, r, hp, finishOk_eq_next h⟩

/-- How a command ended. -/
inductive CommandEnds (s t : State) : Prop where
  /-- NOP (R160). -/
  | nop (h : t = complete .ok s)
  /-- A reserved command, or a check made before any result is computed (R281, R284). -/
  | startError (code : ErrCode) (hc : code = .illegalCmd ∨ code = .range ∨ code = .short ∨ code = .progLen)
      (h : t = complete code s)
  /-- CSUM_ADD over a span (R143). -/
  | csumAdd (bs : List Byte) (hb : fbSpan s.fb s.opa.toNat s.oplen.toNat = .ok bs)
      (h : t = complete .ok { s with acc := checksum s.acc bs })
  /-- CSUM_ICMP6 over a message (R150). -/
  | csumIcmp6 (wb : Bool) (sum : Word) (hr : s.opb.toNat + s.oplen.toNat ≤ s.cfg.fbSize) (hn : 4 ≤ s.oplen.toNat)
      (hs : icmp6Sum s.fb s.opa.toNat s.opb.toNat s.oplen.toNat = .ok sum) (h : t = complete .ok (icmp6Done wb sum s))
  /-- PARSE of a frame (R180). -/
  | parse (r : ParseResult) (hp : parseFrame s.fb s.frameLen.toNat = .ok r) (h : t = complete .ok { s with parse := r })
  /-- FILTER_GEN (R230). -/
  | filterGen (h : t = complete .ok { s with prog := memWriteList s.prog 0 genWords, progLen := 9#9 })
  /-- FILTER_RUN of a program (R240). -/
  | filterRun (q : BpfRun) (hn : s.progLen.toNat ≤ s.cfg.progCap) (h1 : q.steps ≤ s.progLen.toNat)
      (h2 : q.pc ≤ s.progLen.toNat + 255) (h : RunEnds q s t)

/-- Everything a command can do when it goes on. -/
theorem command_cases {op : BitVec 4} {wb : Bool} {s t : State} (h : exec (decodeOp op wb) s = .next t) : CommandEnds s t := by
  unfold decodeOp at h
  split at h
  · exact .nop (finishOk_eq_next h)
  · split at h
    · rcases execCsumAdd_cases (wb := wb) h with ⟨-, h⟩ | ⟨-, bs, hb, h⟩
      · exact .startError _ (.inr (.inl rfl)) h
      · exact .csumAdd bs hb h
    · split at h
      · rcases execCsumIcmp6_cases (wb := wb) h with h | h | ⟨-, hr, hn, sum, hs, h⟩
        · exact .startError _ (.inr (.inl rfl)) h
        · exact .startError _ (.inr (.inr (.inl rfl))) h
        · exact .csumIcmp6 wb sum hr hn hs h
      · split at h
        · rcases execParse_cases (wb := wb) h with ⟨-, h⟩ | ⟨-, r, hp, h⟩
          · exact .startError _ (.inr (.inl rfl)) h
          · exact .parse r hp h
        · split at h
          · exact .filterGen (finishOk_eq_next (s := { s with prog := memWriteList s.prog 0 genWords, progLen := 9#9 }) h)
          · split at h
            · rcases execFilterRun_cases (wb := wb) h with ⟨h, -⟩ | h | ⟨-, hn, -, q, h1, h2, h⟩
              · exact .startError _ (.inr (.inr (.inr rfl))) h
              · exact .startError _ (.inr (.inl rfl)) h
              · exact .filterRun q hn h1 h2 h
            · split at h
              · exact .startError _ (.inl rfl) (raiseErr_eq_next h)
              · exact .startError _ (.inl rfl) (raiseErr_eq_next h)

end Sys2Proof.Machine
end

