-- ==== Sys2Proof/Laws/Decode.lean ====
section
/-!
SUPPORT. The fields of a word built by the encoder, and the word built from the fields of another.
-/
namespace Sys2Proof

/-! ## Command words -/

@[simp] theorem cmdOp_commandWord (op : BitVec 4) (wb : Bool) : cmdOp (commandWord op wb) = op := by
  revert op wb; decide

@[simp] theorem cmdWb_commandWord (op : BitVec 4) (wb : Bool) : cmdWb (commandWord op wb) = wb := by
  revert op wb; decide

/-- The word rebuilt from OP and WB is the word with its ignored bits cleared. -/
theorem commandWord_fields (w : Word) : commandWord (cmdOp w) (cmdWb w) = w &&& 0x10F := by
  have h : ∀ a : BitVec 4, ∀ b, commandWord a b = a.setWidth 32 ||| (if b then 0x100#32 else 0#32) := by decide
  have h4 : (cmdOp w).setWidth 32 = w &&& 0xF#32 := by
    apply BitVec.eq_of_toNat_eq
    have : w.toNat &&& 15 = w.toNat % 16 := Nat.and_two_pow_sub_one_eq_mod w.toNat 4
    simp [cmdOp, this]; omega
  have h8 : (if cmdWb w then 0x100#32 else 0#32) = w &&& 0x100#32 := by
    have := BitVec.and_twoPow w 8
    rw [show (BitVec.twoPow 32 8) = 0x100#32 from rfl] at this
    rw [this]; rfl
  rw [h, h4, h8, ← BitVec.and_or_distrib_left]; rfl

/-! ## Entry words -/

/-- PROG_CODE as a number. -/
theorem codeWord_toNat (code : Half) (jt jf : Byte) :
    (codeWord code jt jf).toNat = jf.toNat * 2 ^ 24 + jt.toNat * 2 ^ 16 + code.toNat := by
  unfold codeWord
  erw [BitVec.toNat_append, BitVec.toNat_append]
  rw [← Nat.shiftLeft_add_eq_or_of_lt code.isLt, ← Nat.shiftLeft_add_eq_or_of_lt jt.isLt]
  simp only [Nat.shiftLeft_eq]
  omega

@[simp] theorem entryCode_codeWord (code : Half) (jt jf : Byte) : entryCode (codeWord code jt jf) = code := by
  apply BitVec.eq_of_toNat_eq
  have := code.isLt
  simp only [entryCode, BitVec.extractLsb'_toNat, codeWord_toNat, Nat.shiftRight_eq_div_pow]
  omega

@[simp] theorem entryJt_codeWord (code : Half) (jt jf : Byte) : entryJt (codeWord code jt jf) = jt := by
  apply BitVec.eq_of_toNat_eq
  have := code.isLt
  have := jt.isLt
  simp only [entryJt, BitVec.extractLsb'_toNat, codeWord_toNat, Nat.shiftRight_eq_div_pow]
  omega

@[simp] theorem entryJf_codeWord (code : Half) (jt jf : Byte) : entryJf (codeWord code jt jf) = jf := by
  apply BitVec.eq_of_toNat_eq
  have := code.isLt
  have := jt.isLt
  have := jf.isLt
  simp only [entryJf, BitVec.extractLsb'_toNat, codeWord_toNat, Nat.shiftRight_eq_div_pow]
  omega

/-- PROG_CODE rebuilt from its three fields is the same word. -/
theorem codeWord_fields (c : Word) : codeWord (entryCode c) (entryJt c) (entryJf c) = c := by
  apply BitVec.eq_of_toNat_eq
  have := c.isLt
  rw [codeWord_toNat]
  simp only [entryCode, entryJt, entryJf, BitVec.extractLsb'_toNat, Nat.shiftRight_eq_div_pow]
  omega

end Sys2Proof
end

