-- ==== Sys2Proof/Laws/Held.lean ====
section
/-!
SUPPORT. What the engine's reads of FB find where FB holds given bytes: each read by the bytes in wire order (R15, R53, R71).
-/
namespace Sys2Proof.Machine

variable {fb : List Host.Cell} {a : Nat} {bs : List Byte}

theorem holds_byte (h : Holds fb a bs) {j : Nat} (hj : j < bs.length) : fbByte fb (a + j) = .ok (bs.getD j 0) := by
  rw [fbByte_eq_ok, h j hj, List.getD_eq_getElem?_getD, List.getElem?_eq_getElem hj, Option.getD_some]

theorem holds_be16 (h : Holds fb a bs) {j : Nat} (hj : j + 2 ≤ bs.length) : fbBe16 fb (a + j) = .ok (be16Of bs j) := by
  have h0 := holds_byte h (show j < bs.length by omega)
  have h1 := holds_byte h (show j + 1 < bs.length by omega)
  simp [fbBe16, Nat.add_assoc, h0, h1, be16Of]

theorem append_halves (p q r t : Byte) : (p ++ q) ++ (r ++ t) = ((p ++ q) ++ r) ++ t :=
  (BitVec.append_assoc' (x₁ := p ++ q) (x₂ := r) (x₃ := t)).trans (BitVec.cast_eq ..)

theorem holds_be32 (h : Holds fb a bs) {j : Nat} (hj : j + 4 ≤ bs.length) : fbBe32 fb (a + j) = .ok (be32Of bs j) := by
  have h0 := holds_be16 h (show j + 2 ≤ bs.length by omega)
  have h2 := holds_be16 h (show j + 2 + 2 ≤ bs.length by omega)
  simp only [fbBe32, Nat.add_assoc, h0, h2, except_ok_bind, be16Of, append_halves]
  simp only [be32Of]

theorem holds_ip6 (h : Holds fb a bs) {j : Nat} (hj : j + 16 ≤ bs.length) : fbIp6 fb (a + j) = .ok (ip6Of bs j) := by
  simp only [fbIp6, Nat.add_assoc, holds_be32 h (show j + 4 ≤ bs.length by omega),
    holds_be32 h (show j + 4 + 4 ≤ bs.length by omega), holds_be32 h (show j + 8 + 4 ≤ bs.length by omega),
    holds_be32 h (show j + 12 + 4 ≤ bs.length by omega), except_ok_bind, ip6Of]

theorem holds_span (h : Holds fb a bs) {i n : Nat} (hn : i + n ≤ bs.length) :
    fbSpan fb (a + i) n = .ok ((bs.drop i).take n) := by
  refine fbSpan_eq_ok.2 ⟨by simp; omega, fun j hj => ?_⟩
  rw [Nat.add_assoc, h (i + j) (by omega), List.getElem?_take_of_lt hj, List.getElem?_drop]

theorem zeroField_eq {m : List Byte} (h : 4 ≤ m.length) : zeroField m = m.take 2 ++ [0, 0] ++ m.drop 4 := by
  match m, h with
  | _ :: _ :: _ :: _ :: _, _ => rfl

theorem be32Bytes_eq {n : Nat} (h : n < 0x10000) :
    be32Bytes (BitVec.ofNat 32 n) = [0, 0, BitVec.ofNat 8 (n / 256), BitVec.ofNat 8 n] := by
  simp only [be32Bytes, List.cons.injEq, and_true]
  refine ⟨?_, ?_, ?_, ?_⟩ <;> apply BitVec.eq_of_toNat_eq <;> simp [Nat.shiftRight_eq_div_pow] <;> omega

/-- The sum of CSUM_ICMP6 and PARSE, by the bytes of the two addresses and of the message (R145, R146, R150). -/
theorem holds_icmp6Sum {hdr i : Nat} {addrs m : List Byte} (hl : addrs.length = 32) (h4 : 4 ≤ m.length)
    (h16 : m.length < 0x10000) (ha : Holds fb (hdr + 8) addrs) (hm : Holds fb i m) :
    icmp6Sum fb hdr i m.length = .ok (messageSum addrs m) := by
  have h0 : fbSpan fb (hdr + 8) 16 = .ok (addrs.take 16) := by simpa using holds_span ha (i := 0) (n := 16) (by omega)
  have h1 : fbSpan fb (hdr + 24) 16 = .ok (addrs.drop 16) := by
    have := holds_span ha (i := 16) (n := 16) (by omega)
    rwa [Nat.add_assoc, List.take_of_length_le (by simp; omega)] at this
  have h2 : fbSpan fb i m.length = .ok m := by simpa using holds_span hm (i := 0) (n := m.length) (by omega)
  simp only [icmp6Sum, h0, h1, h2, except_ok_bind, messageSum, pseudoHeader, zeroField_eq h4, be32Bytes_eq h16,
    ← List.append_assoc, List.take_append_drop]
  rfl

/-- What steps 2 and 3 of PARSE read in a frame that passes them (R184, R185). -/
theorem headerOk_reads {s : State} (h : HeaderOk s) :
    fbBe16 s.fb 12 = .ok 0x86DD#16 ∧ fbBe16 s.fb 18 = .ok (BitVec.ofNat 16 (s.frameLen.toNat - 54)) := by
  obtain ⟨-, -, he, hp⟩ := h
  refine ⟨holds_be16 he (j := 0) (by simp), (holds_be16 hp (j := 0) (by simp)).trans (congrArg _ ?_)⟩
  generalize s.frameLen.toNat - 54 = n
  apply BitVec.eq_of_toNat_eq
  have e : (be16Of [BitVec.ofNat 8 (n / 256), BitVec.ofNat 8 n] 0).toNat = n / 256 % 256 * 256 + n % 256 := by
    simp only [be16Of, List.getD_cons_zero, List.getD_cons_succ, BitVec.toNat_append, BitVec.toNat_ofNat]
    rw [← Nat.shiftLeft_add_eq_or_of_lt (Nat.mod_lt _ (by decide)), Nat.shiftLeft_eq]
  rw [e, BitVec.toNat_ofNat]
  omega

/-- A frame that passes steps 1 to 3 is parsed by its walk (R180). -/
theorem headerOk_parseFrame {s : State} (h : HeaderOk s) :
    parseFrame s.fb s.frameLen.toNat = nextHeaderWalk s.fb s.frameLen.toNat >>= parseAfterWalk s.fb s.frameLen.toNat := by
  have := s.frameLen.isLt
  obtain ⟨he, hp⟩ := headerOk_reads h
  have hn : ¬ s.frameLen.toNat < 54 := Nat.not_lt.2 h.2.1
  simp [parseFrame, show Config.hdrLen = 54 from rfl, Config.etherIpv6, hn, he, hp,
    Nat.mod_eq_of_lt (show s.frameLen.toNat - 54 < 65536 by omega)]

end Sys2Proof.Machine
end

