-- ==== Sys2Proof/Laws/Parse.lean ====
section
/-!
SUPPORT. What each stage of PARSE can answer, said once each, and that the fuel of the Hop-by-Hop walk never runs out.
-/
namespace Sys2Proof.Machine

/-! ## The walk -/

/-- Any fuel above (L - off) / 8 gives the same walk: each header takes at least 8 of the bytes left. -/
theorem hbhWalk_fuel {fb : List Host.Cell} {len f g off ext : Nat} (hf : (len - off) / 8 < f) (hg : (len - off) / 8 < g) :
    hbhWalk fb len f off ext = hbhWalk fb len g off ext := by
  induction f generalizing g off ext with
  | zero => omega
  | succ f ih =>
    cases g with
    | zero => omega
    | succ g =>
      simp only [hbhWalk]
      split
      · rfl
      · refine congrArg _ (funext fun e => ?_)
        split
        · rfl
        · refine congrArg _ (funext fun nnh => ?_)
          split
          · rfl
          · split
            · exact ih (by omega) (by omega)
            · rfl

/-- One header of the walk that is followed by another Hop-by-Hop header. -/
theorem hbhWalk_next {fb : List Host.Cell} {len fuel off ext : Nat} {e : Byte} (h : off + (8 + 8 * e.toNat) ≤ len)
    (he : memRead fb (off + 1) = some e) (hn : memRead fb off = some 0x00) :
    hbhWalk fb len (fuel + 1) off ext = hbhWalk fb len fuel (off + (8 + 8 * e.toNat)) (ext + 1) := by
  have h1 : ¬ len - off < 8 := by omega
  have h2 : ¬ len - off < 8 + 8 * e.toNat := by omega
  simp [hbhWalk, h1, fbByte_eq_ok.2 he, h2, fbByte_eq_ok.2 hn, Config.nhIcmp6, Config.nhHopByHop]

/-- The last header of the walk. -/
theorem hbhWalk_last {fb : List Host.Cell} {len fuel off ext : Nat} {e : Byte} (h : off + (8 + 8 * e.toNat) ≤ len)
    (he : memRead fb (off + 1) = some e) (hn : memRead fb off = some 0x3A) :
    hbhWalk fb len (fuel + 1) off ext = .ok (.arrived (off + (8 + 8 * e.toNat)) (ext + 1)) := by
  have h1 : ¬ len - off < 8 := by omega
  have h2 : ¬ len - off < 8 + 8 * e.toNat := by omega
  simp [hbhWalk, h1, fbByte_eq_ok.2 he, h2, fbByte_eq_ok.2 hn, Config.nhIcmp6]

/-- Where the chain loop arrives, it has passed whole headers that fit the frame, and counted each. -/
theorem hbhWalk_arrived {fb : List Host.Cell} {len fuel off ext off' ext' : Nat} (hle : off ≤ len)
    (h : hbhWalk fb len fuel off ext = .ok (.arrived off' ext')) :
    off' ≤ len ∧ ext < ext' ∧ off + 8 * (ext' - ext) ≤ off' ∧ (off' - off) % 8 = 0 := by
  induction fuel generalizing off ext with
  | zero => simp [hbhWalk] at h
  | succ fuel ih =>
    simp only [hbhWalk] at h
    split at h
    · simp at h
    · obtain ⟨e, -, h⟩ := except_bind_eq_ok h
      split at h
      · simp at h
      · obtain ⟨nnh, -, h⟩ := except_bind_eq_ok h
        split at h
        · simp only [Except.ok.injEq, Walk.arrived.injEq] at h
          omega
        · split at h
          · have := ih (by omega) h
            omega
          · simp at h

/-! ## The stages -/

/-- What PARSE can answer before step 5: a discard with nothing else written, or what the stages after the walk answer. -/
theorem parseFrame_cases {fb : List Host.Cell} {len : Nat} {r : ParseResult} (h : parseFrame fb len = .ok r) :
    (∃ d, r = discardWith d .cleared) ∨
    ∃ off ext, 54 ≤ len ∧ fbBe16 fb 12 = .ok 0x86DD ∧ nextHeaderWalk fb len = .ok (.arrived off ext) ∧
      parseAfterWalk fb len (.arrived off ext) = .ok r := by
  unfold parseFrame at h
  split at h
  · exact .inl ⟨_, (Except.ok.inj h).symm⟩
  · rename_i hlen
    obtain ⟨ety, hety, h⟩ := except_bind_eq_ok h
    split at h
    · exact .inl ⟨_, (Except.ok.inj h).symm⟩
    · rename_i hne
      obtain ⟨plen, -, h⟩ := except_bind_eq_ok h
      split at h
      · exact .inl ⟨_, (Except.ok.inj h).symm⟩
      · obtain ⟨w, hw, h⟩ := except_bind_eq_ok h
        cases w with
        | dropped d => exact .inl ⟨_, (Except.ok.inj h).symm⟩
        | arrived off ext =>
          refine .inr ⟨off, ext, Nat.not_lt.1 hlen, ?_, hw, h⟩
          rw [hety, not_not.1 hne]; rfl

/-- What steps 5 and 6 can answer. -/
theorem parseIcmp_cases {fb : List Host.Cell} {off ilen : Nat} {p r : ParseResult} (h : parseIcmp fb off ilen p = .ok r) :
    (ilen < 8 ∧ r = discardWith .icmpShort p) ∨
    ∃ rx sum ty, 8 ≤ ilen ∧ fbBe16 fb (off + 2) = .ok rx ∧ icmp6Sum fb 14 off ilen = .ok sum ∧ fbByte fb off = .ok ty ∧
      ((csumOf sum ≠ rx ∧ r = discardWith .csumBad { p with csumRx := rx, csumCalc := csumOf sum, icmpType := ty }) ∨
        (csumOf sum = rx ∧
          parseType fb off ilen ty { p with csumRx := rx, csumCalc := csumOf sum, icmpType := ty } = .ok r)) := by
  unfold parseIcmp at h
  split at h
  · exact .inl ⟨‹_›, (Except.ok.inj h).symm⟩
  · rename_i hlen
    obtain ⟨rx, hrx, h⟩ := except_bind_eq_ok h
    obtain ⟨sum, hsum, h⟩ := except_bind_eq_ok h
    obtain ⟨ty, hty, h⟩ := except_bind_eq_ok h
    refine .inr ⟨rx, sum, ty, Nat.not_lt.1 hlen, hrx, hsum, hty, ?_⟩
    split at h
    · exact .inl ⟨‹_›, (Except.ok.inj h).symm⟩
    · exact .inr ⟨not_not.1 ‹_›, h⟩

/-- What the addresses step answers: only the three addresses change. -/
theorem parseAddrs_cases {fb : List Host.Cell} {off : Nat} {p r : ParseResult} (h : parseAddrs fb off p = .ok r) :
    ∃ src dst tgt, r = { p with src := src, dst := dst, tgt := tgt } := by
  obtain ⟨src, -, h⟩ := except_bind_eq_ok h
  obtain ⟨dst, -, h⟩ := except_bind_eq_ok h
  obtain ⟨tgt, -, h⟩ := except_bind_eq_ok h
  exact ⟨src, dst, tgt, (Except.ok.inj h).symm⟩

/-- What NS validation can answer. -/
theorem parseNs_cases {fb : List Host.Cell} {off ilen : Nat} {p r : ParseResult} (h : parseNs fb off ilen p = .ok r) :
    (∃ d, r = discardWith d p) ∨
    (24 ≤ ilen ∧ ∃ src dst tgt, r = { p with verdict := .ns, src := src, dst := dst, tgt := tgt }) ∨
    (32 ≤ ilen ∧ ∃ src dst tgt hi lo, r = { p with
      verdict := .ns, sllaValid := true, sllaHi := hi, sllaLo := lo, src := src, dst := dst, tgt := tgt }) := by
  have finish : ∀ {q : ParseResult}, finishNs fb off q = .ok r →
      ∃ src dst tgt, r = { q with verdict := .ns, src := src, dst := dst, tgt := tgt } := by
    intro q hq
    obtain ⟨q', hq', h⟩ := except_bind_eq_ok hq
    obtain ⟨src, dst, tgt, rfl⟩ := parseAddrs_cases hq'
    exact ⟨src, dst, tgt, (Except.ok.inj h).symm⟩
  unfold parseNs at h
  split at h
  · exact .inl ⟨_, (Except.ok.inj h).symm⟩
  · rename_i h24
    obtain ⟨src, -, h⟩ := except_bind_eq_ok h
    split at h
    · exact .inr (.inl ⟨Nat.not_lt.1 h24, finish h⟩)
    · split at h
      · exact .inl ⟨_, (Except.ok.inj h).symm⟩
      · rename_i h32
        obtain ⟨ty, -, h⟩ := except_bind_eq_ok h
        obtain ⟨ln, -, h⟩ := except_bind_eq_ok h
        split at h
        · exact .inl ⟨_, (Except.ok.inj h).symm⟩
        · obtain ⟨q, hq, h⟩ := except_bind_eq_ok h
          obtain ⟨hi, -, hq⟩ := except_bind_eq_ok hq
          obtain ⟨lo, -, hq⟩ := except_bind_eq_ok hq
          obtain rfl := (Except.ok.inj hq).symm
          obtain ⟨src, dst, tgt, hr⟩ := finish h
          exact .inr (.inr ⟨Nat.not_lt.1 h32, src, dst, tgt, hi, lo, hr⟩)

/-- What NA validation can answer. -/
theorem parseNa_cases {fb : List Host.Cell} {off ilen : Nat} {p r : ParseResult} (h : parseNa fb off ilen p = .ok r) :
    (∃ d, r = discardWith d p) ∨
    (24 ≤ ilen ∧ ∃ src dst tgt, r = { p with verdict := .na, src := src, dst := dst, tgt := tgt }) := by
  unfold parseNa at h
  split at h
  · exact .inl ⟨_, (Except.ok.inj h).symm⟩
  · rename_i h24
    obtain ⟨q, hq, h⟩ := except_bind_eq_ok h
    obtain ⟨src, dst, tgt, rfl⟩ := parseAddrs_cases hq
    exact .inr ⟨Nat.not_lt.1 h24, src, dst, tgt, (Except.ok.inj h).symm⟩

end Sys2Proof.Machine
end

