-- ==== Sys2Proof/Laws/PerInstr.lean ====
section
/-!
SUPPORT. The family `TableRow`: the encoding of every well-formed instruction matches its own row of spec/opcode_table.json and
no other row (R104, R111, R112). The row of the illegal codes has no match of its own: its words match no row.
-/
namespace Sys2Proof.Laws.TableRow

/-- What a row of the opcode table fixes. -/
inductive Row where
  /-- A command row: the word under `mask` is `value`. -/
  | command (value mask : Word)
  /-- An entry row: the 16-bit code. -/
  | entry (code : Half)
  deriving DecidableEq, Repr

/-- The rows that fix bits, in the table's order. -/
def rows : List Row :=
  [.command 0x0#32 0xF#32, .command 0x1#32 0xF#32, .command 0x2#32 0xF#32, .command 0x3#32 0xF#32, .command 0x4#32 0xF#32,
   .command 0x5#32 0xF#32, .command 0x6#32 0xE#32, .command 0x8#32 0x8#32,
   .entry 0x0028#16, .entry 0x0030#16, .entry 0x0015#16, .entry 0x0006#16]

/-- Whether the words of an encoding match a row. -/
def Row.fits : Row → List Word → Bool
  | .command v m, [w] => decide (w &&& m = v)
  | .entry c, [w, _] => decide (entryCode w = c)
  | .command _ _, [] => false
  | .command _ _, _ :: _ :: _ => false
  | .entry _, [] => false
  | .entry _, [_] => false
  | .entry _, _ :: _ :: _ :: _ => false

/-- The rows an instruction belongs to: one, or none for an illegal code. -/
def rowOf : Instr → List Row
  | .nop _ => [.command 0x0#32 0xF#32]
  | .csumAdd _ => [.command 0x1#32 0xF#32]
  | .csumIcmp6 _ => [.command 0x2#32 0xF#32]
  | .parse _ => [.command 0x3#32 0xF#32]
  | .filterGen _ => [.command 0x4#32 0xF#32]
  | .filterRun _ => [.command 0x5#32 0xF#32]
  | .reservedLow _ _ => [.command 0x6#32 0xE#32]
  | .reservedHigh _ _ => [.command 0x8#32 0x8#32]
  | .ldh _ _ _ => [.entry 0x0028#16]
  | .ldb _ _ _ => [.entry 0x0030#16]
  | .jeq _ _ _ => [.entry 0x0015#16]
  | .ret _ _ _ => [.entry 0x0006#16]
  | .illegalBpf _ _ _ _ => []

/-- The rows that match a well-formed instruction's encoding are exactly its own. -/
def Statement (i : Instr) : Prop := i.WellFormed → (rows.filter fun r => r.fits (encode i)) = rowOf i

theorem nop (wb : Bool) : Statement (.nop wb) := fun _ => by revert wb; decide
theorem csumAdd (wb : Bool) : Statement (.csumAdd wb) := fun _ => by revert wb; decide
theorem csumIcmp6 (wb : Bool) : Statement (.csumIcmp6 wb) := fun _ => by revert wb; decide
theorem parse (wb : Bool) : Statement (.parse wb) := fun _ => by revert wb; decide
theorem filterGen (wb : Bool) : Statement (.filterGen wb) := fun _ => by revert wb; decide
theorem filterRun (wb : Bool) : Statement (.filterRun wb) := fun _ => by revert wb; decide
theorem reservedLow (op : BitVec 4) (wb : Bool) : Statement (.reservedLow op wb) := by
  unfold Statement; revert op wb; decide
theorem reservedHigh (op : BitVec 4) (wb : Bool) : Statement (.reservedHigh op wb) := by
  unfold Statement; revert op wb; decide
theorem ldh (jt jf : Byte) (k : Word) : Statement (.ldh jt jf k) := fun _ => by
  simp [rows, encode, Row.fits, rowOf]
theorem ldb (jt jf : Byte) (k : Word) : Statement (.ldb jt jf k) := fun _ => by
  simp [rows, encode, Row.fits, rowOf]
theorem jeq (jt jf : Byte) (k : Word) : Statement (.jeq jt jf k) := fun _ => by
  simp [rows, encode, Row.fits, rowOf]
theorem ret (jt jf : Byte) (k : Word) : Statement (.ret jt jf k) := fun _ => by
  simp [rows, encode, Row.fits, rowOf]
theorem illegalBpf (code : Half) (jt jf : Byte) (k : Word) : Statement (.illegalBpf code jt jf k) := fun h => by
  simp only [Instr.WellFormed, Instr.wellFormed, supportedCodes, Bool.not_eq_true', List.contains_eq_mem,
    decide_eq_false_iff_not, List.mem_cons, List.not_mem_nil, or_false, not_or] at h
  simp only [rows, encode, Row.fits, rowOf, List.filter, entryCode_codeWord, decide_eq_false h.1, decide_eq_false h.2.1,
    decide_eq_false h.2.2.1, decide_eq_false h.2.2.2]

end Sys2Proof.Laws.TableRow
end

