-- ==== Sys2Proof/Laws/Step.lean ====
section
/-!
SUPPORT. What a step can do, said once: every invariant of the machine is derived from these two lemmas.
-/
namespace Sys2Proof.Machine

/-- Inside a run a step fetches the entry at pc. -/
theorem step_inside {s : State} {r : BpfRun} (hr : s.run = some r) :
    step s = fetchEntry s r fun c k t => exec (decodeEntry c k) t := by
  unfold step
  split
  · rename_i q hq
    rw [Option.some.inj (hr.symm.trans hq)]
  · rename_i hq
    exact absurd (hr.symm.trans hq) (by simp)

/-- Between two turns a step takes the oldest turn, or the engine's where none is left. -/
theorem step_between {s : State} (hr : s.run = none) :
    step s = match s.turns with
      | t :: ts => takeTurn t { s with turns := ts }
      | [] => engineTurn s := by
  unfold step
  split
  · rename_i q hq
    exact absurd (hr.symm.trans hq) (by simp)
  · rfl

/-- Everything a step can do inside a run: end it at the end of the program, or carry out a counted entry. -/
theorem step_cases_inside {s t : State} {r : BpfRun} (hr : s.run = some r) (h : step s = .next t) :
    RunEnds r s t ∨ ∃ c k, exec (decodeEntry c k) { s with run := some { r with steps := r.steps + 1 } } = .next t := by
  rw [step_inside hr] at h
  rcases fetchEntry_cases h with ⟨-, he⟩ | ⟨-, c, k, -, he⟩
  · exact .inl he
  · exact .inr ⟨c, k, he⟩

/-- Everything a step can do between two turns. The turns left are some list; apart from them the step is idle, completes the
pending command, makes a host access, or resets. -/
theorem step_cases_between {s t : State} (hr : s.run = none) (h : step s = .next t) :
    ∃ ts, t = { s with turns := ts } ∨
      (∃ c, s.pending = some c ∧ exec (decodeCommand (commandWord c.op c.wb)) { s with turns := ts } = .next t) ∨
      (∃ a, hostAccess a { s with turns := ts } = .next t) ∨ t = applyReset { s with turns := ts } := by
  rw [step_between hr] at h
  split at h
  · rename_i u ts _
    cases u with
    | host a => exact ⟨ts, .inr (.inr (.inl ⟨a, h⟩))⟩
    | poll =>
      simp only [takeTurn] at h
      split at h
      · exact ⟨_, .inr (.inl ⟨_, ‹_›, h⟩)⟩
      · exact ⟨ts, .inr (.inr (.inl ⟨_, h⟩))⟩
    | engine =>
      simp only [takeTurn, engineTurn] at h
      split at h
      · exact ⟨ts, .inr (.inl ⟨_, ‹_›, h⟩)⟩
      · exact ⟨ts, .inl (Host.Outcome.next.inj h).symm⟩
    | reset => exact ⟨ts, .inr (.inr (.inr (Host.Outcome.next.inj h).symm))⟩
  · simp only [engineTurn] at h
    split at h
    · exact ⟨s.turns, .inr (.inl ⟨_, ‹_›, h⟩)⟩
    · exact ⟨s.turns, .inl (Host.Outcome.next.inj h).symm⟩

end Sys2Proof.Machine
end

