-- ==== Sys2Proof/Laws/Unwritten.lean ====
section
/-!
SUPPORT. A read stops at the first byte nobody has written, and at no other (R283, R287).
-/
namespace Sys2Proof.Machine

theorem fbByte_unwritten {fb : List Host.Cell} {j : Nat} (h : memRead fb j = none) : fbByte fb j = .error (.fb j) := by
  simp [fbByte, h]

@[simp] theorem firstUnwritten_nil (fb : List Host.Cell) : firstUnwritten fb [] = none := rfl

theorem firstUnwritten_cons (fb : List Host.Cell) (a : Nat) (l : List Nat) :
    firstUnwritten fb (a :: l) = if (memRead fb a).isNone then some a else firstUnwritten fb l := by
  cases h : memRead fb a <;> simp [firstUnwritten, h]

theorem firstUnwritten_append (fb : List Host.Cell) (l m : List Nat) :
    firstUnwritten fb (l ++ m) = (firstUnwritten fb l).or (firstUnwritten fb m) := List.find?_append

/-- The byte named is one of the list, and nobody has written it. -/
theorem firstUnwritten_spec {fb : List Host.Cell} {l : List Nat} {j : Nat} (h : firstUnwritten fb l = some j) :
    j ∈ l ∧ memRead fb j = none :=
  ⟨List.mem_of_find?_eq_some h, by simpa using List.find?_some h⟩

/-- A span is read whole, or the read stops at its first unwritten byte. -/
theorem fbSpan_eq (fb : List Host.Cell) (n a : Nat) :
    (∃ j, firstUnwritten fb (List.range' a n) = some j ∧ fbSpan fb a n = .error (.fb j)) ∨
      (firstUnwritten fb (List.range' a n) = none ∧ ∃ bs, fbSpan fb a n = .ok bs) := by
  induction n generalizing a with
  | zero => exact .inr ⟨rfl, [], rfl⟩
  | succ n ih =>
    rw [List.range'_succ, firstUnwritten_cons]
    cases hb : memRead fb a with
    | none => exact .inl ⟨a, rfl, by simp [fbSpan, fbByte_unwritten hb]⟩
    | some b =>
      rcases ih (a + 1) with ⟨j, hj, hs⟩ | ⟨hj, bs, hs⟩
      · exact .inl ⟨j, by simpa using hj, by simp [fbSpan, fbByte_eq_ok.2 hb, hs]⟩
      · exact .inr ⟨by simpa using hj, b :: bs, by simp [fbSpan, fbByte_eq_ok.2 hb, hs]⟩

theorem fbSpan_stops {fb : List Host.Cell} {n a j : Nat} (h : firstUnwritten fb (List.range' a n) = some j) :
    fbSpan fb a n = .error (.fb j) := by
  rcases fbSpan_eq fb n a with ⟨i, hi, hs⟩ | ⟨hn, -⟩
  · rw [hs, Option.some.inj (hi.symm.trans h)]
  · simp [hn] at h

/-- A big-endian halfword is read whole, or the read stops at its first unwritten byte. -/
theorem fbBe16_stops {fb : List Host.Cell} {i j : Nat} (h : firstUnwritten fb [i, i + 1] = some j) :
    fbBe16 fb i = .error (.fb j) := by
  rw [firstUnwritten_cons, firstUnwritten_cons] at h
  cases h0 : memRead fb i with
  | none => simp_all [fbBe16, fbByte_unwritten]
  | some x =>
    cases h1 : memRead fb (i + 1) with
    | none => simp_all [fbBe16, fbByte_unwritten, fbByte_eq_ok.2 h0]
    | some y => simp_all

/-- The checksum of a message is computed, or the read stops at the first unwritten byte of the addresses and the message. -/
theorem icmp6Sum_stops {fb : List Host.Cell} {h i n j : Nat}
    (hj : firstUnwritten fb (List.range' (h + 8) 32 ++ List.range' i n) = some j) : icmp6Sum fb h i n = .error (.fb j) := by
  have split : List.range' (h + 8) 32 = List.range' (h + 8) 16 ++ List.range' (h + 24) 16 := by
    rw [show h + 24 = h + 8 + 16 by omega, List.range'_append_1]
  rw [split, firstUnwritten_append, firstUnwritten_append] at hj
  rcases fbSpan_eq fb 16 (h + 8) with ⟨a, ha, hs⟩ | ⟨ha, src, hs⟩
  · simp_all [icmp6Sum]
  · rcases fbSpan_eq fb 16 (h + 24) with ⟨b, hb, hd⟩ | ⟨hb, dst, hd⟩
    · simp_all [icmp6Sum]
    · have hm := fbSpan_stops (by simpa [ha, hb] using hj : firstUnwritten fb (List.range' i n) = some j)
      simp [icmp6Sum, hs, hd, hm]

end Sys2Proof.Machine
end

