-- ==== Sys2Proof/Tests/Slice0.lean ====
section
/-!
SUPPORT. Tests: ill-formed terms refused, words written out from the spec's encodings, single steps on the spec's vectors
(95_test_vectors.md), and for each statement with hypotheses a state and operands that meet them.
-/
namespace Sys2Proof.Tests
set_option Elab.async false
open Sys2Proof Sys2Proof.Machine

/-! ## Helpers -/

/-- The low `n` bytes of a number, the most significant first. -/
def bytesBE : Nat → Nat → List Byte
  | 0, _ => []
  | n + 1, v => BitVec.ofNat 8 (v / 256 ^ n) :: bytesBE n v

/-- Values at consecutive addresses. -/
def cellsFrom {α : Type} : Nat → List α → Cells α
  | _, [] => []
  | a, v :: vs => (a, v) :: cellsFrom (a + 1) vs

/-- Reset, with a frame in FB from 0 on and its length in FRAME_LEN. -/
def withFrame (bs : List Byte) : State :=
  { State.reset with fb := cellsFrom 0 bs, frameLen := BitVec.ofNat 16 bs.length }

/-- The state with a command accepted. -/
def pend (op : BitVec 4) (wb : Bool) (s : State) : State := accept { op := op, wb := wb } s

/-- The state with OPA, OPB and OPLEN set. -/
def operands (a b n : Nat) (s : State) : State :=
  { s with opa := BitVec.ofNat 16 a, opb := BitVec.ofNat 16 b, oplen := BitVec.ofNat 16 n }

/-- The state inside a run, with PROG_LEN set. -/
def inRun (a : Word) (pc steps n : Nat) (s : State) : State :=
  { s with run := some { a := a, pc := pc, steps := steps }, progLen := BitVec.ofNat 9 n }

/-- The state with one byte of FB unwritten. -/
def unwrite (a : Nat) (s : State) : State := { s with fb := s.fb.filter fun c => decide (c.1 ≠ a) }

/-- The state with the first word of PROG and its last written. -/
def withPlaces (s : State) : State := { s with prog := [(0, 1#32), (31, 2#32)] }

/-- The outcome is a next state with a decided property. -/
def nextAnd (o : Result) (p : State → Bool) : Bool :=
  match o with
  | .next t => p t
  | .fault _ => false
  | .refused _ => false

theorem next_of {o : Result} {P : State → Prop} [DecidablePred P] (h : nextAnd o (fun t => decide (P t)) = true) :
    ∃ t, o = .next t ∧ P t := by
  cases o with
  | next t => exact ⟨t, rfl, of_decide_eq_true h⟩
  | fault f => simp [nextAnd] at h
  | refused r => simp [nextAnd] at h

/-- The outcome is a given fault. -/
def faultIs (o : Result) (f : Fault) : Bool :=
  match o with
  | .next _ => false
  | .fault g => decide (g = f)
  | .refused _ => false

/-- V-F1. -/
def frameNs : List Byte := bytesBE 78 0x3333ff00000102000000000286dd6000000000183aff00000000000000000000000000000000ff0200000000000000000001ff00000187004ced0000000020010db8000000000000000000000001
/-- V-F2. -/
def frameNa : List Byte := bytesBE 86 0x33330000000102000000000186dd6000000000203aff20010db8000000000000000000000001ff0200000000000000000000000000018800d92a4000000020010db80000000000000000000000010201020000000001
/-- V-F3. -/
def frameNsSlla : List Byte := bytesBE 86 0x3333ff00000102000000000286dd6000000000203afffe80000000000000000000fffe000002ff0200000000000000000001ff00000187004c5f0000000020010db80000000000000000000000010101020000000002
/-- V-F4. -/
def frameEcho : List Byte := bytesBE 62 0x02000000000102000000000286dd6000000000083aff20010db800000000000000000000000220010db80000000000000000000000018000121312340001
/-- V-P8. -/
def frameHbh : List Byte := bytesBE 86 0x3333ff00000102000000000286dd60000000002000ff00000000000000000000000000000000ff0200000000000000000001ff0000013a0001040000000087004ced0000000020010db8000000000000000000000001
/-- V-P9. -/
def frameHbh2 : List Byte := bytesBE 94 0x3333ff00000102000000000286dd60000000002800ff00000000000000000000000000000000ff0200000000000000000001ff00000100000104000000003a0001040000000087004ced0000000020010db8000000000000000000000001

/-! ## Ill-formed terms -/

theorem test_illformed_reservedLow : (Instr.reservedLow 0x3#4 true).wellFormed = false := by decide
theorem test_illformed_reservedLow_high : (Instr.reservedLow 0x8#4 false).wellFormed = false := by decide
theorem test_illformed_reservedHigh : (Instr.reservedHigh 0x7#4 true).wellFormed = false := by decide
theorem test_illformed_illegalBpf : (Instr.illegalBpf 0x0028#16 0#8 0#8 0#32).wellFormed = false := by decide
theorem test_illformed_illegalBpf_ret : (Instr.illegalBpf 0x0006#16 1#8 2#8 3#32).wellFormed = false := by decide
theorem test_wrong_length_command : decodeWords .command [0#32, 0#32] = .error (.wrongLength .command 2) := by rfl
theorem test_wrong_length_entry : decodeWords .entry [0x28#32] = .error (.wrongLength .entry 1) := by rfl

/-! ## Words written out bit by bit (R103, R104, R107, R110) -/

theorem test_word_nop : decodeCommand 0b00000000000000000000000000000000#32 = .nop false := by decide
theorem test_word_csumAdd : decodeCommand 0b00000000000000000000000100000001#32 = .csumAdd true := by decide
theorem test_word_csumIcmp6 : decodeCommand 0b00000000000000000000000100000010#32 = .csumIcmp6 true := by decide
theorem test_word_parse : decodeCommand 0b11111111111111111111111011110011#32 = .parse false := by decide
theorem test_word_filterGen : decodeCommand 0b00000000000000000000000000000100#32 = .filterGen false := by decide
theorem test_word_filterRun : decodeCommand 0b00000000000000000000000000000101#32 = .filterRun false := by decide
theorem test_word_reservedLow : decodeCommand 0b00000000000000000000000100000111#32 = .reservedLow 0b0111#4 true := by decide
theorem test_word_reservedHigh : decodeCommand 0b00000000000000000000000000001000#32 = .reservedHigh 0b1000#4 false := by decide
theorem test_word_ldh :
    decodeEntry 0b00000000000000000000000000101000#32 12#32 = .ldh 0#8 0#8 12#32 := by decide
theorem test_word_ldb :
    decodeEntry 0b00001001000001110000000000110000#32 20#32 = .ldb 7#8 9#8 20#32 := by decide
theorem test_word_jeq :
    decodeEntry 0b00000110000000000000000000010101#32 0x86DD#32 = .jeq 0#8 6#8 0x86DD#32 := by decide
theorem test_word_ret :
    decodeEntry 0b00000000000000000000000000000110#32 0xFFFFFFFF#32 = .ret 0#8 0#8 0xFFFFFFFF#32 := by decide
theorem test_word_illegalBpf :
    decodeEntry 0b00000000000000000000000100010101#32 0#32 = .illegalBpf 0x0115#16 0#8 0#8 0#32 := by decide
theorem test_table_word_command : decodeTableWord 8 0x2 = some (.csumIcmp6 false) := by decide
theorem test_table_word_entry : decodeTableWord 64 0x000086DD_06000015 = some (.jeq 0#8 6#8 0x86DD#32) := by decide

/-! ## Single steps on the spec's vectors -/

/-- V-S2. -/
theorem test_nop : ∃ t, step (pend 0#4 false State.reset) = .next t ∧ readReg t .status = 0x00000002#32 :=
  next_of (by decide)
/-- V-S12, V-S14: IRQ falls when DONE is cleared, and when the next command is accepted. -/
theorem test_irq_falls :
    let s := { State.reset with irqEn := true, done := true }
    s.irq = true ∧ (∃ t, step { s with turns := [w32 .default 0x00C 0x2#32] } = .next t ∧ t.irq = false)
      ∧ ∃ t, step { s with turns := [w32 .default 0x008 0#32] } = .next t ∧ t.irq = false ∧ t.busy = true :=
  ⟨by decide, next_of (by decide), next_of (by decide)⟩
/-- V-S3. -/
theorem test_reservedLow : ∃ t, step (pend 7#4 false State.reset) = .next t ∧ readReg t .status = 0x00070106#32 :=
  next_of (by decide)
/-- R281. -/
theorem test_reservedHigh : ∃ t, step (pend 8#4 false State.reset) = .next t ∧ readReg t .status = 0x00080106#32 :=
  next_of (by decide)
/-- V-A1. -/
theorem test_csumAdd :
    ∃ t, step (pend 1#4 false (operands 0 0 8 (withFrame (bytesBE 8 0x0001F203F4F5F6F7)))) = .next t
      ∧ readReg t .acc = 0x0000DDF2#32 ∧ readReg t .status = 0x00010002#32 :=
  next_of (by decide +kernel)
/-- V-A5. -/
theorem test_csumAdd_range :
    ∃ t, step (pend 1#4 false { operands 4095 0 2 State.reset with acc := 0x1234#32 }) = .next t
      ∧ readReg t .acc = 0x00001234#32 ∧ readReg t .status = 0x00010206#32 :=
  next_of (by decide +kernel)
/-- V-I2: the field is filled high byte first. -/
theorem test_csumIcmp6_writes_back :
    ∃ t, step (pend 2#4 true (operands 14 54 24 (withFrame ((frameNs.set 56 0#8).set 57 0#8)))) = .next t
      ∧ readReg t .acc = 0x0000B312#32 ∧ readReg t .csumResult = 0x00004CED#32 ∧ t.fb = cellsFrom 0 frameNs :=
  next_of (by decide +kernel)
/-- V-I6: an odd length. -/
theorem test_csumIcmp6_odd :
    ∃ t, step (pend 2#4 false (operands 14 54 5 (withFrame (bytesBE 62
        0x02000000000102000000000286dd6000000000083a4020010db800000000000000000000000220010db80000000000000000000000018000000024480000))))
        = .next t ∧ readReg t .acc = 0x0000FFB4#32 ∧ readReg t .csumResult = 0x0000004B#32 :=
  next_of (by decide +kernel)
/-- V-P0c. -/
theorem test_parse_ns_slla :
    ∃ t, step (pend 3#4 false (withFrame frameNsSlla)) = .next t
      ∧ readReg t .pverdict = 0x87010001#32 ∧ readReg t .picmp = 0x00200036#32 ∧ readReg t .pcsum = 0x4C5F4C5F#32
      ∧ readReg t (.psrc 3) = 0xFE000002#32 ∧ readReg t (.ptgt 0) = 0x20010DB8#32
      ∧ readReg t .psllaHi = 0x00000200#32 ∧ readReg t .psllaLo = 0x00000002#32 :=
  next_of (by decide +kernel)
/-- V-P9: two Hop-by-Hop headers. -/
theorem test_parse_two_hop_by_hop :
    ∃ t, step (pend 3#4 false (withFrame frameHbh2)) = .next t
      ∧ readReg t .pverdict = 0x87000001#32 ∧ readReg t .picmp = 0x00180046#32 ∧ readReg t .pext = 2#32 :=
  next_of (by decide +kernel)
/-- V-G1, one entry of it. -/
theorem test_filterGen :
    ∃ t, step (pend 4#4 false State.reset) = .next t
      ∧ memRead t.prog 2 = some 0x06000015#32 ∧ memRead t.prog 18 = none ∧ readReg t .fdesc = 9#32 :=
  next_of (by decide +kernel)
/-- V-B1b. -/
theorem test_filterRun :
    ∃ t, step (pend 5#4 false { withFrame frameNa with prog := cellsFrom 0 genTable, progLen := 9#9 }) = .next t
      ∧ readReg t .fresult = 0xFFFFFFFF#32 ∧ readReg t .finfo = 0x00080407#32 ∧ readReg t .fa = 0x00000088#32 :=
  next_of (by decide +kernel)
/-- V-S10. -/
theorem test_filterRun_without_program :
    ∃ t, step (pend 5#4 false State.reset) = .next t ∧ readReg t .status = 0x00050406#32 := next_of (by decide)
/-- V-B7: k + 2 does not wrap. -/
theorem test_ldh_out_of_bounds :
    ∃ t, step { inRun 0#32 0 0 1 (withFrame frameNa) with prog := [(0, 0x28#32), (1, 0xFFFFFFFF#32)] } = .next t
      ∧ readReg t .fresult = 0#32 ∧ readReg t .finfo = 0x00010800#32 :=
  next_of (by decide +kernel)
/-- V-B4, its first entry: A is the ether_type. -/
theorem test_ldh :
    ∃ t, step { inRun 0#32 0 0 1 (withFrame frameNa) with prog := [(0, 0x28#32), (1, 12#32)] } = .next t
      ∧ t.run = some { a := 0x86DD#32, pc := 1, steps := 1 } :=
  next_of (by decide +kernel)
/-- V-B9, its first entry: jt and jf of a load are ignored. -/
theorem test_ldb :
    ∃ t, step { inRun 0#32 0 0 2 (withFrame frameNa) with prog := [(0, 0x09070030#32), (1, 20#32)] } = .next t
      ∧ t.run = some { a := 0x3A#32, pc := 1, steps := 1 } :=
  next_of (by decide +kernel)
/-- V-B5, its first entry: the farthest jump. -/
theorem test_jeq :
    ∃ t, step { inRun 0#32 0 0 9 State.reset with prog := [(0, 0xFFFF0015#32), (1, 0#32)] } = .next t
      ∧ t.run = some { a := 0#32, pc := 256, steps := 1 } :=
  next_of (by decide +kernel)
/-- V-B6. -/
theorem test_ret :
    ∃ t, step { inRun 0#32 0 0 1 State.reset with prog := [(0, 0x6#32), (1, 0#32)] } = .next t
      ∧ readReg t .fresult = 0#32 ∧ readReg t .finfo = 0x00010000#32 ∧ t.errcode = .ok :=
  next_of (by decide +kernel)
/-- V-B8. -/
theorem test_illegalBpf :
    ∃ t, step { inRun 0#32 0 0 1 State.reset with prog := [(0, 0x0115#32), (1, 0#32)] } = .next t
      ∧ readReg t .finfo = 0x00010000#32 ∧ t.errcode = .bpfIllegal :=
  next_of (by decide +kernel)
/-- V-C5a, V-C5b, V-C10: seeds above 0xFFFF. -/
theorem test_checksum_large_seeds :
    checksum 0x12345678#32 [0#8, 1#8] = 0x1233567A#32 ∧ checksum 0xFFFFFFFF#32 [0#8, 1#8] = 0#32
      ∧ checksum 0x0001FFFF#32 [0#8, 0#8] = 0x00010000#32 := by decide
/-- V-M1. -/
theorem test_read_lanes :
    ∃ t, step { withFrame frameNs with turns := [r16 .default 0x1000C] } = .next t ∧ t.readData = some 0x0000DD86#32 :=
  next_of (by decide +kernel)
/-- V-M9, the write. -/
theorem test_write_progLen :
    ∃ t, step { State.reset with turns := [w32 .default 0x034 0xFFFFFFFF#32] } = .next t ∧ t.progLen = 0x1FF#9 :=
  next_of (by decide +kernel)
/-- V-M11, one of them. -/
theorem test_bus_error :
    ∃ t, step { State.reset with turns := [w16 .default 0x014 1#32] } = .next t
      ∧ t.frameLen = 0#16 ∧ t.faults = [.hostBusError .w16 0x014] :=
  next_of (by decide +kernel)
/-- V-M12. -/
theorem test_unwritten_read :
    faultIs (step { State.reset with turns := [r8 .default 0x10000] }) (.uninitRead 0#4 (.fb 0)) = true := by decide +kernel
/-- R287, R283: PARSE stops at the first byte it reads that nobody has written. -/
theorem test_parse_unwritten :
    faultIs (step (pend 3#4 false (unwrite 77 (unwrite 30 (withFrame frameNs))))) (.uninitRead 3#4 (.fb 30)) = true := by
  decide +kernel
/-- The first instruction after reset is the one placed. -/
theorem test_withFetchWord :
    ∃ t, step (State.reset.withFetchWord 16 0x0006) = .next t ∧ readReg t .finfo = 0x00010000#32 :=
  next_of (by decide +kernel)

/-! ## Witnesses: a state and operands that meet each statement's hypotheses -/

theorem test_witness_DecodeOfEncodeIsIdentity :
    (Instr.reservedLow 6#4 true).WellFormed ∧ (Instr.reservedHigh 8#4 true).WellFormed ∧ (Instr.reservedHigh 15#4 false).WellFormed
      ∧ (Instr.illegalBpf 0x0115#16 1#8 2#8 3#32).WellFormed ∧ (Instr.csumIcmp6 true).WellFormed := by decide
theorem test_witness_StepRunsPendingCommand :
    let s := pend 2#4 true State.reset
    s.run = none ∧ s.pending = some { op := (0x102#32).extractLsb' 0 4, wb := (0x102#32).getLsbD 8 } ∧ s.turns = []
      ∧ { s with turns := [.engine, .poll] }.turns = .engine :: [.poll] := by decide
theorem test_witness_StepRunsFetchedEntry :
    let s := { inRun 7#32 8 3 9 State.reset with prog := [(16, 0x6#32), (17, 5#32)] }
    s.run = some { a := 7#32, pc := 8, steps := 3 } ∧ 8 < s.progLen.toNat
      ∧ memRead s.prog 16 = some 0x6#32 ∧ memRead s.prog 17 = some 5#32 := by decide
theorem test_witness_IdleCommandWriteIsAccepted :
    let s := { State.reset with turns := [w32 .default 0x008 0x102#32] }
    s.run = none ∧ s.pending = none ∧ s.turns = [.host (.write .w32 (s.cfg.base + 0x008) 0x102#32)] := by decide
theorem test_witness_BusyCommandWriteSetsOvrOnly :
    let s := { pend 3#4 false State.reset with turns := [w32 .default 0x008 0#32] }
    s.run = none ∧ s.pending = some { op := 3#4, wb := false }
      ∧ s.turns = [.host (.write .w32 (s.cfg.base + 0x008) 0#32)] := by decide
theorem test_witness_StatusWriteClearsByOnes :
    let s := { State.reset with done := true, err := true, errcode := .range, turns := [w32 .default 0x00C 0x4#32] }
    s.run = none ∧ s.turns = [.host (.write .w32 (s.cfg.base + 0x00C) 0x4#32)] := by decide
theorem test_witness_WbReadByCsumIcmp6Only : (1#4 : BitVec 4) ≠ 2#4 ∧ (15#4 : BitVec 4) ≠ 2#4 := by decide
theorem test_witness_EngineTurnCompletesTheCommand :
    (pend 5#4 true State.reset).run = none ∧ (pend 5#4 true State.reset).pending = some { op := 5#4, wb := true }
      ∧ ∃ t, engineTurn (pend 5#4 true State.reset) = .next t ∧ t.errcode = .progLen :=
  ⟨rfl, rfl, next_of (by decide)⟩
/-- V-C6's seed, and the largest. -/
theorem test_witness_ChecksumStaysSixteenBits : (0xABCD#32).toNat ≤ 0xFFFF ∧ (0xFFFF#32).toNat ≤ 0xFFFF := by decide
/-- V-C3 and V-C8: both sides of the closed form. -/
theorem test_witness_ChecksumClosedForm :
    (0#32).toNat ≤ 0xFFFF ∧ (0#32).toNat + wordSum [0xFF#8, 0xFF#8, 0xFF#8, 0xFF#8] ≠ 0
      ∧ (0#32).toNat + wordSum [0#8, 0#8, 0#8, 0#8, 0#8, 0#8] = 0 := by decide
theorem test_witness_ChecksumChainsAtEvenLengths : [0x12#8, 0x34#8].length % 2 = 0 ∧ ([] : List Byte).length % 2 = 0 := by decide
theorem test_witness_SingleBitFlipChangesTheSum :
    (0xFFFF#32).toNat ≤ 0xFFFF ∧ 2 < [0x12#8, 0x34#8, 0x56#8].length ∧ 7 < 8 := by decide

/-- V-A5. -/
theorem test_witness_CsumAddBehaviour_range :
    let s := operands 4095 0 2 State.reset
    s.cfg.fbSize < s.opa.toNat + s.oplen.toNat := by decide
/-- V-A4. -/
theorem test_witness_CsumAddBehaviour_sum :
    let s := { operands 4095 0 1 State.reset with fb := [(4095, 0x80#8)] }
    s.opa.toNat + s.oplen.toNat ≤ s.cfg.fbSize ∧ [0x80#8].length = s.oplen.toNat ∧ Holds s.fb s.opa.toNat [0x80#8] := by
  unfold Holds; decide
/-- V-A7. -/
theorem test_witness_CsumAddBehaviour_unwritten :
    let s := { operands 0 0 8 State.reset with fb := cellsFrom 0 (bytesBE 5 0x0001F203F4) }
    s.opa.toNat + s.oplen.toNat ≤ s.cfg.fbSize ∧ firstUnwritten s.fb (List.range' s.opa.toNat s.oplen.toNat) = some 5 := by
  decide
/-- V-I8 and V-I10; 4057 + 40 passes FB by one, and so does 4089 + 8. -/
theorem test_witness_CsumIcmp6Behaviour_range :
    (operands 4057 54 8 State.reset).cfg.fbSize < 4057 + 40 ∧ (operands 14 4089 8 State.reset).cfg.fbSize < 4089 + 8 := by decide
theorem test_witness_CsumIcmp6Behaviour_short :
    let s := operands 4056 4093 3 State.reset
    s.opa.toNat = 4056 ∧ s.opb.toNat = 4093 ∧ s.oplen.toNat = 3 ∧ 4056 + 40 ≤ s.cfg.fbSize ∧ 4093 + 3 ≤ s.cfg.fbSize ∧ 3 < 4 := by
  decide
/-- V-I9: both spans end at the end of FB. -/
theorem test_witness_CsumIcmp6Behaviour_sum :
    let s := { operands 4056 4088 8 State.reset with fb := cellsFrom 4056 (List.replicate 40 0#8) }
    4056 + 40 ≤ s.cfg.fbSize ∧ 4088 + 8 ≤ s.cfg.fbSize ∧ 4 ≤ 8 ∧ Holds s.fb (4056 + 8) (List.replicate 16 0#8)
      ∧ Holds s.fb (4056 + 24) (List.replicate 16 0#8) ∧ Holds s.fb 4088 (List.replicate 8 0#8) := by
  unfold Holds; decide +kernel
theorem test_witness_CsumIcmp6Behaviour_unwritten :
    let s := operands 4056 4092 4 State.reset
    4056 + 40 ≤ s.cfg.fbSize ∧ 4092 + 4 ≤ s.cfg.fbSize ∧ 4 ≤ 4
      ∧ firstUnwritten s.fb (List.range' (4056 + 8) 32 ++ List.range' 4092 4) = some 4064 := by
  decide +kernel
/-- V-I1. -/
theorem test_witness_Icmp6SumIsNeverZero :
    ∃ t, exec (.csumIcmp6 false) (operands 14 54 24 (withFrame frameNs)) = .next t ∧ t.errcode = .ok :=
  next_of (by decide +kernel)
/-- V-I2; a message that stands before the header's addresses, at the last place that does; and one whose field is the last two
bytes of the destination address. -/
theorem test_witness_CsumIcmp6RoundTrip :
    (14 + 40 ≤ 54 + 2 ∧ ∃ t, exec (.csumIcmp6 true) (operands 14 54 24 (withFrame frameNs)) = .next t ∧ t.errcode = .ok)
      ∧ (18 + 3 < 14 + 8 ∧ ∃ t, exec (.csumIcmp6 true) (operands 14 18 4 (withFrame frameNs)) = .next t ∧ t.errcode = .ok)
      ∧ (¬ (50 + 3 < 14 + 8 ∨ 14 + 40 ≤ 50 + 2)
        ∧ ∃ t, exec (.csumIcmp6 true) (operands 14 50 4 (withFrame frameNs)) = .next t ∧ t.errcode = .ok) :=
  ⟨⟨by decide, next_of (by decide +kernel)⟩, ⟨by decide, next_of (by decide +kernel)⟩,
    ⟨by decide, next_of (by decide +kernel)⟩⟩
/-- V-F1's message and pseudo-header; and an all-zero message whose pseudo-header sums to 0xFFFF, with the field 0xFFFF. -/
theorem test_witness_VerificationBySummation :
    let ph := List.replicate 39 0#8 ++ [58#8]
    let m := [0#8, 0#8, 0xFF#8, 0xC5#8]
    ph.length = 40 ∧ 4 ≤ m.length ∧ m.getD 2 0 ++ m.getD 3 0 = 0xFFC5#16 ∧ 1 ≤ wordSum ph
      ∧ (0xFFC5#16 : Half) = ~~~ (checksum 0 (ph ++ (m.take 2 ++ [0, 0] ++ m.drop 4))).extractLsb' 0 16 := by decide +kernel
theorem test_witness_VerificationBySummation_all_ones :
    let ph := List.replicate 38 0#8 ++ [0xFF#8, 0xFF#8]
    let m := [0#8, 0#8, 0xFF#8, 0xFF#8]
    ph.length = 40 ∧ 4 ≤ m.length ∧ m.getD 2 0 ++ m.getD 3 0 = 0xFFFF#16 ∧ 1 ≤ wordSum ph
      ∧ checksum 0 (ph ++ (m.take 2 ++ [0, 0] ++ m.drop 4)) = 0xFFFF#32 := by decide +kernel

/-- V-P16, and a PARSE that goes on. -/
theorem test_witness_ParseWritesResultsOnly :
    { State.reset with frameLen := 4097#16 }.cfg.fbSize < { State.reset with frameLen := 4097#16 }.frameLen.toNat
      ∧ { State.reset with frameLen := 4096#16 }.frameLen.toNat ≤ { State.reset with frameLen := 4096#16 }.cfg.fbSize
      ∧ (withFrame frameNs).frameLen.toNat ≤ (withFrame frameNs).cfg.fbSize
      ∧ ∃ t, exec (.parse false) (withFrame frameNs) = .next t ∧ t.parse.verdict = .ns :=
  ⟨by decide, by decide, by decide, next_of (by decide +kernel)⟩
theorem test_witness_ParseCompletesOnWrittenFrames :
    let s := withFrame frameNs
    s.frameLen.toNat ≤ s.cfg.fbSize ∧ Written s.fb 0 s.frameLen.toNat := by
  unfold Written; decide +kernel
/-- One byte unwritten in ether_type, in the payload length, and the next header. -/
theorem test_witness_ParseCompletesOnWrittenFrames_header :
    let a := unwrite 13 (withFrame frameNs)
    let b := unwrite 18 (withFrame frameNs)
    let c := unwrite 20 (withFrame frameNs)
    (54 ≤ a.frameLen.toNat ∧ firstUnwritten a.fb [12, 13] = some 13)
      ∧ (54 ≤ b.frameLen.toNat ∧ Holds b.fb 12 [0x86, 0xDD] ∧ firstUnwritten b.fb [18, 19] = some 18)
      ∧ (HeaderOk c ∧ memRead c.fb 20 = none) := by
  unfold HeaderOk Holds; decide +kernel
/-- The length field of the first Hop-by-Hop header, and the next header of the second, unwritten. -/
theorem test_witness_ParseCompletesOnWrittenFrames_chain :
    let a := unwrite 55 (withFrame frameHbh2)
    let b := unwrite 62 (withFrame frameHbh2)
    (HeaderOk a ∧ memRead a.fb 20 = some 0#8 ∧ 54 = 54 + chainBytes [] ∧ 54 + 8 ≤ a.frameLen.toNat ∧ memRead a.fb (54 + 1) = none)
      ∧ (HeaderOk b ∧ memRead b.fb 20 = some 0#8 ∧ Links b.fb b.frameLen.toNat 54 [0#8] ∧ 62 = 54 + chainBytes [0#8]
        ∧ memRead b.fb (62 + 1) = some 0#8 ∧ 62 + (8 + 8 * (0#8).toNat) ≤ b.frameLen.toNat ∧ memRead b.fb 62 = none) := by
  unfold HeaderOk Holds; simp only [Links]; decide +kernel
/-- The last byte of the message unwritten. -/
theorem test_witness_ParseCompletesOnWrittenFrames_message :
    let s := unwrite 77 (withFrame frameNs)
    HeaderOk s ∧ nextHeaderWalk s.fb s.frameLen.toNat = .ok (.arrived 54 0) ∧ 54 + 8 ≤ s.frameLen.toNat
      ∧ firstUnwritten s.fb ([54 + 2, 54 + 3] ++ List.range' 22 32 ++ List.range' 54 (s.frameLen.toNat - 54)) = some 77 := by
  unfold HeaderOk Holds; decide +kernel
theorem test_witness_HeaderStepsDiscard :
    let s := withFrame (frameNs.take 53)
    let u := withFrame (((frameNs.take 54).set 12 0x08#8).set 13 0x00#8)
    let v := withFrame (frameNs.take 54)
    (s.frameLen.toNat ≤ s.cfg.fbSize ∧ s.frameLen.toNat < 54)
      ∧ (54 ≤ u.frameLen.toNat ∧ Holds u.fb 12 [0x08, 0x00] ∧ (0x08 : Byte) ++ (0x00 : Byte) ≠ 0x86DD#16)
      ∧ (54 ≤ v.frameLen.toNat ∧ Holds v.fb 12 [0x86, 0xDD] ∧ Holds v.fb 18 [0, 24]
        ∧ ((0 : Byte) ++ (24 : Byte)).toNat ≠ v.frameLen.toNat - 54) := by
  unfold Holds; decide +kernel
/-- At the shortest frames each clause admits, at the first header and at the second. -/
theorem test_witness_NextHeaderStepDiscards :
    let a := withFrame (((frameNs.take 54).set 19 0#8).set 20 6#8)
    let b := withFrame ((frameHbh.take 61).set 19 7#8)
    let c := withFrame (((frameHbh.take 62).set 19 8#8).set 55 1#8)
    let d := withFrame (((frameHbh.take 62).set 19 8#8).set 54 6#8)
    (HeaderOk a ∧ memRead a.fb 20 = some 6#8)
      ∧ 54 = 54 + chainBytes []
      ∧ (HeaderOk b ∧ memRead b.fb 20 = some 0#8 ∧ b.frameLen.toNat < 54 + 8)
      ∧ (HeaderOk c ∧ memRead c.fb 20 = some 0#8 ∧ 54 + 8 ≤ c.frameLen.toNat ∧ memRead c.fb (54 + 1) = some 1#8
        ∧ c.frameLen.toNat < 54 + (8 + 8 * (1#8).toNat))
      ∧ (HeaderOk d ∧ memRead d.fb 20 = some 0#8 ∧ memRead d.fb (54 + 1) = some 0#8
        ∧ 54 + (8 + 8 * (0#8).toNat) ≤ d.frameLen.toNat ∧ memRead d.fb 54 = some 6#8) := by
  unfold HeaderOk Holds; decide +kernel
theorem test_witness_NextHeaderStepDiscards_second :
    let b := withFrame ((frameHbh2.take 69).set 19 15#8)
    let c := withFrame (((frameHbh2.take 70).set 19 16#8).set 63 1#8)
    let d := withFrame (((frameHbh2.take 70).set 19 16#8).set 62 6#8)
    62 = 54 + chainBytes [0#8]
      ∧ (HeaderOk b ∧ memRead b.fb 20 = some 0#8 ∧ Links b.fb b.frameLen.toNat 54 [0#8] ∧ b.frameLen.toNat < 62 + 8)
      ∧ (HeaderOk c ∧ memRead c.fb 20 = some 0#8 ∧ Links c.fb c.frameLen.toNat 54 [0#8] ∧ 62 + 8 ≤ c.frameLen.toNat
        ∧ memRead c.fb (62 + 1) = some 1#8 ∧ c.frameLen.toNat < 62 + (8 + 8 * (1#8).toNat))
      ∧ (HeaderOk d ∧ memRead d.fb 20 = some 0#8 ∧ Links d.fb d.frameLen.toNat 54 [0#8] ∧ memRead d.fb (62 + 1) = some 0#8
        ∧ 62 + (8 + 8 * (0#8).toNat) ≤ d.frameLen.toNat ∧ memRead d.fb 62 = some 6#8) := by
  unfold HeaderOk Holds; simp only [Links]; decide +kernel
/-- V-P0: no extension header; V-P9: a chain of two. -/
theorem test_witness_HopByHopChainIsWalked :
    memRead (withFrame frameNs).fb 20 = some 0x3A#8 ∧ memRead (withFrame frameHbh2).fb 20 = some 0#8 ∧ Chain (withFrame frameHbh2).fb 94 54 [0#8, 0#8] := by
  refine ⟨by decide +kernel, by decide +kernel, ?_⟩
  simp only [Chain]
  decide +kernel
theorem test_witness_WalkArrivesAligned :
    54 ≤ 94 ∧ nextHeaderWalk (withFrame frameHbh2).fb 94 = .ok (.arrived 70 2) := by decide +kernel
/-- One byte short of an ICMPv6 header. -/
theorem test_witness_IcmpStepsOutcomes_short :
    let s := withFrame ((frameNs.take 61).set 19 7#8)
    HeaderOk s ∧ nextHeaderWalk s.fb s.frameLen.toNat = .ok (.arrived 54 0) ∧ s.frameLen.toNat - 54 < 8 := by
  unfold HeaderOk Holds; decide +kernel
/-- V-P5. -/
theorem test_witness_IcmpStepsOutcomes_bad :
    let frame := frameNs.set 57 0xEC#8
    let s := withFrame frame
    let addrs := (frame.drop 22).take 32
    let m := frame.drop 54
    HeaderOk s ∧ nextHeaderWalk s.fb s.frameLen.toNat = .ok (.arrived 54 0) ∧ addrs.length = 32
      ∧ m.length = s.frameLen.toNat - 54 ∧ 8 ≤ m.length ∧ Holds s.fb 22 addrs ∧ Holds s.fb 54 m
      ∧ ~~~ (messageSum addrs m).extractLsb' 0 16 = 0x4CED#16 ∧ be16Of m 2 = 0x4CEC#16 := by
  unfold HeaderOk Holds; decide +kernel
/-- V-P14: exactly 8 bytes. -/
theorem test_witness_IcmpStepsOutcomes_other :
    let s := withFrame frameEcho
    let addrs := (frameEcho.drop 22).take 32
    let m := frameEcho.drop 54
    HeaderOk s ∧ nextHeaderWalk s.fb s.frameLen.toNat = .ok (.arrived 54 0) ∧ addrs.length = 32
      ∧ m.length = s.frameLen.toNat - 54 ∧ 8 ≤ m.length ∧ Holds s.fb 22 addrs ∧ Holds s.fb 54 m
      ∧ ~~~ (messageSum addrs m).extractLsb' 0 16 = 0x1213#16 ∧ be16Of m 2 = 0x1213#16 ∧ m.getD 0 0 = 128#8 := by
  unfold HeaderOk Holds; decide +kernel
/-- V-P7: 23 bytes. -/
theorem test_witness_NsOutcomes_short :
    let frame := (((frameNs.take 77).set 19 0x17#8).set 56 0x4C#8).set 57 0xEF#8
    let s := withFrame frame
    let addrs := (frame.drop 22).take 32
    let m := frame.drop 54
    HeaderOk s ∧ nextHeaderWalk s.fb s.frameLen.toNat = .ok (.arrived 54 0) ∧ addrs.length = 32
      ∧ m.length = s.frameLen.toNat - 54 ∧ 8 ≤ m.length ∧ Holds s.fb 22 addrs ∧ Holds s.fb 54 m
      ∧ ~~~ (messageSum addrs m).extractLsb' 0 16 = 0x4CEF#16 ∧ be16Of m 2 = 0x4CEF#16 ∧ m.getD 0 0 = 135#8
      ∧ m.length < 24 := by
  unfold HeaderOk Holds; decide +kernel
/-- V-P0: 24 bytes. -/
theorem test_witness_NsOutcomes_unspecified :
    let frame := frameNs
    let s := withFrame frame
    let addrs := (frame.drop 22).take 32
    let m := frame.drop 54
    HeaderOk s ∧ nextHeaderWalk s.fb s.frameLen.toNat = .ok (.arrived 54 0) ∧ addrs.length = 32
      ∧ m.length = s.frameLen.toNat - 54 ∧ 8 ≤ m.length ∧ Holds s.fb 22 addrs ∧ Holds s.fb 54 m
      ∧ ~~~ (messageSum addrs m).extractLsb' 0 16 = 0x4CED#16 ∧ be16Of m 2 = 0x4CED#16 ∧ m.getD 0 0 = 135#8
      ∧ 24 ≤ m.length ∧ (∀ j < 16, addrs.getD j 0 = 0#8)
      ∧ ip6Of m 8 = ⟨0x20010DB8#32, 0#32, 0#32, 1#32⟩ := by
  unfold HeaderOk Holds; decide +kernel
/-- V-P7c: 31 bytes. -/
theorem test_witness_NsOutcomes_no_slla :
    let frame := (((frameNsSlla.take 85).set 19 0x1F#8).set 56 0x4C#8).set 57 0x62#8
    let s := withFrame frame
    let addrs := (frame.drop 22).take 32
    let m := frame.drop 54
    HeaderOk s ∧ nextHeaderWalk s.fb s.frameLen.toNat = .ok (.arrived 54 0) ∧ addrs.length = 32
      ∧ m.length = s.frameLen.toNat - 54 ∧ 8 ≤ m.length ∧ Holds s.fb 22 addrs ∧ Holds s.fb 54 m
      ∧ ~~~ (messageSum addrs m).extractLsb' 0 16 = 0x4C62#16 ∧ be16Of m 2 = 0x4C62#16 ∧ m.getD 0 0 = 135#8
      ∧ 24 ≤ m.length ∧ m.length < 32 ∧ ¬ (∀ j < 16, addrs.getD j 0 = 0#8) := by
  unfold HeaderOk Holds; decide +kernel
/-- V-P7d: 32 bytes, the first option is not type 1. -/
theorem test_witness_NsOutcomes_bad_slla :
    let frame := ((frameNsSlla.set 78 2#8).set 56 0x4B#8).set 57 0x5F#8
    let s := withFrame frame
    let addrs := (frame.drop 22).take 32
    let m := frame.drop 54
    HeaderOk s ∧ nextHeaderWalk s.fb s.frameLen.toNat = .ok (.arrived 54 0) ∧ addrs.length = 32
      ∧ m.length = s.frameLen.toNat - 54 ∧ 8 ≤ m.length ∧ Holds s.fb 22 addrs ∧ Holds s.fb 54 m
      ∧ ~~~ (messageSum addrs m).extractLsb' 0 16 = 0x4B5F#16 ∧ be16Of m 2 = 0x4B5F#16 ∧ m.getD 0 0 = 135#8
      ∧ 32 ≤ m.length ∧ ¬ (∀ j < 16, addrs.getD j 0 = 0#8) ∧ m.getD 24 0 = 2#8 ∧ m.getD 25 0 = 1#8 := by
  unfold HeaderOk Holds; decide +kernel
/-- V-P0c: 32 bytes; its addresses and link-layer address as that vector prints their registers. -/
theorem test_witness_NsOutcomes_slla :
    let frame := frameNsSlla
    let s := withFrame frame
    let addrs := (frame.drop 22).take 32
    let m := frame.drop 54
    HeaderOk s ∧ nextHeaderWalk s.fb s.frameLen.toNat = .ok (.arrived 54 0) ∧ addrs.length = 32
      ∧ m.length = s.frameLen.toNat - 54 ∧ 8 ≤ m.length ∧ Holds s.fb 22 addrs ∧ Holds s.fb 54 m
      ∧ ~~~ (messageSum addrs m).extractLsb' 0 16 = 0x4C5F#16 ∧ be16Of m 2 = 0x4C5F#16 ∧ m.getD 0 0 = 135#8
      ∧ 32 ≤ m.length ∧ ¬ (∀ j < 16, addrs.getD j 0 = 0#8) ∧ m.getD 24 0 = 1#8 ∧ m.getD 25 0 = 1#8
      ∧ ip6Of addrs 0 = ⟨0xFE800000#32, 0#32, 0xFF#32, 0xFE000002#32⟩ ∧ be16Of m 26 = 0x0200#16 ∧ be32Of m 28 = 2#32 := by
  unfold HeaderOk Holds; decide +kernel
/-- V-P7e: 23 bytes. -/
theorem test_witness_NaOutcomes_short :
    let frame := (((frameNa.take 77).set 19 0x17#8).set 56 0xDD#8).set 57 0x36#8
    let s := withFrame frame
    let addrs := (frame.drop 22).take 32
    let m := frame.drop 54
    HeaderOk s ∧ nextHeaderWalk s.fb s.frameLen.toNat = .ok (.arrived 54 0) ∧ addrs.length = 32
      ∧ m.length = s.frameLen.toNat - 54 ∧ 8 ≤ m.length ∧ Holds s.fb 22 addrs ∧ Holds s.fb 54 m
      ∧ ~~~ (messageSum addrs m).extractLsb' 0 16 = 0xDD36#16 ∧ be16Of m 2 = 0xDD36#16 ∧ m.getD 0 0 = 136#8
      ∧ m.length < 24 := by
  unfold HeaderOk Holds; decide +kernel
/-- V-F1 with type 136 and its checksum less 0x0100: 24 bytes. -/
theorem test_witness_NaOutcomes_na :
    let frame := ((frameNs.set 54 136#8).set 56 0x4B#8).set 57 0xED#8
    let s := withFrame frame
    let addrs := (frame.drop 22).take 32
    let m := frame.drop 54
    HeaderOk s ∧ nextHeaderWalk s.fb s.frameLen.toNat = .ok (.arrived 54 0) ∧ addrs.length = 32
      ∧ m.length = s.frameLen.toNat - 54 ∧ 8 ≤ m.length ∧ Holds s.fb 22 addrs ∧ Holds s.fb 54 m
      ∧ ~~~ (messageSum addrs m).extractLsb' 0 16 = 0x4BED#16 ∧ be16Of m 2 = 0x4BED#16 ∧ m.getD 0 0 = 136#8
      ∧ 24 ≤ m.length := by
  unfold HeaderOk Holds; decide +kernel
/-- Two frames that differ in an Ethernet byte, the version byte, the hop limit and a byte past the end; and two that differ in
the options of their Hop-by-Hop header, which are the bytes 56 to 61. -/
theorem test_witness_ParseIgnoresUncheckedBytes :
    (∀ j < 78, 12 ≤ j → ¬ (14 ≤ j ∧ j < 18) → j ≠ 21 →
        memRead (withFrame frameNs).fb j
          = memRead (withFrame (((frameNs.set 0 9#8).set 14 0#8).set 21 0#8 ++ [7#8])).fb j)
      ∧ ∀ j < 86, 12 ≤ j → ¬ (14 ≤ j ∧ j < 18) → j ≠ 21 → ¬ HopOption (withFrame frameHbh).fb 86 j →
        memRead (withFrame frameHbh).fb j = memRead (withFrame ((frameHbh.set 56 5#8).set 61 9#8)).fb j := by
  refine ⟨by decide +kernel, fun j hj _ _ _ hn => ?_⟩
  by_cases h : 56 ≤ j ∧ j < 62
  · refine absurd ⟨by decide +kernel, [], 0#8, trivial, by decide +kernel, by decide +kernel, h.1, h.2⟩ hn
  · have := (by decide +kernel : ∀ j < 86, ¬ (56 ≤ j ∧ j < 62) →
      memRead (withFrame frameHbh).fb j = memRead (withFrame ((frameHbh.set 56 5#8).set 61 9#8)).fb j)
    exact this j hj h

theorem test_witness_FilterGenWritesTheProgram : Memory.wf State.reset.prog := by decide
/-- V-B10, V-B11, V-B1m. -/
theorem test_witness_FilterRunStartChecks :
    State.reset.progLen = 0#9 ∧ State.reset.cfg.progCap < { State.reset with progLen := 17#9 }.progLen.toNat
      ∧ (let s := { State.reset with progLen := 16#9, frameLen := 4097#16 };
        s.progLen ≠ 0#9 ∧ s.progLen.toNat ≤ s.cfg.progCap ∧ s.cfg.fbSize < s.frameLen.toNat) := by decide
/-- The last halfword of a frame, one past it, and an unwritten one. -/
theorem test_witness_LdhLoadsHalfwordOrDrops :
    let s := inRun 0#32 0 1 1 (withFrame [1#8, 2#8, 3#8])
    let u := { s with fb := [(0, 1#8), (1, 2#8)] }
    s.run = some { a := 0#32, pc := 0, steps := 1 } ∧ s.frameLen.toNat < (2#32).toNat + 2
      ∧ ((1#32).toNat + 2 ≤ s.frameLen.toNat ∧ memRead s.fb (1#32).toNat = some 2#8 ∧ memRead s.fb ((1#32).toNat + 1) = some 3#8)
      ∧ ((1#32).toNat + 2 ≤ u.frameLen.toNat ∧ firstUnwritten u.fb [(1#32).toNat, (1#32).toNat + 1] = some 2) := by
  decide +kernel
theorem test_witness_LdbLoadsByteOrDrops :
    let s := inRun 0#32 0 1 1 (withFrame [1#8, 2#8, 3#8])
    let u := { s with fb := [(0, 1#8), (1, 2#8)] }
    s.run = some { a := 0#32, pc := 0, steps := 1 } ∧ s.frameLen.toNat < (3#32).toNat + 1
      ∧ ((2#32).toNat + 1 ≤ s.frameLen.toNat ∧ memRead s.fb (2#32).toNat = some 3#8)
      ∧ ((2#32).toNat + 1 ≤ u.frameLen.toNat ∧ memRead u.fb (2#32).toNat = none) := by decide +kernel
theorem test_witness_JeqBranchesForward :
    (inRun 5#32 0 1 1 State.reset).run = some { a := 5#32, pc := 0, steps := 1 }
      ∧ ({ a := 5#32, pc := 0, steps := 1 } : BpfRun).a = 5#32 ∧ ({ a := 5#32, pc := 0, steps := 1 } : BpfRun).a ≠ 4#32 := by decide
theorem test_witness_RetEndsWithItsValue :
    (inRun 5#32 3 4 4 State.reset).run = some { a := 5#32, pc := 3, steps := 4 } := by decide
theorem test_witness_IllegalEntryFailsTheRun :
    (inRun 0x88#32 3 3 4 State.reset).run = some { a := 0x88#32, pc := 3, steps := 3 } := by decide
/-- V-B4 at its end: pc is PROG_LEN. -/
theorem test_witness_FetchPastTheEndFailsTheRun :
    let s := inRun 0x86DD#32 1 1 1 State.reset
    s.run = some { a := 0x86DD#32, pc := 1, steps := 1 } ∧ s.progLen.toNat ≤ 1 := by decide
theorem test_witness_FilterRunRefinesEntrySteps :
    let s := { State.reset with progLen := 16#9, frameLen := 4096#16 }
    s.progLen ≠ 0#9 ∧ s.progLen.toNat ≤ s.cfg.progCap ∧ s.frameLen.toNat ≤ s.cfg.fbSize := by decide
/-- V-B6. -/
theorem test_witness_FilterRunCompletesOnWrittenPrograms :
    let s := { withFrame frameEcho with progLen := 1#9, prog := [(0, 0x6#32), (1, 0#32)] }
    s.progLen ≠ 0#9 ∧ s.progLen.toNat ≤ s.cfg.progCap ∧ s.frameLen.toNat ≤ s.cfg.fbSize ∧ s.cfg.progCap ≤ 256
      ∧ (∀ i < 2 * s.progLen.toNat, (memRead s.prog i).isSome = true) ∧ Written s.fb 0 s.frameLen.toNat := by
  unfold Written; decide +kernel
/-- The run comes to an entry with PROG_CODE or PROG_K unwritten, and to a load of an unwritten byte inside the frame. -/
theorem test_witness_FilterRunCompletesOnWrittenPrograms_unwritten :
    let s := { withFrame frameNs with progLen := 2#9, prog := [(0, 0x28#32), (1, 12#32)] }
    let u := { s with prog := [(0, 0x28#32), (1, 12#32), (2, 0x6#32)] }
    let v := { unwrite 13 s with prog := [(0, 0x28#32), (1, 12#32)] }
    let r : BpfRun := { a := 0x86DD#32, pc := 1, steps := 1 }
    (∃ t, core.run 1 { s with run := some { a := 0, pc := 0, steps := 0 } } = .next t ∧ t.run = some r)
      ∧ (∃ t, core.run 1 { u with run := some { a := 0, pc := 0, steps := 0 } } = .next t ∧ t.run = some r)
      ∧ s.progLen ≠ 0#9 ∧ s.progLen.toNat ≤ s.cfg.progCap ∧ s.frameLen.toNat ≤ s.cfg.fbSize ∧ r.pc < s.progLen.toNat
      ∧ memRead s.prog (2 * r.pc) = none
      ∧ (memRead u.prog (2 * r.pc) = some 0x6#32 ∧ memRead u.prog (2 * r.pc + 1) = none)
      ∧ core.run 0 { v with run := some { a := 0, pc := 0, steps := 0 } }
          = .next { v with run := some { a := 0, pc := 0, steps := 0 } }
      ∧ (memRead v.prog 0 = some 0x28#32 ∧ memRead v.prog 1 = some 12#32 ∧ (0x28#32).extractLsb' 0 16 = 0x0028#16
        ∧ (12#32).toNat + 2 ≤ v.frameLen.toNat ∧ firstUnwritten v.fb [(12#32).toNat, (12#32).toNat + 1] = some 13) := by
  refine ⟨next_of (by decide +kernel), next_of (by decide +kernel), by decide +kernel, by decide +kernel, by decide +kernel,
    by decide +kernel, by decide +kernel, by decide +kernel, rfl, by decide +kernel⟩
/-- The same for `ldb`. -/
theorem test_witness_FilterRunCompletesOnWrittenPrograms_ldb :
    let s := { unwrite 54 (withFrame frameNs) with progLen := 1#9, prog := [(0, 0x30#32), (1, 54#32)] }
    core.run 0 { s with run := some { a := 0, pc := 0, steps := 0 } } = .next { s with run := some { a := 0, pc := 0, steps := 0 } }
      ∧ memRead s.prog 0 = some 0x30#32 ∧ memRead s.prog 1 = some 54#32 ∧ (0x30#32).extractLsb' 0 16 = 0x0030#16
      ∧ (54#32).toNat + 1 ≤ s.frameLen.toNat ∧ memRead s.fb (54#32).toNat = none :=
  ⟨rfl, by decide +kernel⟩
/-- V-B1i: an accepted frame of 55 bytes. -/
theorem test_witness_GeneratedProgramDecision :
    let s := { withFrame (frameNs.take 55) with progLen := 9#9, prog := cellsFrom 0 genTable }
    HoldsGen s ∧ 9 ≤ s.cfg.progCap ∧ s.frameLen.toNat ≤ s.cfg.fbSize ∧ Written s.fb 0 s.frameLen.toNat
      ∧ 55 ≤ s.frameLen.toNat ∧ memRead s.fb 54 = some 135#8 := by
  unfold HoldsGen Written; decide +kernel
/-- V-X1. -/
theorem test_witness_ParseAcceptImpliesFilterAccept :
    let s := { withFrame frameNs with progLen := 9#9, prog := cellsFrom 0 genTable }
    HoldsGen s ∧ 9 ≤ s.cfg.progCap
      ∧ ∃ t, exec (.parse false) s = .next t ∧ t.errcode = .ok ∧ t.parse.verdict = .ns ∧ t.parse.extCount = 0#16 :=
  ⟨by unfold HoldsGen; decide +kernel, by decide, next_of (by decide +kernel)⟩
theorem test_witness_DialectChangesNoCommand :
    ∃ t, exec (decodeOp 4#4 false) State.reset = .next t ∧ t.progLen = 9#9 := next_of (by decide +kernel)
theorem test_witness_StartErrorsArePrecise :
    (∃ t, exec (decodeOp 8#4 false) State.reset = .next t ∧ t.errcode = .illegalCmd)
      ∧ (∃ t, exec (decodeOp 1#4 false) (operands 4095 0 2 State.reset) = .next t ∧ t.errcode = .range)
      ∧ (∃ t, exec (decodeOp 2#4 false) (operands 14 54 3 State.reset) = .next t ∧ t.errcode = .short)
      ∧ ∃ t, exec (decodeOp 5#4 false) State.reset = .next t ∧ t.errcode = .progLen :=
  ⟨next_of (by decide +kernel), next_of (by decide +kernel), next_of (by decide +kernel), next_of (by decide +kernel)⟩
theorem test_witness_InstructionsWriteOnlyTheirResults :
    ∃ t, exec (.csumIcmp6 true) (operands 14 54 24 (withFrame frameNs)) = .next t ∧ t.acc = 0xB312#32 :=
  next_of (by decide +kernel)

/-- The offsets of the RW registers and the first and last program entry. -/
theorem test_witness_RegisterWritesStoreTheirField :
    ∀ off ∈ [0x010, 0x014, 0x018, 0x01C, 0x020, 0x024, 0x030, 0x034, 0x100, 0x104, 0x100 + 8 * 15, 0x104 + 8 * 15],
      let s := { State.reset with turns := [w32 .default off 0xFFFFFFFF#32] }
      s.run = none ∧ s.pending = none ∧ s.turns = [.host (.write .w32 (s.cfg.base + off) 0xFFFFFFFF#32)]
        ∧ 15 < s.cfg.progCap ∧ s.cfg.progCap ≤ 256 := by decide
theorem test_witness_ReadOnlyAndReservedIgnoreWrites :
    ∀ off ∈ [0x000, 0x004, 0x028, 0x02C, 0x038, 0x0FC, 0x180, 0xFFFC],
      let s := { State.reset with turns := [w32 .default off 1#32] }
      s.run = none ∧ s.turns = [.host (.write .w32 (s.cfg.base + off) 1#32)] ∧ off % 4 = 0
        ∧ (off = 0x000 ∨ off = 0x004 ∨ off = 0x028 ∨ off = 0x02C ∨ (0x038 ≤ off ∧ off < 0x100)
          ∨ (0x100 + 8 * s.cfg.progCap ≤ off ∧ off < 0x10000)) := by decide
/-- The first byte at FB_SIZE, while a command waits. -/
theorem test_witness_FbWritesStoreByteLanes_busy :
    let s := { pend 1#4 false State.reset with turns := [w8 .default (0x10000 + 4096) 1#32] }
    s.run = none ∧ s.pending = some { op := 1#4, wb := false } ∧ s.cfg.fbSize ≤ 4096
      ∧ s.turns = [.host (.write .w8 (s.cfg.base + (0x10000 + 4096)) 1#32)] ∧ 4096 % Width.w8.bytes = 0 := by decide
/-- The first word of FB, the last below FB_SIZE, and the first at FB_SIZE. -/
theorem test_witness_FbWritesStoreByteLanes :
    ∀ j ∈ [0, 4092, 4096],
      let s := { State.reset with turns := [w32 .default (0x10000 + j) 0x01020304#32] }
      s.run = none ∧ s.pending = none ∧ s.turns = [.host (.write .w32 (s.cfg.base + (0x10000 + j)) 0x01020304#32)]
        ∧ j % Width.w32.bytes = 0 ∧ j < 0x10000 := by decide
/-- V-M1, V-M2, a read of the last byte, one at FB_SIZE, one while a CSUM_ICMP6 may write the two bytes before,
and one at FB_SIZE while a CSUM_ICMP6 has its field there. -/
theorem test_witness_FbReadsReturnByteLanes :
    (let s := { withFrame frameNs with turns := [r16 .default 0x1000C] };
      s.run = none ∧ s.pending = none ∧ s.turns = [.host (.read .w16 (s.cfg.base + (0x10000 + 12)))]
        ∧ (∀ i < 2, 12 + i < s.cfg.fbSize ∧ memRead s.fb (12 + i) = some ([0x86#8, 0xDD#8].getD i 0#8)))
      ∧ (let s := { withFrame frameNs with turns := [r32 .default 0x10014] };
        s.run = none ∧ s.pending = none ∧ s.turns = [.host (.read .w32 (s.cfg.base + (0x10000 + 20)))]
          ∧ (∀ i < 4, 20 + i < s.cfg.fbSize ∧ memRead s.fb (20 + i) = some ([0x3A#8, 0xFF#8, 0#8, 0#8].getD i 0#8)))
      ∧ (let s := { State.reset with fb := [(4095, 7#8)], turns := [r8 .default (0x10000 + 4095)] };
        s.turns = [.host (.read .w8 (s.cfg.base + (0x10000 + 4095)))] ∧ 4095 < s.cfg.fbSize ∧ memRead s.fb 4095 = some 7#8)
      ∧ (∀ i < 4, ¬ 4096 + i < State.reset.cfg.fbSize)
      ∧ (let s := { pend 2#4 true (operands 14 54 24 (withFrame frameNs)) with turns := [r16 .default (0x10000 + 58)] };
        s.run = none ∧ s.pending = some { op := 2#4, wb := true }
          ∧ (∀ i < 2, 58 + i < s.cfg.fbSize ∧ 58 + i ≠ s.opb.toNat + 2 ∧ 58 + i ≠ s.opb.toNat + 3)
          ∧ s.turns = [.host (.read .w16 (s.cfg.base + (0x10000 + 58)))])
      ∧ (let s := { pend 2#4 true (operands 14 4094 24 State.reset) with turns := [r8 .default (0x10000 + 4096)] };
        ¬ 4096 < s.cfg.fbSize ∧ s.opb.toNat + 2 = 4096 ∧ s.turns = [.host (.read .w8 (s.cfg.base + (0x10000 + 4096)))]) := by
  decide +kernel
/-- The last byte of FB; a word whose first byte alone is written; the last program entry. -/
theorem test_witness_HostReadOfUnwrittenFaults :
    (let s := { State.reset with turns := [r8 .default (0x10000 + 4095)] };
      s.run = none ∧ s.turns = [.host (.read .w8 (s.cfg.base + (0x10000 + 4095)))]
        ∧ firstUnwritten s.fb ((List.range' 4095 Width.w8.bytes).filter fun x => decide (x < s.cfg.fbSize)) = some 4095)
      ∧ (let s := { State.reset with fb := [(8, 1#8)], turns := [r32 .default (0x10000 + 8)] };
        s.turns = [.host (.read .w32 (s.cfg.base + (0x10000 + 8)))] ∧ 8 % Width.w32.bytes = 0
        ∧ firstUnwritten s.fb ((List.range' 8 Width.w32.bytes).filter fun x => decide (x < s.cfg.fbSize)) = some 9)
      ∧ (let s := { State.reset with turns := [r32 .default (0x100 + 8 * 15)] };
        s.turns = [.host (.read .w32 (s.cfg.base + (0x100 + 8 * 15)))] ∧ 15 < s.cfg.progCap ∧ memRead s.prog (2 * 15) = none)
      ∧ (let s := { State.reset with turns := [r32 .default (0x104 + 8 * 15)] };
        s.turns = [.host (.read .w32 (s.cfg.base + (0x104 + 8 * 15)))] ∧ 15 < s.cfg.progCap ∧ memRead s.prog (2 * 15 + 1) = none) := by
  decide
/-- Places the pending command may write: the checksum field, and the first program word. -/
theorem test_witness_HostReadOfUnwrittenFaults_busy :
    (let s := { pend 2#4 true (operands 14 54 24 State.reset) with turns := [r16 .default (0x10000 + 56)] };
      s.run = none ∧ s.pending = some { op := 2#4, wb := true } ∧ s.turns = [.host (.read .w16 (s.cfg.base + (0x10000 + 56)))]
        ∧ firstUnwritten s.fb ((List.range' 56 Width.w16.bytes).filter fun x => decide (x < s.cfg.fbSize)) = some 56)
      ∧ (let s := { pend 4#4 false State.reset with turns := [r32 .default (0x100 + 8 * 0)] };
        s.run = none ∧ s.pending = some { op := 4#4, wb := false }
          ∧ s.turns = [.host (.read .w32 (s.cfg.base + (0x100 + 8 * 0)))] ∧ memRead s.prog (2 * 0) = none) := by
  decide
theorem test_witness_BusErrorHasNoEffect :
    (let s := { State.reset with turns := [w16 .default 0x014 1#32] };
      s.run = none ∧ s.turns = [.host (.write .w16 (s.cfg.base + 0x014) 1#32)] ∧ 0x014 < 0x10000 ∧ Width.w16 ≠ .w32)
      ∧ (let s := { State.reset with turns := [r32 .default 0x1FFFE] };
        s.turns = [.host (.read .w32 (s.cfg.base + 0x1FFFE))] ∧ 0x1FFFE < 0x20000 ∧ 0x1FFFE % Width.w32.bytes ≠ 0) := by decide
/-- Every operand register, the first and last program word, the first and last FB byte, CTRL and FCFG. -/
theorem test_witness_OperandWritesWhileBusyAreHazards :
    ∀ x ∈ [(Width.w32, 0x014), (.w32, 0x018), (.w32, 0x01C), (.w32, 0x020), (.w32, 0x024), (.w32, 0x034), (.w32, 0x100),
        (.w32, 0x100 + 8 * 16 - 4), (.w8, 0x10000), (.w16, 0x10000 + 4094), (.w32, 0x010), (.w32, 0x030)],
      let s := { pend 1#4 false State.reset with turns := [.host (.write x.1 x.2 1#32)] }
      s.run = none ∧ s.pending = some { op := 1#4, wb := false } ∧ s.turns = [.host (.write x.1 (s.cfg.base + x.2) 1#32)]
        ∧ s.cfg.Legal ∧ x.2 % x.1.bytes = 0 := by decide
theorem test_witness_HostReadsHaveNoSideEffects :
    ∃ t, hostAccess (.read .w32 0) State.reset = .next t ∧ t.readData = some 0x4E445045#32 := next_of (by decide +kernel)
/-- The ends of both register tables, the first and last program words and the ends of the reserved ranges, while a NOP waits. -/
theorem test_witness_HostReadsHaveNoSideEffects_offsets :
    ∀ off ∈ [0x000, 0x040, 0x044, 0x08C, 0x100, 0x104 + 8 * 15, 0x054, 0x090, 0x0FC, 0x180, 0xFFFC],
      let s := { pend 0#4 false (withPlaces State.reset) with turns := [r32 .default off] }
      s.run = none ∧ s.turns = [.host (.read .w32 (s.cfg.base + off))] ∧ (∀ c, s.pending = some c → c.op ∉ [4#4, 5#4, 3#4])
        ∧ 15 < s.cfg.progCap ∧ s.cfg.progCap ≤ 256 ∧ memRead s.prog (2 * 0) = some 1#32
        ∧ memRead s.prog (2 * 15 + 1) = some 2#32 ∧ 0x100 + 8 * s.cfg.progCap = 0x180 ∧ off % 4 = 0 := by
  intro off h
  simp only [List.mem_cons, List.not_mem_nil, or_false] at h
  rcases h with rfl | rfl | rfl | rfl | rfl | rfl | rfl | rfl | rfl | rfl | rfl <;>
    exact ⟨rfl, rfl, by rintro c ⟨⟩; decide, by decide, by decide, by decide, by decide, by decide, by decide⟩
/-- V-P5: PCSUM and PVERDICT; and STATUS as the host reads it after a reserved command (R281). -/
theorem test_read_fields :
    (∃ t, step (pend 3#4 false (withFrame (frameNs.set 57 0xEC#8))) = .next t
        ∧ readReg t .pcsum = 0x4CED4CEC#32 ∧ readReg t .pverdict = 0x87000804#32)
      ∧ ∃ t, step { pend 8#4 false State.reset with turns := [.engine, r32 .default 0x00C] } = .next t
        ∧ ∃ u, step t = .next u ∧ u.readData = some 0x00080106#32 :=
  ⟨next_of (by decide +kernel), by
    obtain ⟨t, ht, h⟩ := next_of (P := fun t => nextAnd (step t) (fun u => decide (u.readData = some 0x00080106#32)) = true)
      (by decide +kernel : nextAnd (step { pend 8#4 false State.reset with turns := [.engine, r32 .default 0x00C] })
        (fun t => decide (nextAnd (step t) (fun u => decide (u.readData = some 0x00080106#32)) = true)) = true)
    exact ⟨t, ht, next_of h⟩⟩
/-- A result register of each command that writes one, and the four registers that read as they are. -/
theorem test_witness_ResultReadsWhileBusyAreFree :
    ∀ x ∈ [(1#4, 0x024), (2#4, 0x028), (3#4, 0x044), (3#4, 0x08C), (4#4, 0x02C), (5#4, 0x038), (5#4, 0x040), (5#4, 0x000),
        (5#4, 0x004), (5#4, 0x00C), (5#4, 0x010)],
      let s := { pend x.1 false State.reset with turns := [r32 .default x.2] }
      s.run = none ∧ s.pending = some { op := x.1, wb := false } ∧ s.turns = [.host (.read .w32 (s.cfg.base + x.2))] := by decide
/-- The last program word FILTER_GEN writes; and the checksum field of a CSUM_ICMP6 with WB = 1, by a byte of it, by a halfword, and
by a word that holds two bytes more. -/
theorem test_witness_ResultReadsWhileBusyAreFree_places :
    (let s := { pend 4#4 false { State.reset with prog := cellsFrom 0 genTable } with turns := [r32 .default (0x104 + 8 * 8)] };
      s.run = none ∧ s.pending = some { op := 4#4, wb := false } ∧ 8 < s.cfg.progCap ∧ memRead s.prog (2 * 8 + 1) = some 0#32
        ∧ s.turns = [.host (.read .w32 (s.cfg.base + (0x104 + 8 * 8)))])
      ∧ ∀ x ∈ [(Width.w8, 57), (.w16, 56), (.w32, 56)],
        let s := { pend 2#4 true (operands 14 54 24 (withFrame frameNs)) with turns := [.host (.read x.1 (0x10000 + x.2))] }
        s.run = none ∧ s.pending = some { op := 2#4, wb := true } ∧ s.turns = [.host (.read x.1 (s.cfg.base + (0x10000 + x.2)))]
          ∧ x.2 % x.1.bytes = 0 ∧ s.opb.toNat + 2 = 56
          ∧ ∀ i < x.1.bytes, x.2 + i < s.cfg.fbSize ∧ (memRead s.fb (x.2 + i)).isSome = true := by
  decide +kernel

theorem test_witness_ResetValuesAndPulse :
    let s := { pend 5#4 false (withFrame frameEcho) with turns := [.reset] }
    s.run = none ∧ s.turns = [.reset] := by decide +kernel
theorem test_witness_ParametersAndRecordedFaultsStay :
    ∃ t, step { State.reset with faults := [.hostBusError .w8 3], turns := [.reset] } = .next t
      ∧ t.faults = [.hostBusError .w8 3] := next_of (by decide +kernel)
/-- A parameter choice at each end of the legal ranges. -/
theorem test_witness_ResetMeetsTheInvariant :
    Params.Legal { fbSize := 1294, progCap := 9, base := 0, irqLine := 0 }
      ∧ Params.Legal { fbSize := 65535, progCap := 256, base := 0x40000000, irqLine := 7 } := by decide
theorem test_witness_EveryStepKeepsTheInvariant :
    State.reset.Inv ∧ ∃ t, step State.reset = .next t ∧ t = State.reset :=
  ⟨{ legal := by decide, mem := by unfold State.MemInv; decide, status := by unfold State.StatusInv; decide, idleRun := rfl,
     filter := by unfold State.FilterInv; decide,
     parse := ⟨by decide, by decide, by decide, by decide, by decide, by decide, by decide⟩ },
   next_of (by decide)⟩

end Sys2Proof.Tests
end

section
/-!
What the engine and the host leave alone: every command that goes on completes, and no step changes the parameters or removes a
recorded fault (R25, R52, R288).
-/
namespace Sys2Proof.Machine

/-- A command has completed (R52): the status is settled, a run it started has ended, and what no command and no entry of the
filter program touches is as before. -/
structure Completed (s t : State) : Prop where
  pending : t.pending = none
  done : t.done = true
  err : t.err = decide (t.errcode ≠ .ok)
  run : t.run = s.run ∨ t.run = none
  cfg : t.cfg = s.cfg
  irqEn : t.irqEn = s.irqEn
  ovr : t.ovr = s.ovr
  lastop : t.lastop = s.lastop
  faults : t.faults = s.faults

theorem RunEnds.completed {r : BpfRun} {s t : State} (h : RunEnds r s t) : Completed s t := by
  obtain ⟨code, v, oob, -, rfl⟩ := h
  exact ⟨rfl, rfl, rfl, .inr rfl, rfl, rfl, rfl, rfl, rfl⟩

theorem CommandEnds.completed {s t : State} (h : CommandEnds s t) : Completed s t := by
  cases h with
  | filterRun q _ _ _ h => exact h.completed
  | _ => subst t; exact ⟨rfl, rfl, rfl, .inl rfl, rfl, rfl, rfl, rfl, rfl⟩

/-- The latch's content decodes to the command of its OP and WB (R103). -/
theorem decodeCommand_commandWord (op : BitVec 4) (wb : Bool) : decodeCommand (commandWord op wb) = decodeOp op wb := by
  simp [decodeCommand]

theorem engineStep_ends {c : Pending} {s t : State} (h : engineStep c s = .next t) : CommandEnds s t := by
  rw [engineStep, decodeCommand_commandWord] at h
  exact command_cases h

/-! ## The parameters and the recorded faults -/

/-- The parameters are the same and no recorded fault has gone. -/
structure KeepsRecord (s t : State) : Prop where
  cfg : t.cfg = s.cfg
  faults : s.faults <+: t.faults

theorem KeepsRecord.of_eq {s t : State} (hc : t.cfg = s.cfg) (hf : t.faults = s.faults) : KeepsRecord s t :=
  ⟨hc, hf ▸ List.prefix_refl _⟩

theorem writeReg_keepsRecord (v : Word) (s : State) (r : Reg) : KeepsRecord s (writeReg v s r) := by
  cases r with
  | cmd =>
    cases hp : s.pending with
    | none => rw [writeReg, writeCmd_idle hp]; exact .of_eq rfl rfl
    | some c => rw [writeReg, writeCmd_busy hp]; exact .of_eq rfl rfl
  | _ => exact .of_eq rfl rfl

theorem writePlace_keepsRecord (v : Word) (s : State) (p : Place) : KeepsRecord s (writePlace v s p) := by
  cases p with
  | reg r => exact writeReg_keepsRecord v s r
  | _ => exact .of_eq rfl rfl

theorem hostAccess_keepsRecord {a : Access} {s t : State} (h : hostAccess a s = .next t) : KeepsRecord s t := by
  cases a with
  | read w addr =>
    obtain ⟨d, n, f, rfl⟩ := hostRead_frame h
    exact ⟨rfl, List.prefix_append _ _⟩
  | write w addr v =>
    rcases hostWrite_cases h with rfl | ⟨off, rfl⟩ | ⟨off, -, -, rfl⟩ | ⟨fb, -, -, rfl⟩
    · exact .of_eq rfl rfl
    · exact ⟨rfl, List.prefix_append _ _⟩
    · exact writePlace_keepsRecord v s _
    · exact .of_eq rfl rfl

/-- Inside a run an entry is counted, then it moves the run on or ends it. -/
theorem step_inside_keepsRecord {s t : State} {r : BpfRun} (hr : s.run = some r) (h : step s = .next t) : KeepsRecord s t := by
  rcases step_cases_inside hr h with he | ⟨c, k, he⟩
  · exact .of_eq he.completed.cfg he.completed.faults
  · rw [← execEntry_eq_exec] at he
    rcases execEntry_cases rfl he with ⟨a, pc, -, -, rfl⟩ | he
    · exact .of_eq rfl rfl
    · exact .of_eq he.completed.cfg he.completed.faults

theorem step_between_keepsRecord {s t : State} (hr : s.run = none) (h : step s = .next t) : KeepsRecord s t := by
  obtain ⟨ts, rfl | ⟨c, -, he⟩ | ⟨a, ha⟩ | rfl⟩ := step_cases_between hr h
  · exact .of_eq rfl rfl
  · have hc := (engineStep_ends he).completed
    exact .of_eq hc.cfg hc.faults
  · obtain ⟨hc, hf⟩ := hostAccess_keepsRecord ha
    exact ⟨hc, hf⟩
  · exact .of_eq rfl rfl

/-- Settles O58: inside a run by what an entry can do, between two turns by what each turn can do. -/
theorem parametersAndRecordedFaultsStay : Obligations.ParametersAndRecordedFaultsStay := by
  intro s t h
  obtain ⟨hc, hf⟩ : KeepsRecord s t := by
    cases hr : s.run with
    | none => exact step_between_keepsRecord hr h
    | some r => exact step_inside_keepsRecord hr h
  exact ⟨hc, hf⟩

/-! ## Completion -/

/-- The IRQ output is IRQ_EN and DONE (R60). -/
theorem irq_iff (s : State) : s.irq = true ↔ s.irqEn = true ∧ s.done = true := by simp [State.irq]

theorem engineTurn_pending {s : State} {c : Pending} (h : s.pending = some c) : engineTurn s = engineStep c s := by
  simp [engineTurn, h]

/-- Settles O12: the engine's turn on a pending command ends in a completed one; IRQ is a function of IRQ_EN and DONE. -/
theorem engineTurnCompletesTheCommand : Obligations.EngineTurnCompletesTheCommand := by
  refine ⟨fun s t c hr hp h => ?_, fun s c => ⟨?_, rfl⟩, fun s line => ⟨irq_iff s, ?_⟩⟩
  · have hc := (engineStep_ends (engineTurn_pending hp ▸ h)).completed
    exact ⟨by simp [State.busy, hc.pending], hc.done, hc.err, by simp [State.irq, hc.done, hc.irqEn], hc.lastop, hc.ovr,
      hc.run.elim (·.trans hr) id⟩
  · simp [State.irq]
  · simp [State.irqOnLine, irq_iff]

end Sys2Proof.Machine
end

section
/-!
The results a PARSE leaves agree with one another (R186 to R192, R195).
-/
namespace Sys2Proof.Machine

/-- No address and no link-layer address has been written yet. -/
structure ParseResult.Blank (p : ParseResult) : Prop where
  sllaValid : p.sllaValid = false
  sllaHi : p.sllaHi = 0
  sllaLo : p.sllaLo = 0
  src : p.src = .unspecified
  dst : p.dst = .unspecified
  tgt : p.tgt = .unspecified

/-- Results before step 7: the message's place and type are known and its checksum matched. -/
structure ParseResult.Checked (p : ParseResult) (ilen : Nat) (ty : Byte) : Prop extends p.Blank where
  csum : p.csumCalc = p.csumRx
  off : 54 ≤ p.icmpOff.toNat
  len : p.icmpLen.toNat = ilen
  long : 8 ≤ ilen
  type : p.icmpType = ty

theorem cleared_consistent : ParseResult.cleared.Consistent :=
  ⟨by decide, by decide, by decide, by decide, by decide, by decide, by decide⟩

theorem discardWith_consistent {p : ParseResult} (h : p.Blank) (d : DiscardReason) : (discardWith d p).Consistent where
  sllaNs := by simp [discardWith, h.sllaValid]
  sllaZero _ := ⟨h.sllaHi, h.sllaLo⟩
  addrZero _ _ := ⟨h.src, h.dst, h.tgt⟩
  checked := by simp [discardWith]
  ns := by simp [discardWith]
  na := by simp [discardWith]
  other := by simp [discardWith]

variable {fb : List Host.Cell} {off ilen len : Nat} {p r : ParseResult} {ty : Byte}

theorem ParseResult.Blank.withChecksum (h : p.Blank) (rx c : Half) (ty : Byte) :
    ParseResult.Blank { p with csumRx := rx, csumCalc := c, icmpType := ty } :=
  ⟨h.sllaValid, h.sllaHi, h.sllaLo, h.src, h.dst, h.tgt⟩

/-- An NS that is no discard has its addresses, and its SLLA only where the option was taken (R190). -/
theorem parseNs_consistent (hp : p.Checked ilen Config.typeNs) (h : parseNs fb off ilen p = .ok r) : r.Consistent := by
  have checked : p.csumCalc = p.csumRx ∧ 54 ≤ p.icmpOff.toNat ∧ 8 ≤ p.icmpLen.toNat := ⟨hp.csum, hp.off, hp.len ▸ hp.long⟩
  rcases parseNs_cases h with ⟨d, rfl⟩ | ⟨h24, src, dst, tgt, rfl⟩ | ⟨h32, src, dst, tgt, hi, lo, rfl⟩
  · exact discardWith_consistent hp.toBlank d
  · exact
      { sllaNs := fun _ => rfl, sllaZero := fun _ => ⟨hp.sllaHi, hp.sllaLo⟩, addrZero := fun hne => absurd rfl hne
        checked := fun _ => checked, ns := fun _ => ⟨hp.type, hp.len ▸ h24⟩, na := nofun, other := nofun }
  · exact
      { sllaNs := fun _ => rfl, sllaZero := nofun, addrZero := fun hne => absurd rfl hne
        checked := fun _ => checked, ns := fun _ => ⟨hp.type, hp.len ▸ by omega⟩, na := nofun, other := nofun }

/-- An NA that is no discard has its addresses (R191). -/
theorem parseNa_consistent (hp : p.Checked ilen Config.typeNa) (h : parseNa fb off ilen p = .ok r) : r.Consistent := by
  rcases parseNa_cases h with ⟨d, rfl⟩ | ⟨h24, src, dst, tgt, rfl⟩
  · exact discardWith_consistent hp.toBlank d
  · exact
      { sllaNs := fun hv => absurd (hp.sllaValid.symm.trans hv) nofun, sllaZero := fun _ => ⟨hp.sllaHi, hp.sllaLo⟩
        addrZero := fun _ hne => absurd rfl hne, checked := fun _ => ⟨hp.csum, hp.off, hp.len ▸ hp.long⟩
        ns := nofun, na := fun _ => ⟨hp.type, hp.len ▸ h24⟩, other := nofun }

/-- Step 7 (R189). -/
theorem parseType_consistent (hp : p.Checked ilen ty) (h : parseType fb off ilen ty p = .ok r) : r.Consistent := by
  unfold parseType at h
  split at h
  · subst ty; exact parseNs_consistent hp h
  · split at h
    · subst ty; exact parseNa_consistent hp h
    · rename_i hns hna
      obtain rfl := (Except.ok.inj h).symm
      exact
        { sllaNs := fun hv => absurd (hp.sllaValid.symm.trans hv) nofun, sllaZero := fun _ => ⟨hp.sllaHi, hp.sllaLo⟩
          addrZero := fun _ _ => ⟨hp.src, hp.dst, hp.tgt⟩, checked := fun _ => ⟨hp.csum, hp.off, hp.len ▸ hp.long⟩
          ns := nofun, na := nofun, other := fun _ => ⟨hp.type ▸ hns, hp.type ▸ hna⟩ }

/-- Steps 5 to 7, from results that hold only the message's place (R187, R188). -/
theorem parseIcmp_consistent (hp : p.Blank) (hoff : 54 ≤ p.icmpOff.toNat) (hlen : p.icmpLen.toNat = ilen)
    (h : parseIcmp fb off ilen p = .ok r) : r.Consistent := by
  rcases parseIcmp_cases h with ⟨-, rfl⟩ | ⟨rx, sum, ty, h8, -, -, -, ⟨-, rfl⟩ | ⟨hsum, h⟩⟩
  · exact discardWith_consistent hp _
  · exact discardWith_consistent (hp.withChecksum _ _ _) _
  · refine parseType_consistent ?_ h
    exact ⟨hp.withChecksum _ _ _, hsum, hoff, hlen, h8, rfl⟩

/-- Where the walk arrives, the message lies past the IPv6 header and inside the frame (R186). -/
theorem nextHeaderWalk_arrived {ext : Nat} (hlen : 54 ≤ len) (h : nextHeaderWalk fb len = .ok (.arrived off ext)) :
    54 ≤ off ∧ off ≤ len := by
  obtain ⟨nh, -, h⟩ := except_bind_eq_ok h
  split at h
  · cases h; exact ⟨Nat.le_refl _, hlen⟩
  · split at h
    · obtain ⟨hle, -, hge, -⟩ := hbhWalk_arrived (show Config.hdrLen ≤ len from hlen) h
      exact ⟨by simp only [show Config.hdrLen = 54 from rfl] at hge; omega, hle⟩
    · cases h

/-- What PARSE writes for a frame whose length fits FRAME_LEN (R180). -/
theorem parseFrame_consistent (hl : len < 2 ^ 16) (h : parseFrame fb len = .ok r) : r.Consistent := by
  rcases parseFrame_cases h with ⟨d, rfl⟩ | ⟨off, ext, h54, -, hw, h⟩
  · exact discardWith_consistent ⟨rfl, rfl, rfl, rfl, rfl, rfl⟩ d
  · obtain ⟨hge, hle⟩ := nextHeaderWalk_arrived h54 hw
    refine parseIcmp_consistent ⟨rfl, rfl, rfl, rfl, rfl, rfl⟩ ?_ ?_ h
    · simpa [Nat.mod_eq_of_lt (show off < 65536 by omega)] using hge
    · simpa using (show len - off < 65536 by omega)

end Sys2Proof.Machine
end

section
/-!
The machine's invariant: reset meets it, and each operation a step is made of keeps it.
-/
namespace Sys2Proof.Machine

/-! ## Reset -/

theorem resetWith_inv {p : Params} (h : p.Legal) : (State.resetWith p).Inv where
  legal := h
  mem := by simp [State.MemInv, State.resetWith]
  status := by simp [State.StatusInv, State.resetWith]
  idleRun := rfl
  filter := by simp [State.FilterInv, State.resetWith, FilterInfo.zero]
  parse := cleared_consistent

/-- Settles O60: every register holds 0 and memory is unwritten, so only the parameters matter. -/
theorem resetMeetsTheInvariant : Obligations.ResetMeetsTheInvariant :=
  ⟨fun _ h => resetWith_inv h, resetWith_inv (by decide)⟩

variable {s t : State}

theorem applyReset_inv (hi : s.Inv) : (applyReset s).Inv :=
  have h := resetWith_inv hi.legal
  ⟨h.legal, h.mem, h.status, h.idleRun, h.filter, h.parse⟩

/-! ## Commands -/

/-- Completion settles the status, whatever it was. -/
theorem complete_inv (code : ErrCode) (hl : s.cfg.Legal) (hm : s.MemInv) (hr : s.run = none) (hf : s.FilterInv)
    (hp : s.parse.Consistent) : (complete code s).Inv :=
  ⟨hl, hm, ⟨rfl, nofun⟩, hr, hf, hp⟩

/-- The checksum field lies inside the message, which lies inside FB (R150). -/
theorem icmp6Done_memInv {wb : Bool} {sum : Word} (hm : s.MemInv) (hr : s.opb.toNat + s.oplen.toNat ≤ s.cfg.fbSize)
    (hn : 4 ≤ s.oplen.toNat) : (icmp6Done wb sum s).MemInv := by
  obtain ⟨⟨hwf, hbelow⟩, hprog⟩ := hm
  cases wb with
  | false => exact ⟨⟨hwf, hbelow⟩, hprog⟩
  | true =>
    refine ⟨⟨memWriteList_wf hwf _ _, memWriteList_below hbelow _ ?_⟩, hprog⟩
    simp only [opbVal, List.length_cons, List.length_nil]
    omega

/-- Words that fit the program memory, written from entry 0 on with any PROG_LEN. -/
theorem writeProgList_memInv {vs : List Word} (hm : s.MemInv) (hfits : vs.length ≤ 2 * s.cfg.progCap) (n : BitVec 9) :
    State.MemInv { s with prog := memWriteList s.prog 0 vs, progLen := n } := by
  obtain ⟨hfb, hwf, hbelow⟩ := hm
  exact ⟨hfb, memWriteList_wf hwf 0 vs, memWriteList_below hbelow vs (by omega)⟩

/-- GEN fits the smallest program memory (R9, R230). -/
theorem genWords_fit (hl : s.cfg.Legal) : genWords.length ≤ 2 * s.cfg.progCap := by
  obtain ⟨-, h9, -⟩ := hl
  rw [genWords_length]
  omega

/-- A run of a legal program ends with its counters in range: FINFO's fields hold them whole (R44, R58, R248). -/
theorem runEnds_inv {q : BpfRun} (hi : s.Inv) (hn : s.progLen.toNat ≤ s.cfg.progCap) (hs : q.steps ≤ s.progLen.toNat)
    (hpc : q.pc ≤ s.progLen.toNat + 255) (h : RunEnds q s t) : t.Inv := by
  obtain ⟨code, v, oob, -, rfl⟩ := h
  obtain ⟨-, -, hcap⟩ := hi.legal
  refine complete_inv code hi.legal hi.mem rfl ⟨rfl, ?_, ?_⟩ hi.parse
  · simp only [runInfo, BitVec.toNat_ofNat]
    omega
  · simp only [runInfo, BitVec.toNat_ofNat]
    omega

theorem CommandEnds.inv (hi : s.Inv) (h : CommandEnds s t) : t.Inv := by
  cases h with
  | nop h => exact h ▸ complete_inv _ hi.legal hi.mem hi.idleRun hi.filter hi.parse
  | startError code _ h => exact h ▸ complete_inv _ hi.legal hi.mem hi.idleRun hi.filter hi.parse
  | csumAdd bs _ h => exact h ▸ complete_inv _ hi.legal hi.mem hi.idleRun hi.filter hi.parse
  | csumIcmp6 wb sum hr hn _ h =>
    exact h ▸ complete_inv _ hi.legal (icmp6Done_memInv hi.mem hr hn) hi.idleRun hi.filter hi.parse
  | parse r hp h =>
    exact h ▸ complete_inv _ hi.legal hi.mem hi.idleRun hi.filter (parseFrame_consistent s.frameLen.isLt hp)
  | filterGen h =>
    have hm := writeProgList_memInv hi.mem (genWords_fit hi.legal) 9#9
    exact h ▸ complete_inv _ hi.legal hm hi.idleRun hi.filter hi.parse
  | filterRun q hn h1 h2 h => exact runEnds_inv hi hn h1 h2 h

/-! ## Host accesses -/

/-- Clearing by ones keeps ERR with ERRCODE (R29, R31). -/
theorem writeStatus_statusInv (v : Word) (h : s.StatusInv) : (writeStatus v s).StatusInv := by
  obtain ⟨herr, hbusy⟩ := h
  refine ⟨?_, fun hb => ?_⟩
  · rw [writeStatus_err, writeStatus_errcode, herr]
    cases v.getLsbD 2 <;> simp
  · obtain ⟨hd, hc⟩ := hbusy hb
    simp [hd, hc]

theorem writeCmd_inv (c : Pending) (hi : s.Inv) : (writeCmd c s).Inv := by
  cases hp : s.pending with
  | none =>
    rw [writeCmd_idle hp]
    exact ⟨hi.legal, hi.mem, ⟨rfl, fun _ => ⟨rfl, rfl⟩⟩, hi.idleRun, hi.filter, hi.parse⟩
  | some d =>
    rw [writeCmd_busy hp]
    exact ⟨hi.legal, hi.mem, hi.status, hi.idleRun, hi.filter, hi.parse⟩

theorem writeReg_inv (v : Word) (r : Reg) (hi : s.Inv) : (writeReg v s r).Inv := by
  cases r with
  | cmd => exact writeCmd_inv _ hi
  | status => exact ⟨hi.legal, hi.mem, writeStatus_statusInv v hi.status, hi.idleRun, hi.filter, hi.parse⟩
  | _ => exact ⟨hi.legal, hi.mem, hi.status, hi.idleRun, hi.filter, hi.parse⟩

/-- A write of one program word below PROG_CAP. -/
theorem writeProg_inv {a : Nat} (v : Word) (hi : s.Inv) (ha : a < 2 * s.cfg.progCap) :
    State.Inv { s with prog := memWrite s.prog a v } := by
  obtain ⟨hfb, hwf, hbelow⟩ := hi.mem
  exact ⟨hi.legal, ⟨hfb, memWrite_wf hwf _ _, memWrite_below hbelow ha _⟩, hi.status, hi.idleRun, hi.filter, hi.parse⟩

/-- A write of a place below the FB window. -/
theorem writePlace_low_inv {off : Nat} (v : Word) (hi : s.Inv) (hoff : off < 0x10000) :
    (writePlace v s (placeAt s.cfg off)).Inv := by
  rcases placeAt_low (p := s.cfg) hoff with ⟨r, hp⟩ | ⟨i, hlt, hp | hp⟩ | hp <;> rw [hp]
  · exact writeReg_inv v r hi
  · exact writeProg_inv v hi (by omega)
  · exact writeProg_inv v hi (by omega)
  · exact hi

theorem hostAccess_inv {a : Access} (hi : s.Inv) (h : hostAccess a s = .next t) : t.Inv := by
  cases a with
  | read w addr =>
    obtain ⟨d, n, f, rfl⟩ := hostRead_frame h
    exact ⟨hi.legal, hi.mem, hi.status, hi.idleRun, hi.filter, hi.parse⟩
  | write w addr v =>
    rcases hostWrite_cases h with rfl | ⟨off, rfl⟩ | ⟨off, hoff, -, rfl⟩ | ⟨fb, hwf, hbelow, rfl⟩
    · exact hi
    · exact ⟨hi.legal, hi.mem, hi.status, hi.idleRun, hi.filter, hi.parse⟩
    · exact writePlace_low_inv v hi hoff
    · obtain ⟨⟨hfwf, hfbelow⟩, hprog⟩ := hi.mem
      exact ⟨hi.legal, ⟨⟨hwf hfwf, hbelow hfbelow⟩, hprog⟩, hi.status, hi.idleRun, hi.filter, hi.parse⟩

/-! ## A step -/

/-- The turns are no part of the invariant. -/
theorem turns_inv (ts : List Turn) (hi : s.Inv) : State.Inv { s with turns := ts } :=
  ⟨hi.legal, hi.mem, hi.status, hi.idleRun, hi.filter, hi.parse⟩

/-- Settles O59: no run is in progress, so a step takes the turns on, completes a command, makes a host access or resets. -/
theorem everyStepKeepsTheInvariant : Obligations.EveryStepKeepsTheInvariant := by
  intro s t hi h
  obtain ⟨ts, rfl | ⟨c, -, he⟩ | ⟨a, ha⟩ | rfl⟩ := step_cases_between hi.idleRun h
  · exact turns_inv ts hi
  · exact (engineStep_ends he).inv (turns_inv ts hi)
  · exact hostAccess_inv (turns_inv ts hi) ha
  · exact applyReset_inv (turns_inv ts hi)

end Sys2Proof.Machine
end

section
/-!
FILTER_RUN's loop is the machine's own steps inside a run (R52, R240), and a step between two turns.
-/
namespace Sys2Proof.Machine

variable {s t : State}

section
variable {M : Host.Core} {m n : M.State} {k : Nat}

theorem run_succ_of_next (h : M.step m = .next n) : M.run (k + 1) m = M.run k n := by simp [Host.Core.run, h]

theorem run_succ_of_fault {f : M.Fault} (h : M.step m = .fault f) : M.run (k + 1) m = .fault f := by simp [Host.Core.run, h]

theorem run_succ_of_refused {q : M.Refusal} (h : M.step m = .refused q) : M.run (k + 1) m = .refused q := by
  simp [Host.Core.run, h]

end

theorem runLoop_idle (fuel : Nat) (hr : s.run = none) : runLoop fuel s = .next s := by
  cases fuel <;> simp [runLoop, hr]

/-- Inside a run a step is a turn of the loop. -/
theorem step_eq_fetchEntry {r : BpfRun} (hr : s.run = some r) : step s = fetchEntry s r execEntry := by
  rw [step_inside hr]
  exact congrArg (fetchEntry s r) (funext fun c => funext fun k => funext fun u => (execEntry_eq_exec c k u).symm)

/-- The loop with some fuel is that many steps or fewer: it stops early only where no run is left. -/
theorem runLoop_eq_run (fuel : Nat) (s : State) : ∃ k ≤ fuel, (core.run k s : Result) = runLoop fuel s := by
  induction fuel generalizing s with
  | zero => exact ⟨0, Nat.le_refl 0, rfl⟩
  | succ fuel ih =>
    cases hr : s.run with
    | none => exact ⟨0, Nat.zero_le _, (runLoop_idle _ hr).symm⟩
    | some r =>
      have hstep := step_eq_fetchEntry hr
      cases hf : fetchEntry s r execEntry with
      | next u =>
        obtain ⟨k, hk, hrun⟩ := ih u
        have hloop : runLoop (fuel + 1) s = runLoop fuel u := by simp only [runLoop, hr, hf]
        exact ⟨k + 1, Nat.succ_le_succ hk, (run_succ_of_next (hstep.trans hf)).trans (hrun.trans hloop.symm)⟩
      | fault f =>
        have hloop : runLoop (fuel + 1) s = .fault f := by simp only [runLoop, hr, hf]
        exact ⟨1, by omega, (run_succ_of_fault (hstep.trans hf)).trans hloop.symm⟩
      | refused q =>
        have hloop : runLoop (fuel + 1) s = .refused q := by simp only [runLoop, hr, hf]
        exact ⟨1, by omega, (run_succ_of_refused (hstep.trans hf)).trans hloop.symm⟩

/-- Past its start checks FILTER_RUN is its loop (R240). -/
theorem execFilterRun_eq_runLoop (wb : Bool) (h0 : s.progLen.toNat ≠ 0) (hcap : s.progLen.toNat ≤ s.cfg.progCap)
    (hfit : s.frameLen.toNat ≤ s.cfg.fbSize) :
    execFilterRun wb s = runLoop (s.progLen.toNat + 1) { s with run := some .start } := by
  have hlen : ¬ (progLenVal s = 0 ∨ s.cfg.progCap < progLenVal s) := by
    simp only [progLenVal]
    omega
  have hfb : pastFb s 0 (frameLenVal s) = false := pastFb_of_le (by simpa [frameLenVal] using hfit)
  rw [execFilterRun, if_neg hlen, hfb]
  rfl

/-- Settles O41: FILTER_RUN is its loop, and the loop is steps. -/
theorem filterRunRefinesEntrySteps : Obligations.FilterRunRefinesEntrySteps := by
  intro s wb h0 hcap hfit
  have h0' : s.progLen.toNat ≠ 0 := fun h => h0 (BitVec.eq_of_toNat_eq h)
  obtain ⟨k, hk, hrun⟩ := runLoop_eq_run (s.progLen.toNat + 1) { s with run := some .start }
  exact ⟨k, hk, hrun.trans (execFilterRun_eq_runLoop wb h0' hcap hfit).symm⟩

/-! ## A step between two turns -/

theorem step_host {a : Access} {ts : List Turn} (hr : s.run = none) (ht : s.turns = .host a :: ts) :
    step s = hostAccess a { s with turns := ts } := by
  simp [step_between hr, ht, takeTurn]

theorem step_engine {c : Pending} {ts : List Turn} (hr : s.run = none) (hp : s.pending = some c)
    (ht : s.turns = .engine :: ts) : step s = engineStep c { s with turns := ts } := by
  simp [step_between hr, ht, takeTurn, engineTurn, hp]

theorem step_no_turn {c : Pending} (hr : s.run = none) (hp : s.pending = some c) (ht : s.turns = []) :
    step s = engineStep c s := by
  simp [step_between hr, ht, engineTurn, hp]

theorem step_reset {ts : List Turn} (hr : s.run = none) (ht : s.turns = .reset :: ts) :
    step s = .next (applyReset { s with turns := ts }) := by
  simp [step_between hr, ht, takeTurn]

/-- The engine's step carries out the word the latch was loaded from (R103). -/
theorem engineStep_eq_exec (w : Word) (s : State) :
    engineStep { op := cmdOp w, wb := cmdWb w } s = exec (decodeCommand w) s := by
  rw [engineStep, decodeCommand_commandWord, decodeCommand]

/-- Settles O4: no turn left, or the engine's turn. -/
theorem stepRunsPendingCommand : Obligations.StepRunsPendingCommand := fun _ w hr hp =>
  ⟨fun ht => (step_no_turn hr hp ht).trans (engineStep_eq_exec w _),
    fun _ ht => (step_engine hr hp ht).trans (engineStep_eq_exec w _)⟩

/-! ## Reset -/

theorem word_unspecified (n : Fin 4) : Ip6.unspecified.word n = 0 := by
  revert n; decide

/-- Every register but ID and CONFIG reads 0 right after reset (R21). -/
theorem readReg_reset (r : Reg) :
    readReg State.reset r = if r = .id then 0x4E445045 else if r = .config then 0x00101000 else 0 := by
  cases r with
  | psrc n => exact word_unspecified n
  | pdst n => exact word_unspecified n
  | ptgt n => exact word_unspecified n
  | _ => decide

/-- Settles O57: the reset values register by register, and the pulse as one turn. -/
theorem resetValuesAndPulse : Obligations.ResetValuesAndPulse :=
  ⟨readReg_reset, rfl, rfl, rfl, fun _ => rfl, fun _ => rfl, fun _ _ hr ht => step_reset hr ht⟩

end Sys2Proof.Machine
end

section
/-!
What stands at each offset of the host window, and what a host write does there (R21 to R23, R72, R75).
-/
namespace Sys2Proof.Machine

variable {s : State} {p : Params} {ts : List Turn} {v : Word} {w : Width} {off j : Nat}

/-! ## Places of the window -/

/-- The register map lies below 0x100, at multiples of 4 (R21). -/
theorem regMap_bounds : ∀ x ∈ regMap, x.1 < 0x100 ∧ x.1 % 4 = 0 := by decide

theorem placeAt_reg {r : Reg} (h : memRead regMap off = some r) : placeAt p off = .reg r := by
  have hlt := (regMap_bounds _ (mem_of_memRead h)).1
  simp [placeAt, show off < 0x100 from hlt, h]

theorem placeAt_progCode {i : Nat} (hi : i < p.progCap) (hcap : p.progCap ≤ 256) : placeAt p (0x100 + 8 * i) = .progCode i := by
  simp [placeAt, show 256 + 8 * i < 2304 by omega, hi]

theorem placeAt_progK {i : Nat} (hi : i < p.progCap) (hcap : p.progCap ≤ 256) : placeAt p (0x104 + 8 * i) = .progK i := by
  have hsub : 260 + 8 * i - 256 = 8 * i + 4 := by omega
  simp [placeAt, show ¬ 260 + 8 * i < 256 by omega, show 260 + 8 * i < 2304 by omega, hsub, show (8 * i + 4) / 8 = i by omega,
    show (8 * i + 4) % 8 = 4 by omega, hi]

/-- An offset the register map does not list is reserved (R21, R23). -/
theorem placeAt_unlisted (hlt : off < 0x100) (h : memRead regMap off = none) : placeAt p off = .reserved := by
  simp [placeAt, hlt, h]

/-- The program window from PROG_CAP on, and the gap above it, are reserved (R23, R70). -/
theorem placeAt_above_prog (hge : 0x100 + 8 * p.progCap ≤ off) (hlt : off < 0x10000) : placeAt p off = .reserved := by
  have hout : ¬ (off - 0x100) / 8 < p.progCap := by omega
  simp [placeAt, show ¬ off < 0x100 by omega, hlt, hout]

theorem placeAt_fb_below (h : j < p.fbSize) : placeAt p (0x10000 + j) = .fb j := by
  rw [placeAt_fb (by omega), Nat.add_sub_cancel_left, if_pos h]

theorem placeAt_fb_above (h : p.fbSize ≤ j) : placeAt p (0x10000 + j) = .reserved := by
  rw [placeAt_fb (by omega), Nat.add_sub_cancel_left, if_neg (Nat.not_lt.2 h)]

/-! ## Legal accesses -/

theorem busError_word (h : off % 4 = 0) : busError .w32 off = false := by simp [busError, Width.bytes, h]

/-- In the FB window every width is legal at its own multiples (R74). -/
theorem busError_fb (h : j % w.bytes = 0) : busError w (0x10000 + j) = false := by
  have hal : (0x10000 + j) % w.bytes = 0 := by
    cases w <;> simp only [Width.bytes] at h ⊢ <;> omega
  simp [busError, hal]

/-- A host write turn at a legal offset. -/
theorem step_write (hr : s.run = none) (ht : s.turns = .host (.write w (s.cfg.base + off) v) :: ts) (hoff : off < 0x20000)
    (hlegal : busError w off = false) : step s = hostWrite w off v { s with turns := ts } := by
  rw [step_host hr ht]
  simp [hostAccess, offsetOf_base hoff, hlegal]

/-- A host read turn at a legal offset. -/
theorem step_read (hr : s.run = none) (ht : s.turns = .host (.read w (s.cfg.base + off)) :: ts) (hoff : off < 0x20000)
    (hlegal : busError w off = false) : step s = hostRead w off { s with turns := ts } := by
  rw [step_host hr ht]
  simp [hostAccess, offsetOf_base hoff, hlegal]

/-- A write that is no hazard (R320) is carried out. -/
theorem hostWrite_of_safe (h : s.pending = none ∨ operandAt s.cfg off (accessLanes w off) = none) :
    hostWrite w off v s =
      if off < 0x10000 then .next (writePlace v s (placeAt s.cfg off)) else .next (writeLanes v off 0 w.bytes s) := by
  rcases h with h | h <;> simp [hostWrite, h]

/-! ## Writes below the FB window -/

theorem operandAt_low (hoff : off < 0x10000) (h : isOperand (placeAt p off) = false) :
    operandAt p off (accessLanes w off) = none := by
  simp [operandAt, accessLanes, hoff, h]

/-- A 32-bit write below the FB window, idle or to a place that is no input of commands. -/
theorem step_write_low (hr : s.run = none) (ht : s.turns = .host (.write .w32 (s.cfg.base + off) v) :: ts)
    (hoff : off < 0x10000) (hal : off % 4 = 0) (hsafe : s.pending = none ∨ isOperand (placeAt s.cfg off) = false) :
    step s = .next (writePlace v { s with turns := ts } (placeAt s.cfg off)) := by
  rw [step_write hr ht (by omega) (busError_word hal),
    hostWrite_of_safe (s := { s with turns := ts }) (hsafe.imp id (operandAt_low hoff)), if_pos hoff]

theorem step_write_reg {r : Reg} (hm : memRead regMap off = some r) (hr : s.run = none)
    (ht : s.turns = .host (.write .w32 (s.cfg.base + off) v) :: ts) (hsafe : s.pending = none ∨ isOperand (.reg r) = false) :
    step s = .next (writeReg v { s with turns := ts } r) := by
  obtain ⟨hlt, hal⟩ := regMap_bounds _ (mem_of_memRead hm)
  have hp : placeAt s.cfg off = .reg r := placeAt_reg hm
  rw [step_write_low hr ht (Nat.lt_trans hlt (by decide)) hal (hp ▸ hsafe), hp, writePlace]

theorem and_not_eq_ite (b c : Bool) : (b && !c) = if c then false else b := by cases c <;> simp

/-- Settles O8: STATUS is no input of commands, and each of its bits is cleared by its own one. -/
theorem statusWriteClearsByOnes : Obligations.StatusWriteClearsByOnes := by
  intro s v ts hr ht t
  have hcleared : writeStatus v { s with turns := ts } = t := by
    simp only [writeStatus, and_not_eq_ite, t]
  refine ⟨?_, ?_⟩
  · rw [step_write_reg (r := .status) rfl hr ht (.inr rfl), writeReg, hcleared]
  · simp only [State.irq, t]
    cases v.getLsbD 1 <;> simp

/-- Settles O48: each RW register keeps the low bits of the data, each program word all of them. -/
theorem registerWritesStoreTheirField : Obligations.RegisterWritesStoreTheirField := by
  intro s off v ts hr hp ht
  have reg {r : Reg} (hm : memRead regMap off = some r) : step s = .next (writeReg v { s with turns := ts } r) :=
    step_write_reg hm hr ht (.inl hp)
  have half : v.setWidth 16 = v.extractLsb' 0 16 := BitVec.setWidth_eq_extractLsb' (by decide)
  have nine : v.setWidth 9 = v.extractLsb' 0 9 := BitVec.setWidth_eq_extractLsb' (by decide)
  refine ⟨fun h => reg (r := .ctrl) (h ▸ rfl), fun h => half ▸ reg (r := .frameLen) (h ▸ rfl),
    fun h => half ▸ reg (r := .opa) (h ▸ rfl), fun h => half ▸ reg (r := .opb) (h ▸ rfl),
    fun h => half ▸ reg (r := .oplen) (h ▸ rfl), fun h => reg (r := .acc) (h ▸ rfl), fun h => reg (r := .fcfg) (h ▸ rfl),
    fun h => nine ▸ reg (r := .progLen) (h ▸ rfl), fun i hi hcap h => ?_, fun i hi hcap h => ?_⟩
  · rw [step_write_low hr ht (by omega) (by omega) (.inl hp), h, placeAt_progCode hi hcap, writePlace]
  · rw [step_write_low hr ht (by omega) (by omega) (.inl hp), h, placeAt_progK hi hcap, writePlace]

/-! ## Writes without effect -/

/-- The registers a host write never changes (R22). -/
def Reg.readOnly : Reg → Bool
  | .cmd | .status | .ctrl | .frameLen | .opa | .opb | .oplen | .acc | .fcfg | .progLen => false
  | _ => true

/-- A read-only register ignores writes (R22) and is no input of commands (R320). -/
theorem readOnly_ignores {r : Reg} (h : r.readOnly = true) : isOperand (.reg r) = false ∧ ∀ v s, writeReg v s r = s := by
  cases r with
  | cmd | status | ctrl | frameLen | opa | opb | oplen | acc | fcfg | progLen => cases h
  | _ => exact ⟨rfl, fun _ _ => rfl⟩

/-- ID, CONFIG, CSUM_RESULT, FDESC and every register from FRESULT on are read-only (R21). -/
theorem regMap_readOnly : ∀ x ∈ regMap, (x.1 = 0x000 ∨ x.1 = 0x004 ∨ x.1 = 0x028 ∨ x.1 = 0x02C ∨ 0x038 ≤ x.1) →
    x.2.readOnly = true := by decide

/-- Below 0x100 such an offset is a read-only register or reserved. -/
theorem placeAt_readOnly (hlt : off < 0x100) (h : off = 0x000 ∨ off = 0x004 ∨ off = 0x028 ∨ off = 0x02C ∨ 0x038 ≤ off) :
    (∃ r : Reg, r.readOnly = true ∧ placeAt p off = .reg r) ∨ placeAt p off = .reserved := by
  cases hm : memRead regMap off with
  | none => exact .inr (placeAt_unlisted hlt hm)
  | some r => exact .inl ⟨r, regMap_readOnly _ (mem_of_memRead hm) h, placeAt_reg hm⟩

/-- Settles O49: a read-only register or a reserved place ignores the write and is no input of commands. -/
theorem readOnlyAndReservedIgnoreWrites : Obligations.ReadOnlyAndReservedIgnoreWrites := by
  intro s off v ts hr ht hal hoff
  have hplace : off < 0x10000 ∧
      ((∃ r : Reg, r.readOnly = true ∧ placeAt s.cfg off = .reg r) ∨ placeAt s.cfg off = .reserved) := by
    by_cases hge : 0x100 + 8 * s.cfg.progCap ≤ off ∧ off < 0x10000
    · exact ⟨hge.2, .inr (placeAt_above_prog hge.1 hge.2)⟩
    · exact ⟨by omega, placeAt_readOnly (by omega) (by omega)⟩
  obtain ⟨hlow, ⟨r, hro, hp⟩ | hp⟩ := hplace
  · obtain ⟨hop, hsame⟩ := readOnly_ignores hro
    rw [step_write_low hr ht hlow hal (.inr (hp ▸ hop)), hp, writePlace, hsame]
  · rw [step_write_low hr ht hlow hal (.inr (hp ▸ rfl)), hp, writePlace]

/-! ## Writes of the FB window -/

/-- One lane stores its byte where it lies below FB_SIZE (R72, R75). -/
theorem memRead_writeLane (v : Word) (s : State) (j i a : Nat) :
    memRead (writePlace ((lane v i).setWidth 32) s (placeAt s.cfg (0x10000 + (j + i)))).fb a =
      if a = j + i ∧ a < s.cfg.fbSize then some (lane v i) else memRead s.fb a := by
  by_cases hlt : j + i < s.cfg.fbSize
  · rw [placeAt_fb_below hlt, writePlace]
    by_cases ha : a = j + i
    · subst a
      simp [hlt, BitVec.setWidth_setWidth_of_le]
    · simp [ha, memRead_memWrite_of_ne _ _ ha]
  · rw [placeAt_fb_above (Nat.not_lt.1 hlt), writePlace, if_neg (by omega)]

/-- Consecutive lanes store their bytes, the low bits first (R72). -/
theorem memRead_writeLanes (v : Word) (j i n : Nat) (s : State) (a : Nat) :
    memRead (writeLanes v (0x10000 + j) i n s).fb a =
      if j + i ≤ a ∧ a < j + i + n ∧ a < s.cfg.fbSize then some (lane v (a - j)) else memRead s.fb a := by
  induction n generalizing i s with
  | zero => rw [writeLanes, if_neg (by omega)]
  | succ n ih =>
    have hcfg (x : Word) (q : Place) : (writePlace x s q).cfg = s.cfg := (writePlace_keepsRecord x s q).cfg
    rw [writeLanes, ih, hcfg, Nat.add_assoc 0x10000, memRead_writeLane]
    by_cases ha : a = j + i
    · subst a
      by_cases hlt : j + i < s.cfg.fbSize <;> simp [hlt]
    · have hiff : (j + (i + 1) ≤ a ∧ a < j + (i + 1) + n ∧ a < s.cfg.fbSize) ↔
          (j + i ≤ a ∧ a < j + i + (n + 1) ∧ a < s.cfg.fbSize) := by omega
      simp only [ha, false_and, if_false, hiff]

/-- Lanes at or above FB_SIZE are ignored (R75). -/
theorem writeLanes_above (v : Word) {j : Nat} (i n : Nat) (h : s.cfg.fbSize ≤ j) : writeLanes v (0x10000 + j) i n s = s := by
  induction n generalizing i with
  | zero => rfl
  | succ n ih => rw [writeLanes, Nat.add_assoc, placeAt_fb_above (by omega), writePlace, ih]

/-- Nothing at or above FB_SIZE is an input of commands. -/
theorem operandAt_above (n : Nat) (h : p.fbSize ≤ j) : operandAt p (0x10000 + j) n = none := by
  simp only [operandAt, List.find?_eq_none, List.mem_map]
  rintro _ ⟨i, -, rfl⟩
  rw [Nat.add_assoc, placeAt_fb_above (by omega)]
  simp [isOperand]

/-- A write of the FB window, idle or wholly at or above FB_SIZE. -/
theorem step_write_fb (hr : s.run = none) (ht : s.turns = .host (.write w (s.cfg.base + (0x10000 + j)) v) :: ts)
    (hal : j % w.bytes = 0) (hj : j < 0x10000) (hsafe : s.pending = none ∨ s.cfg.fbSize ≤ j) :
    step s = .next (writeLanes v (0x10000 + j) 0 w.bytes { s with turns := ts }) := by
  rw [step_write hr ht (by omega) (busError_fb hal),
    hostWrite_of_safe (s := { s with turns := ts }) (hsafe.imp id (operandAt_above _)), if_neg (by omega)]

/-- Settles O50: lane by lane below FB_SIZE, and no lane at or above it. -/
theorem fbWritesStoreByteLanes : Obligations.FbWritesStoreByteLanes := by
  intro s w j v ts hr ht hal hj
  refine ⟨fun hp => ⟨_, step_write_fb hr ht hal hj (.inl hp), ?_, fun a => ?_⟩, fun hge => ?_⟩
  · obtain ⟨fb, hfb, -, -⟩ := writeLanes_frame (v := v) (i := 0) (n := w.bytes) (s := { s with turns := ts })
      (show 0x10000 ≤ 0x10000 + j by omega)
    rw [hfb]
  · exact memRead_writeLanes v j 0 w.bytes { s with turns := ts } a
  · rw [step_write_fb hr ht hal hj (.inr hge), writeLanes_above (s := { s with turns := ts }) v 0 _ hge]

end Sys2Proof.Machine
end

section
/-!
What a host read returns, and where it stops (R21 to R25, R62, R78, R84, R287).
-/
namespace Sys2Proof.Machine

variable {s : State} {ts : List Turn} {w : Width} {off j : Nat}

/-! ## Reads that stop -/

/-- A legal read that meets an unwritten place is UninitRead there. -/
theorem hostRead_stops {p : Place} (h : readOffset s w off = .error p) : hostRead w off s = .fault (.uninitRead s.lastop p) := by
  rw [hostRead, h, orUninit_error]

theorem readOffset_low_error {p : Place} (hoff : off < 0x10000) (h : readPlace s (placeAt s.cfg off) = .error p) :
    readOffset s w off = .error p := by
  rw [readOffset, if_pos hoff, h, except_error_bind]

/-- A lane above FB_SIZE reads 0 (R75). -/
theorem readLane_above (i : Nat) (h : s.cfg.fbSize ≤ j + i) : readLane s (0x10000 + j) i = .ok 0 := by
  simp [readLane, Nat.add_assoc, placeAt_fb_above h]

/-- A lane whose byte nobody has written stops the read, also where the pending command may write it (assumption 7). -/
theorem readLane_unwritten (i : Nat) (hlt : j + i < s.cfg.fbSize) (h : memRead s.fb (j + i) = none) :
    readLane s (0x10000 + j) i = .error (.fb (j + i)) := by
  simp [readLane, Nat.add_assoc, placeAt_fb_below hlt, fbByte_unwritten h]

theorem readLane_written (i : Nat) {b : Byte} (hlt : j + i < s.cfg.fbSize) (h : memRead s.fb (j + i) = some b) :
    ∃ x, readLane s (0x10000 + j) i = .ok x := by
  simp [readLane, Nat.add_assoc, placeAt_fb_below hlt, fbByte_eq_ok.2 h]

/-- Consecutive lanes stop at the first one below FB_SIZE that nobody has written. -/
theorem readLanes_stops (n i k : Nat)
    (h : firstUnwritten s.fb ((List.range' (j + i) n).filter fun x => decide (x < s.cfg.fbSize)) = some k) :
    readLanes s (0x10000 + j) i n = .error (.fb k) := by
  induction n generalizing i with
  | zero => simp at h
  | succ n ih =>
    rw [List.range'_succ, List.filter_cons] at h
    have next : ∀ {x}, readLane s (0x10000 + j) i = .ok x →
        firstUnwritten s.fb ((List.range' (j + i + 1) n).filter fun x => decide (x < s.cfg.fbSize)) = some k →
        readLanes s (0x10000 + j) i (n + 1) = .error (.fb k) := by
      intro x hx hk
      rw [readLanes, hx, except_ok_bind, ih (i + 1) hk, except_error_bind]
    by_cases hlt : j + i < s.cfg.fbSize
    · rw [if_pos (decide_eq_true hlt), firstUnwritten_cons] at h
      cases hm : memRead s.fb (j + i) with
      | none =>
        obtain rfl : j + i = k := by simpa [hm] using h
        rw [readLanes, readLane_unwritten i hlt hm, except_error_bind]
      | some b =>
        obtain ⟨x, hx⟩ := readLane_written i hlt hm
        exact next hx (by simpa [hm] using h)
    · exact next (readLane_above i (Nat.not_lt.1 hlt)) (by simpa [hlt] using h)

theorem readOffset_fb_stops {k : Nat}
    (h : firstUnwritten s.fb ((List.range' j w.bytes).filter fun x => decide (x < s.cfg.fbSize)) = some k) :
    readOffset s w (0x10000 + j) = .error (.fb k) := by
  rw [readOffset, if_neg (by omega), readLanes_stops w.bytes 0 k h, except_error_bind]

/-- Settles O52: lane by lane in the FB window, word by word below it. -/
theorem hostReadOfUnwrittenFaults : Obligations.HostReadOfUnwrittenFaults := by
  intro s w j ts hr
  refine ⟨fun ht hal hj i hi => ?_, fun ht hi hcap hm => ?_, fun ht hi hcap hm => ?_⟩
  · rw [step_read hr ht (by omega) (busError_fb hal)]
    exact hostRead_stops (s := { s with turns := ts }) (readOffset_fb_stops hi)
  · rw [step_read hr ht (by omega) (busError_word (by omega))]
    refine hostRead_stops (s := { s with turns := ts }) (readOffset_low_error (by omega) ?_)
    simp [placeAt_progCode hi hcap, readPlace, progCodeAt, hm]
  · rw [step_read hr ht (by omega) (busError_word (by omega))]
    refine hostRead_stops (s := { s with turns := ts }) (readOffset_low_error (by omega) ?_)
    simp [placeAt_progK hi hcap, readPlace, progKAt, hm]

/-! ## Reads below the FB window -/

/-- The OPs of the commands that may write a register (R84). -/
def resultWriters : Reg → List (BitVec 4)
  | .acc => [1#4, 2#4]
  | .csumResult => [2#4]
  | .pverdict | .picmp | .pcsum | .pext | .psllaHi | .psllaLo | .psrc _ | .pdst _ | .ptgt _ => [3#4]
  | .progLen | .fdesc => [4#4]
  | .fresult | .finfo | .fa => [5#4]
  | _ => []

theorem mayWrite_reg (s : State) (c : Pending) (r : Reg) : mayWrite s c (.reg r) = true ↔ c.op ∈ resultWriters r := by
  cases r <;> simp [mayWrite, resultWriters]

theorem readsFree_eq_false {p : Place} (h : ∀ c, s.pending = some c → mayWrite s c p = false) : readsFree s p = false := by
  unfold readsFree
  split
  · exact h _ ‹_›
  · rfl

theorem readPlace_turns (ts : List Turn) (p : Place) : readPlace { s with turns := ts } p = readPlace s p := by
  cases p <;> rfl

theorem mayWrite_turns (ts : List Turn) (c : Pending) (p : Place) : mayWrite { s with turns := ts } c p = mayWrite s c p := by
  cases p <;> rfl

/-- A 32-bit read below the FB window returns what stands at the place, unless a pending command may write it. -/
theorem step_read_low {p : Place} {x : Word} (hr : s.run = none) (ht : s.turns = .host (.read .w32 (s.cfg.base + off)) :: ts)
    (hoff : off < 0x10000) (hal : off % 4 = 0) (hp : placeAt s.cfg off = p) (hx : readPlace s p = .ok x)
    (hfree : ∀ c, s.pending = some c → mayWrite s c p = false) : step s = .next { s with turns := ts, readData := some x } := by
  have hx' : readPlace { s with turns := ts } p = .ok x := (readPlace_turns ts p).trans hx
  have hfree' : readsFree { s with turns := ts } p = false :=
    readsFree_eq_false fun c hc => (mayWrite_turns ts c p).trans (hfree c hc)
  rw [step_read hr ht (by omega) (busError_word hal)]
  simp [hostRead, readOffset, hoff, hp, hx', hfree']

/-- A read of a register while no command that may write it is pending. -/
theorem step_read_reg {r : Reg} (hr : s.run = none) (ht : s.turns = .host (.read .w32 (s.cfg.base + off)) :: ts)
    (hm : memRead regMap off = some r) (hfree : ∀ c, s.pending = some c → c.op ∉ resultWriters r) :
    step s = .next { s with turns := ts, readData := some (readReg s r) } := by
  obtain ⟨hlt, hal⟩ := regMap_bounds _ (mem_of_memRead hm)
  refine step_read_low hr ht (Nat.lt_trans hlt (by decide)) hal (placeAt_reg hm) rfl fun c hc => ?_
  exact Bool.eq_false_iff.2 fun hw => hfree c hc ((mayWrite_reg s c r).1 hw)

/-- The register map lists each offset once, so an entry of it is what stands there (R21). -/
theorem memRead_regMap : ∀ x ∈ regMap, memRead regMap x.1 = some x.2 := by decide

/-- Every register of the second part of the map is a result of PARSE (R84). -/
theorem resultWriters_regMapParse : ∀ x ∈ regMapParse, resultWriters x.2 = [3#4] := by decide

/-! ## Narrow fields on 32 data lines -/

theorem setWidth_bit (b : BitVec 1) : b.setWidth 32 = 0#31 ++ b := BitVec.setWidth_eq_append (by decide)
theorem setWidth_nine (b : BitVec 9) : b.setWidth 32 = 0#23 ++ b := BitVec.setWidth_eq_append (by decide)
theorem setWidth_half (b : Half) : b.setWidth 32 = 0#16 ++ b := BitVec.setWidth_eq_append (by decide)

/-- FDESC is PROG_LEN in either dialect (R40). -/
theorem fdescWord_eq (s : State) : fdescWord s = 0#23 ++ s.progLen := by
  have hhalf : (s.progLen.setWidth 16).setWidth 32 = s.progLen.setWidth 32 := by
    apply BitVec.eq_of_toNat_eq
    have := s.progLen.isLt
    simp only [BitVec.toNat_setWidth]
    omega
  rw [fdescWord, ← setWidth_half, hhalf, ite_self, setWidth_nine]

/-- What the registers of the first part of the map read, each with its offset and the commands that may write it. -/
def controlReads (s : State) : List (Nat × List (BitVec 4) × Word) :=
  regMapControl.map fun x => (x.1, resultWriters x.2, readReg s x.2)

/-- What the result registers of PARSE read, each with its offset. -/
def parseReads (s : State) : List (Nat × Word) := regMapParse.map fun x => (x.1, readReg s x.2)

theorem step_read_control {x : Nat × List (BitVec 4) × Word} (hr : s.run = none)
    (ht : s.turns = .host (.read .w32 (s.cfg.base + off)) :: ts) (hx : x ∈ controlReads s) (hoff : off = x.1)
    (hfree : ∀ c, s.pending = some c → c.op ∉ x.2.1) : step s = .next { s with turns := ts, readData := some x.2.2 } := by
  obtain ⟨⟨o, r⟩, hmem, rfl⟩ := List.mem_map.1 hx
  exact step_read_reg hr ht (hoff ▸ memRead_regMap _ (List.mem_append_left _ hmem)) hfree

theorem step_read_parse {x : Nat × Word} (hr : s.run = none) (ht : s.turns = .host (.read .w32 (s.cfg.base + off)) :: ts)
    (hx : x ∈ parseReads s) (hoff : off = x.1) (hfree : ∀ c, s.pending = some c → c.op ∉ [3#4]) :
    step s = .next { s with turns := ts, readData := some x.2 } := by
  obtain ⟨⟨o, r⟩, hmem, rfl⟩ := List.mem_map.1 hx
  exact step_read_reg hr ht (hoff ▸ memRead_regMap _ (List.mem_append_right _ hmem))
    (resultWriters_regMapParse _ hmem ▸ hfree)

/-- FILTER_GEN alone may write a program word, and only of its nine entries (R84). -/
theorem mayWrite_prog {c : Pending} {i : Nat} (h : i < 9 → c.op ∉ [4#4]) :
    mayWrite s c (.progCode i) = false ∧ mayWrite s c (.progK i) = false := by
  have hgen : (c.op == 0x4#4 && decide (i < 9)) = false := by
    rw [Bool.and_eq_false_imp, beq_iff_eq]
    exact fun hop => decide_eq_false fun hi => h hi (by simp [hop])
  exact ⟨hgen, hgen⟩

/-- The last register of the map is PTGT3 at 0x08C (R21). -/
theorem memRead_regMap_none (h : 0x090 ≤ off) : memRead regMap off = none := by
  have hlast : ∀ x ∈ regMap, x.1 < 0x090 := by decide
  refine Option.eq_none_iff_forall_ne_some.2 fun r hr => ?_
  have := hlast _ (mem_of_memRead hr)
  omega

/-- The reserved offsets below the FB window (R21, R23, R70). -/
theorem placeAt_reserved {p : Params}
    (h : off = 0x054 ∨ (0x090 ≤ off ∧ off < 0x100) ∨ (0x100 + 8 * p.progCap ≤ off ∧ off < 0x10000)) :
    off < 0x10000 ∧ placeAt p off = .reserved := by
  rcases h with rfl | ⟨hge, hlt⟩ | ⟨hge, hlt⟩
  · exact ⟨by decide, placeAt_unlisted (by decide) rfl⟩
  · exact ⟨by omega, placeAt_unlisted hlt (memRead_regMap_none hge)⟩
  · exact ⟨hlt, placeAt_above_prog hge hlt⟩

/-- Settles O55: a read by its place, each register by its entry of the register map. -/
theorem hostReadsHaveNoSideEffects : Obligations.HostReadsHaveNoSideEffects := by
  refine ⟨fun s t w addr h => ?_, ?_, rfl, rfl, rfl⟩
  · obtain ⟨d, n, f, rfl⟩ := hostRead_frame h
    rfl
  intro s off ts hr ht
  dsimp only
  refine ⟨fun x hx => ?_, fun x hx => ?_, fun i hi hcap hgen v => ⟨fun hoff hv => ?_, fun hoff hv => ?_⟩, fun hal hoff => ?_⟩
  · refine step_read_control hr ht ?_
    convert hx using 1
    simp [controlReads, regMapControl, resultWriters, readReg, setWidth_bit, setWidth_nine, setWidth_half, fdescWord_eq,
      Config.idValue, configWord, statusWord, State.busy, finfoWord]
  · refine step_read_parse hr ht ?_
    convert hx using 1
    simp [parseReads, regMapParse, readReg, setWidth_half, pverdictWord, Ip6.word]
  · refine step_read_low hr ht (by omega) (by omega) (hoff ▸ placeAt_progCode hi hcap) (by simp [readPlace, progCodeAt, hv]) ?_
    exact fun c hc => (mayWrite_prog fun hi => hgen hi c hc).1
  · refine step_read_low hr ht (by omega) (by omega) (hoff ▸ placeAt_progK hi hcap) (by simp [readPlace, progKAt, hv]) ?_
    exact fun c hc => (mayWrite_prog fun hi => hgen hi c hc).2
  · obtain ⟨hlow, hp⟩ := placeAt_reserved hoff
    exact step_read_low hr ht hlow hal hp rfl fun _ _ => rfl

end Sys2Proof.Machine
end

section
/-!
Bus errors (R74), reads of the FB window (R72, R75) and reads of what the pending command may write (R84).
-/
namespace Sys2Proof.Machine

variable {s : State} {c : Pending} {ts : List Turn} {w : Width} {off i j k n : Nat}

/-! ## Bus errors -/

/-- Of the three widths only the 32-bit one is 4 bytes. -/
theorem Width.bytes_ne_four : w.bytes ≠ 4 ↔ w ≠ .w32 := by cases w <;> decide

/-- A narrow access below the FB window and a misaligned one are the bus errors (R74). -/
theorem busError_iff : busError w off = true ↔ (off < 0x10000 ∧ w ≠ .w32) ∨ off % w.bytes ≠ 0 := by
  simp [busError, Width.bytes_ne_four]

/-- Settles O53: either access takes the bus-error branch. -/
theorem busErrorHasNoEffect : Obligations.BusErrorHasNoEffect := by
  intro s w off v ts hr hoff hbad
  have hbus : busError w off = true := busError_iff.2 hbad
  refine ⟨fun ht => ?_, fun ht => ?_⟩
  all_goals
    rw [step_host hr ht]
    simp [hostAccess, offsetOf_base hoff, hbus, hostBusError]

/-! ## Bytes on the data lines -/

/-- The data lines of a read of each width whose lanes carry `f`: lane 0 on bits 7..0, the lines above the last lane 0 (R72). -/
def dataLines (f : Nat → Byte) : Width → Word
  | .w8 => 0#24 ++ f 0
  | .w16 => 0#16 ++ f 1 ++ f 0
  | .w32 => f 3 ++ f 2 ++ f 1 ++ f 0

theorem setWidth_byte (b : Byte) : b.setWidth 32 = 0#24 ++ b := BitVec.setWidth_eq_append (by decide)

/-- One more byte below those already on the data lines. -/
theorem shiftLeft_or_byte (x : BitVec n) (b : Byte) : (x.setWidth 32 <<< 8) ||| b.setWidth 32 = (x ++ b).setWidth 32 := by
  ext k hk
  by_cases h8 : k < 8
  · simp [BitVec.getLsbD_append, h8]
  · simp [BitVec.getLsbD_append, h8, BitVec.getLsbD_of_ge b k (Nat.not_lt.1 h8)]

theorem lanesWord_map_range' (f : Nat → Byte) (w : Width) : lanesWord ((List.range' 0 w.bytes).map f) = dataLines f w := by
  cases w with
  | w8 => simp [Width.bytes, List.range'_succ, lanesWord, dataLines, setWidth_byte]
  | w16 =>
    have hzero : (f 1).setWidth 32 = (0#16 ++ f 1).setWidth 32 := by
      rw [BitVec.setWidth_append]
      simp [setWidth_byte]
    simp [Width.bytes, List.range'_succ, lanesWord, dataLines, hzero, shiftLeft_or_byte]
  | w32 => simp [Width.bytes, List.range'_succ, lanesWord, dataLines, shiftLeft_or_byte]

/-! ## Reads of the FB window -/

theorem readLanes_ok {f : Nat → Byte} (h : ∀ k, i ≤ k → k < i + n → readLane s off k = .ok (f k)) :
    readLanes s off i n = .ok ((List.range' i n).map f) := by
  induction n generalizing i with
  | zero => rfl
  | succ n ih =>
    have hi : readLane s off i = .ok (f i) := h i (Nat.le_refl i) (by omega)
    have hrest := ih (i := i + 1) fun k hk hlt => h k (by omega) (by omega)
    rw [readLanes, hi, except_ok_bind, hrest, except_ok_bind, List.range'_succ, List.map_cons]

/-- An aligned read of the FB window: each lane on its data lines, and a free value drawn where some lane is free. -/
theorem step_read_fb {f : Nat → Byte} (hr : s.run = none) (ht : s.turns = .host (.read w (s.cfg.base + (0x10000 + j))) :: ts)
    (hal : j % w.bytes = 0) (hj : j < 0x10000) (hf : ∀ i < w.bytes, readLane s (0x10000 + j) i = .ok (f i)) :
    step s = .next { s with
      turns := ts, readData := some (dataLines f w)
      draws := if lanesFree s (0x10000 + j) w.bytes then s.draws + 1 else s.draws } := by
  have hlanes : readLanes { s with turns := ts } (0x10000 + j) 0 w.bytes = .ok ((List.range' 0 w.bytes).map f) :=
    readLanes_ok fun k _ hk => hf k (by omega)
  rw [step_read hr ht (by omega) (busError_fb hal), hostRead, readOffset, if_neg (by omega), hlanes, except_ok_bind, orUninit_ok,
    lanesWord_map_range']
  rfl

/-- CSUM_ICMP6 with WB = 1 alone may write a place of the FB window: the two bytes of its checksum field (R84). -/
theorem readsFree_fb_iff : readsFree s (placeAt s.cfg (0x10000 + k)) = true ↔
    k < s.cfg.fbSize ∧ (k = s.opb.toNat + 2 ∨ k = s.opb.toNat + 3) ∧ ∃ c, s.pending = some c ∧ c.op = 2#4 ∧ c.wb = true := by
  by_cases hk : k < s.cfg.fbSize
  · cases hp : s.pending with
    | none => simp [readsFree, hp]
    | some c =>
      simp only [readsFree, hp, placeAt_fb_below hk, mayWrite, hk, Bool.and_eq_true, decide_eq_true_eq, Bool.or_eq_true,
        beq_iff_eq, true_and, Option.some.injEq, exists_eq_left']
      exact and_comm
  · cases hp : s.pending <;> simp [readsFree, hp, placeAt_fb_above (Nat.not_lt.1 hk), mayWrite, hk]

/-- A lane carries its byte of FB, 0 at or above FB_SIZE, or its lane of the free value (R75, R84). -/
theorem readLane_ok {b : Byte} (hb : if j + i < s.cfg.fbSize then memRead s.fb (j + i) = some b else b = 0#8) :
    readLane s (0x10000 + j) i =
      .ok (if readsFree s (placeAt s.cfg (0x10000 + (j + i))) then lane (Config.freeRead s.draws) i else b) := by
  by_cases hlt : j + i < s.cfg.fbSize
  · rw [if_pos hlt] at hb
    simp [readLane, Nat.add_assoc, placeAt_fb_below hlt, fbByte_eq_ok.2 hb]
  · rw [if_neg hlt] at hb
    have hfree : readsFree s (placeAt s.cfg (0x10000 + (j + i))) = false :=
      Bool.eq_false_iff.2 fun h => hlt (readsFree_fb_iff.1 h).1
    rw [readLane_above i (Nat.not_lt.1 hlt), hfree, hb]
    rfl

theorem lanesFree_iff : lanesFree s (0x10000 + j) n = true ↔ ∃ i < n, readsFree s (placeAt s.cfg (0x10000 + (j + i))) = true := by
  simp [lanesFree, Nat.add_assoc]

/-- Settles O51: no lane is free, so each carries its byte. -/
theorem fbReadsReturnByteLanes : Obligations.FbReadsReturnByteLanes := by
  intro s w j b ts hr hidle ht hal hj hb
  have hheld : ∀ i < w.bytes, readsFree s (placeAt s.cfg (0x10000 + (j + i))) = false := fun i hi =>
    Bool.eq_false_iff.2 fun h => by
      obtain ⟨hlt, hfield, c, hc, hop, hwb⟩ := readsFree_fb_iff.1 h
      have := hidle c hc hop hwb i hi hlt
      omega
  have hnone : lanesFree s (0x10000 + j) w.bytes = false := Bool.eq_false_iff.2 fun h => by
    obtain ⟨i, hi, hfree⟩ := lanesFree_iff.1 h
    simp [hheld i hi] at hfree
  have hstep := step_read_fb hr ht hal hj fun i hi => by
    rw [readLane_ok (hb i hi), hheld i hi, if_neg Bool.false_ne_true]
  rw [hnone] at hstep
  refine ⟨?_, ?_, ?_⟩ <;> rintro rfl <;> exact hstep

/-! ## Reads of what the pending command may write -/

/-- A 32-bit read below the FB window of a place the pending command may write draws a free value (R84). -/
theorem step_read_low_free {p : Place} {x : Word} (hr : s.run = none) (hc : s.pending = some c)
    (ht : s.turns = .host (.read .w32 (s.cfg.base + off)) :: ts) (hoff : off < 0x10000) (hal : off % 4 = 0)
    (hp : placeAt s.cfg off = p) (hx : readPlace s p = .ok x) (hw : mayWrite s c p = true) :
    step s = .next { s with turns := ts, readData := some (Config.freeRead s.draws), draws := s.draws + 1 } := by
  have hx' : readPlace { s with turns := ts } p = .ok x := (readPlace_turns ts p).trans hx
  have hfree : readsFree { s with turns := ts } p = true := by
    simp only [readsFree, hc]
    exact (mayWrite_turns ts c p).trans hw
  rw [step_read hr ht (by omega) (busError_word hal)]
  simp [hostRead, readOffset, hoff, hp, hx', hfree]

/-- The result registers of each command by their offsets (R21, R84). -/
theorem resultRegister_at {op : BitVec 4}
    (h : (op = 1#4 ∧ off = 0x024) ∨ (op = 2#4 ∧ (off = 0x024 ∨ off = 0x028))
      ∨ (op = 3#4 ∧ 0x044 ≤ off ∧ off ≤ 0x08C ∧ off % 4 = 0 ∧ off ≠ 0x054) ∨ (op = 4#4 ∧ (off = 0x034 ∨ off = 0x02C))
      ∨ (op = 5#4 ∧ 0x038 ≤ off ∧ off ≤ 0x040 ∧ off % 4 = 0)) :
    ∃ r, memRead regMap off = some r ∧ op ∈ resultWriters r := by
  rcases h with ⟨rfl, rfl⟩ | ⟨rfl, rfl | rfl⟩ | ⟨rfl, hge, hle, hal, hne⟩ | ⟨rfl, rfl | rfl⟩ | ⟨rfl, hge, hle, hal⟩
  · exact ⟨.acc, rfl, by decide⟩
  · exact ⟨.acc, rfl, by decide⟩
  · exact ⟨.csumResult, rfl, by decide⟩
  · have hlisted : ∀ o < 0x090, 0x044 ≤ o ∧ o % 4 = 0 ∧ o ≠ 0x054 → o ∈ regMapParse.map Prod.fst := by decide
    obtain ⟨x, hx, rfl⟩ := List.mem_map.1 (hlisted off (by omega) ⟨hge, hal, hne⟩)
    exact ⟨x.2, memRead_regMap x (List.mem_append_right _ hx), by simp [resultWriters_regMapParse x hx]⟩
  · exact ⟨.progLen, rfl, by decide⟩
  · exact ⟨.fdesc, rfl, by decide⟩
  · obtain rfl | rfl | rfl : off = 0x038 ∨ off = 0x03C ∨ off = 0x040 := by omega
    · exact ⟨.fresult, rfl, by decide⟩
    · exact ⟨.finfo, rfl, by decide⟩
    · exact ⟨.fa, rfl, by decide⟩

/-- The two words of an entry inside the program window (R21), with no bound on PROG_CAP itself. -/
theorem placeAt_entry {p : Params} (hi : i < p.progCap) (h256 : i < 256) :
    placeAt p (0x100 + 8 * i) = .progCode i ∧ placeAt p (0x104 + 8 * i) = .progK i := by
  have hsub : 260 + 8 * i - 256 = 8 * i + 4 := by omega
  constructor
  · simp [placeAt, show 256 + 8 * i < 2304 by omega, hi]
  · simp [placeAt, show ¬ 260 + 8 * i < 256 by omega, show 260 + 8 * i < 2304 by omega, hsub,
      show (8 * i + 4) / 8 = i by omega, show (8 * i + 4) % 8 = 4 by omega, hi]

/-- A one-bit field as the word it reads as (R21). -/
theorem setWidth_ofBool (b : Bool) : (BitVec.ofBool b).setWidth 32 = if b then 1#32 else 0#32 := by cases b <;> rfl

/-- A register that is no command's result reads as it is, busy or not (R84). -/
theorem step_read_plain {r : Reg} (hr : s.run = none) (ht : s.turns = .host (.read .w32 (s.cfg.base + off)) :: ts)
    (hm : memRead regMap off = some r) (hw : resultWriters r = []) :
    step s = .next { s with turns := ts, readData := some (readReg s r) } :=
  step_read_reg hr ht hm fun _ _ => by simp [hw]

/-- Settles O56: by place below the FB window, lane by lane in it. -/
theorem resultReadsWhileBusyAreFree : Obligations.ResultReadsWhileBusyAreFree := by
  refine ⟨fun s c off ts hr hc ht => ⟨fun hres => ?_, fun i v hop hi hcap hoff => ?_, ?_, ?_, ?_, ?_⟩, ?_⟩
  · obtain ⟨r, hm, hop⟩ := resultRegister_at hres
    obtain ⟨hlt, hal⟩ := regMap_bounds _ (mem_of_memRead hm)
    exact step_read_low_free hr hc ht (Nat.lt_trans hlt (by decide)) hal (placeAt_reg hm) rfl ((mayWrite_reg s c r).2 hop)
  · obtain ⟨hcode, hk⟩ := placeAt_entry hcap (show i < 256 by omega)
    rcases hoff with ⟨rfl, hv⟩ | ⟨rfl, hv⟩
    · exact step_read_low_free (x := v) hr hc ht (by omega) (by omega) hcode (by simp [readPlace, progCodeAt, hv])
        (by simp [mayWrite, hop, hi])
    · exact step_read_low_free (x := v) hr hc ht (by omega) (by omega) hk (by simp [readPlace, progKAt, hv])
        (by simp [mayWrite, hop, hi])
  · rintro rfl
    exact step_read_plain (r := .id) hr ht rfl rfl
  · rintro rfl
    exact step_read_plain (r := .config) hr ht rfl rfl
  · rintro rfl
    rw [step_read_plain (r := .status) hr ht rfl rfl]
    simp [readReg, statusWord, State.busy, hc]
  · rintro rfl
    rw [step_read_plain (r := .ctrl) hr ht rfl rfl]
    simp only [readReg, setWidth_ofBool]
  · intro s c w j b ts hr hc hop hwb ht hal hj hb field lanes hsome
    have hfield (i : Nat) : readsFree s (placeAt s.cfg (0x10000 + (j + i))) = field i := by
      rw [Bool.eq_iff_iff, readsFree_fb_iff]
      simp [field, hc, hop, hwb]
    have hdraw : lanesFree s (0x10000 + j) w.bytes = true := by
      simpa only [lanesFree_iff, hfield] using hsome
    have hstep := step_read_fb (f := lanes) hr ht hal hj fun i hi => by
      rw [readLane_ok (hb i hi), hfield]
      rfl
    rw [hdraw] at hstep
    refine ⟨?_, ?_, ?_⟩ <;> rintro rfl <;> exact hstep

end Sys2Proof.Machine
end

section
/-!
Decoding and encoding are inverse to each other (R100, R103, R104, R107, R110 to R112): the encoder loses no field of a
well-formed instruction, and the decoder drops no bit of a word but the ignored bits of a command.
-/
namespace Sys2Proof

/-! ## Well-formed terms -/

theorem wellFormed_reservedLow_iff {op : BitVec 4} {wb : Bool} :
    (Instr.reservedLow op wb).WellFormed ↔ op = 0x6#4 ∨ op = 0x7#4 := by
  simp [Instr.WellFormed, Instr.wellFormed]

theorem wellFormed_reservedHigh_iff {op : BitVec 4} {wb : Bool} : (Instr.reservedHigh op wb).WellFormed ↔ 8 ≤ op.toNat := by
  simp [Instr.WellFormed, Instr.wellFormed]

theorem wellFormed_illegalBpf_iff {code : Half} {jt jf : Byte} {k : Word} :
    (Instr.illegalBpf code jt jf k).WellFormed ↔
      code ≠ 0x0028#16 ∧ code ≠ 0x0030#16 ∧ code ≠ 0x0015#16 ∧ code ≠ 0x0006#16 := by
  simp [Instr.WellFormed, Instr.wellFormed, supportedCodes]

/-! ## Command words -/

theorem decodeOp_reservedLow {op : BitVec 4} (wb : Bool) (h : op = 0x6#4 ∨ op = 0x7#4) :
    decodeOp op wb = .reservedLow op wb := by
  rcases h with rfl | rfl <;> rfl

theorem decodeOp_reservedHigh {op : BitVec 4} (wb : Bool) (h : 8 ≤ op.toNat) : decodeOp op wb = .reservedHigh op wb := by
  have hne (n : Nat) (hn : n < 8) : op ≠ BitVec.ofNat 4 n := fun he => by
    rw [he, BitVec.toNat_ofNat] at h
    omega
  simp [decodeOp, hne]

/-- A reserved command carries an OP of its own row (R104, R112). -/
theorem decodeOp_wellFormed (op : BitVec 4) (wb : Bool) : (decodeOp op wb).WellFormed := by
  fun_cases decodeOp op wb with
  | case7 _ _ _ _ _ _ hlow => exact wellFormed_reservedLow_iff.2 hlow
  | case8 => exact wellFormed_reservedHigh_iff.2 (by bv_omega)
  | _ => rfl

theorem encode_decodeOp (op : BitVec 4) (wb : Bool) : encode (decodeOp op wb) = [commandWord op wb] := by
  fun_cases decodeOp op wb <;> simp [encode, *]

theorem decodeWords_commandWord (op : BitVec 4) (wb : Bool) :
    decodeWords .command [commandWord op wb] = .ok (decodeOp op wb) := by
  simp [decodeWords, decodeCommand]

/-! ## Entries -/

/-- The entry of a form, with the code, jt, jf and k its words carry (R110, R111). -/
def BpfForm.entry (code : Half) (jt jf : Byte) (k : Word) : BpfForm → Instr
  | .ldh => .ldh jt jf k
  | .ldb => .ldb jt jf k
  | .jeq => .jeq jt jf k
  | .ret => .ret jt jf k
  | .illegal => .illegalBpf code jt jf k

theorem decodeEntry_eq_entry (c k : Word) :
    decodeEntry c k = (bpfForm (entryCode c)).entry (entryCode c) (entryJt c) (entryJf c) k := by
  unfold decodeEntry
  cases bpfForm (entryCode c) <;> rfl

theorem decodeEntry_codeWord (code : Half) (jt jf : Byte) (k : Word) :
    decodeEntry (codeWord code jt jf) k = (bpfForm code).entry code jt jf k := by
  simp [decodeEntry_eq_entry]

theorem bpfForm_illegal {code : Half} (h : code ≠ 0x0028#16 ∧ code ≠ 0x0030#16 ∧ code ≠ 0x0015#16 ∧ code ≠ 0x0006#16) :
    bpfForm code = .illegal := by
  obtain ⟨hldh, hldb, hjeq, hret⟩ := h
  simp [bpfForm, hldh, hldb, hjeq, hret]

/-- An illegal entry carries none of the four supported codes (R111). -/
theorem entry_bpfForm_wellFormed (code : Half) (jt jf : Byte) (k : Word) :
    ((bpfForm code).entry code jt jf k).WellFormed := by
  fun_cases bpfForm code with
  | case5 hldh hldb hjeq hret => exact wellFormed_illegalBpf_iff.2 ⟨hldh, hldb, hjeq, hret⟩
  | _ => rfl

theorem encode_entry_bpfForm (code : Half) (jt jf : Byte) (k : Word) :
    encode ((bpfForm code).entry code jt jf k) = [codeWord code jt jf, k] := by
  fun_cases bpfForm code <;> simp [BpfForm.entry, encode, *]

theorem decodeWords_codeWord (code : Half) (jt jf : Byte) (k : Word) :
    decodeWords .entry [codeWord code jt jf, k] = .ok ((bpfForm code).entry code jt jf k) := by
  simp [decodeWords, decodeEntry_codeWord]

/-! ## The two directions -/

/-- Settles O2: the fields of the encoder's words are the operands, and a reserved OP or an unsupported code selects its own
row. -/
theorem decodeOfEncodeIsIdentity : Obligations.DecodeOfEncodeIsIdentity := by
  intro i hwf
  cases i with
  | nop wb => exact decodeWords_commandWord 0x0 wb
  | csumAdd wb => exact decodeWords_commandWord 0x1 wb
  | csumIcmp6 wb => exact decodeWords_commandWord 0x2 wb
  | parse wb => exact decodeWords_commandWord 0x3 wb
  | filterGen wb => exact decodeWords_commandWord 0x4 wb
  | filterRun wb => exact decodeWords_commandWord 0x5 wb
  | reservedLow op wb =>
    have hop := decodeOp_reservedLow wb (wellFormed_reservedLow_iff.1 hwf)
    exact (decodeWords_commandWord op wb).trans (congrArg _ hop)
  | reservedHigh op wb =>
    have hop := decodeOp_reservedHigh wb (wellFormed_reservedHigh_iff.1 hwf)
    exact (decodeWords_commandWord op wb).trans (congrArg _ hop)
  | ldh jt jf k => exact decodeWords_codeWord 0x0028 jt jf k
  | ldb jt jf k => exact decodeWords_codeWord 0x0030 jt jf k
  | jeq jt jf k => exact decodeWords_codeWord 0x0015 jt jf k
  | ret jt jf k => exact decodeWords_codeWord 0x0006 jt jf k
  | illegalBpf code jt jf k =>
    have hform := bpfForm_illegal (wellFormed_illegalBpf_iff.1 hwf)
    exact (decodeWords_codeWord code jt jf k).trans (by rw [hform]; rfl)

/-- Settles O3: the word rebuilt from OP and WB is the word under its mask, and PROG_CODE is rebuilt from its three fields. -/
theorem decodedWordsKeepTheirBits : Obligations.DecodedWordsKeepTheirBits := by
  refine ⟨fun w => ⟨decodeOp_wellFormed _ _, ?_⟩, fun c k => ?_⟩
  · rw [decodeCommand, encode_decodeOp, commandWord_fields]
  · rw [decodeEntry_eq_entry, encode_entry_bpfForm, codeWord_fields]
    exact ⟨entry_bpfForm_wellFormed _ _ _ _, rfl⟩

/-- Settles O1: each word is decoded by evaluation. -/
theorem workedEncodingsDecode : Obligations.WorkedEncodingsDecode := by
  unfold Obligations.WorkedEncodingsDecode
  decide

end Sys2Proof
end

section
/-!
Accepting a command, and what each instruction may write (R17, R55, R101, R102, R105, R106).
-/
namespace Sys2Proof.Machine

variable {s t : State}

/-! ## The host's write to CMD -/

/-- Settles O6: with no command pending the write to CMD is an acceptance. -/
theorem idleCommandWriteIsAccepted : Obligations.IdleCommandWriteIsAccepted := by
  intro s v ts hr hp ht
  have hstep := step_write_reg (r := .cmd) rfl hr ht (.inl hp)
  exact hstep.trans (congrArg _ (writeCmd_idle (s := { s with turns := ts }) hp _))

/-- Settles O7: CMD is no input of commands, so the write while BUSY is no hazard and sets OVR. -/
theorem busyCommandWriteSetsOvrOnly : Obligations.BusyCommandWriteSetsOvrOnly := by
  intro s c v ts hr hp ht
  have hstep := step_write_reg (r := .cmd) rfl hr ht (.inr rfl)
  exact hstep.trans (congrArg _ (writeCmd_busy (s := { s with turns := ts }) hp _))

/-! ## Writeback -/

/-- Settles O11: CSUM_ICMP6 apart, each command's meaning leaves its WB unread. -/
theorem wbReadByCsumIcmp6Only : Obligations.WbReadByCsumIcmp6Only := by
  intro s op h
  simp only [decodeOp, if_neg h]
  split_ifs <;> rfl

/-! ## What an entry of the filter program may write -/

/-- At most the status, FRESULT, FINFO, FA and the run state differ: all that an entry or the end of a run writes (R56, R241). -/
def FilterWrites (s t : State) : Prop :=
  ∃ p d e c v f a q, t = { s with
    pending := p, done := d, err := e, errcode := c, fresult := v, finfo := f, fa := a, run := q }

theorem RunEnds.filterWrites {r : BpfRun} (h : RunEnds r s t) : FilterWrites s t := by
  obtain ⟨code, v, oob, -, rfl⟩ := h
  exact ⟨_, _, _, _, _, _, _, _, rfl⟩

theorem RunGoesOn.filterWrites {r : BpfRun} (h : RunGoesOn r s t) : FilterWrites s t := by
  obtain ⟨a, pc, -, -, rfl⟩ := h
  exact ⟨_, _, _, _, _, _, _, _, rfl⟩

/-- Outside a run no entry goes on (R56). -/
theorem execEntry_outside (c k : Word) (hr : s.run = none) : execEntry c k s = .fault .noFilterRun := by
  unfold execEntry
  cases bpfForm (entryCode c) <;> simp only [execLdh, execLdb, execJeq, execRet, execIllegalBpf, withRun, hr]

theorem execEntry_filterWrites {c k : Word} (h : execEntry c k s = .next t) : FilterWrites s t := by
  cases hr : s.run with
  | none => cases (execEntry_outside c k hr).symm.trans h
  | some r => exact (execEntry_cases hr h).elim RunGoesOn.filterWrites RunEnds.filterWrites

/-- Every entry has the meaning of two words; those of an illegal one do not matter beyond its form (R246). -/
theorem exec_entry_eq_execEntry {i : Instr} (hf : i.format = .entry) (s : State) : ∃ c k, exec i s = execEntry c k s := by
  have words (code : Half) (jt jf : Byte) (k : Word) :
      exec ((bpfForm code).entry code jt jf k) s = execEntry (codeWord code jt jf) k s := by
    rw [execEntry_eq_exec, decodeEntry_codeWord]
  cases i with
  | ldh jt jf k => exact ⟨_, _, words 0x0028 jt jf k⟩
  | ldb jt jf k => exact ⟨_, _, words 0x0030 jt jf k⟩
  | jeq jt jf k => exact ⟨_, _, words 0x0015 jt jf k⟩
  | ret jt jf k => exact ⟨_, _, words 0x0006 jt jf k⟩
  | illegalBpf code jt jf k => exact ⟨_, _, words 0 0 0 0⟩
  | _ => cases hf

/-! ## What a command may write -/

/-- Writeback stores two bytes, at OPB + 2 and OPB + 3 (R150). -/
theorem memRead_icmp6Done_fb (wb : Bool) (sum : Word) {a : Nat} (h2 : a ≠ s.opb.toNat + 2) (h3 : a ≠ s.opb.toNat + 3) :
    memRead (icmp6Done wb sum s).fb a = memRead s.fb a := by
  cases wb with
  | false => rfl
  | true => exact memRead_memWriteList_outside _ _ (by simp only [opbVal, List.length_cons, List.length_nil]; omega)

/-- Without writeback FB stays (R150). -/
theorem icmp6Done_fb (wb : Bool) (sum : Word) (s : State) :
    (icmp6Done wb sum s).fb = s.fb ∨ Instr.csumIcmp6 wb = .csumIcmp6 true := by
  cases wb with
  | false => exact .inl rfl
  | true => exact .inr rfl

/-- Settles O47: an entry writes what a run writes, and a command what its own case lemma says. -/
theorem instructionsWriteOnlyTheirResults : Obligations.InstructionsWriteOnlyTheirResults := by
  intro i s t h
  cases hf : i.format with
  | entry =>
    obtain ⟨c, k, hexec⟩ := exec_entry_eq_execEntry hf s
    obtain ⟨p, d, e, code, v, f, a, q, rfl⟩ := execEntry_filterWrites (hexec ▸ h)
    simp
  | command =>
    cases i with
    | nop wb =>
      obtain rfl := finishOk_eq_next h
      simp
    | csumAdd wb => rcases execCsumAdd_cases (wb := wb) h with ⟨-, rfl⟩ | ⟨-, bs, -, rfl⟩ <;> simp
    | csumIcmp6 wb =>
      rcases execCsumIcmp6_cases (wb := wb) h with rfl | rfl | ⟨-, -, -, sum, -, rfl⟩
      · simp
      · simp
      · exact ⟨by simp [icmp6Done], .inr (.inr ⟨wb, rfl⟩), .inr ⟨wb, rfl⟩, icmp6Done_fb wb sum s,
          fun a => memRead_icmp6Done_fb wb sum, .inl ⟨rfl, rfl⟩, .inl rfl, .inl ⟨rfl, rfl, rfl⟩⟩
    | parse wb => rcases execParse_cases (wb := wb) h with ⟨-, rfl⟩ | ⟨-, r, -, rfl⟩ <;> simp
    | filterGen wb =>
      obtain rfl := finishOk_eq_next (s := { s with prog := memWriteList s.prog 0 genWords, progLen := 9#9 }) h
      simp
    | filterRun wb =>
      rcases execFilterRun_cases (wb := wb) h with ⟨rfl, -⟩ | rfl | ⟨-, -, -, r, -, -, hend⟩
      · simp
      · simp
      · obtain ⟨p, d, e, code, v, f, a, q, rfl⟩ := hend.filterWrites
        simp
    | reservedLow op wb =>
      obtain rfl := raiseErr_eq_next h
      simp
    | reservedHigh op wb =>
      obtain rfl := raiseErr_eq_next h
      simp
    | _ => cases hf

end Sys2Proof.Machine
end

section
/-!
The checksum as arithmetic: each fold of a word, and so the whole sum, as an integer (R140 to R142), and what follows for single
bytes (R152) and for a message with its checksum in place (R153).
-/
namespace Sys2Proof.Machine

variable {s seed : Word} {b x y : List Byte}

/-! ## The folded value of an integer sum -/

/-- What folding leaves of an integer sum: 0 of 0, else its residue modulo 0xFFFF taken between 1 and 0xFFFF (R142(b)). -/
def foldedSum (t : Nat) : Nat := if t = 0 then 0 else (t - 1) % 0xFFFF + 1

theorem foldedSum_le (t : Nat) : foldedSum t ≤ 0xFFFF := by unfold foldedSum; split <;> omega

theorem foldedSum_pos {t : Nat} (h : 1 ≤ t) : 1 ≤ foldedSum t := by unfold foldedSum; split <;> omega

theorem foldedSum_of_le {t : Nat} (h : t ≤ 0xFFFF) : foldedSum t = t := by unfold foldedSum; split <;> omega

theorem foldedSum_mod (t : Nat) : foldedSum t % 0xFFFF = t % 0xFFFF := by unfold foldedSum; split <;> omega

/-- A part of the sum may be folded first. -/
theorem foldedSum_foldedSum_add (t n : Nat) : foldedSum (foldedSum t + n) = foldedSum (t + n) := by
  unfold foldedSum; split_ifs <;> omega

theorem foldedSum_eq_ffff {t : Nat} (h : 1 ≤ t) (hmod : t % 0xFFFF = 0) : foldedSum t = 0xFFFF := by
  unfold foldedSum; split <;> omega

/-! ## One fold -/

theorem toNat_pair (p q : Byte) : (p ++ q : Half).toNat = p.toNat * 256 + q.toNat := by
  rw [BitVec.toNat_append, ← Nat.shiftLeft_add_eq_or_of_lt q.isLt, Nat.shiftLeft_eq]

/-- R141 in integers. -/
theorem toNat_foldStep (s : Word) (w : Half) : (foldStep s w).toNat =
    if 0xFFFF < (s.toNat + w.toNat) % 2 ^ 32 then (s.toNat + w.toNat) % 2 ^ 32 - 0xFFFF else (s.toNat + w.toNat) % 2 ^ 32 := by
  have hadd : (s + w.setWidth 32).toNat = (s.toNat + w.toNat) % 2 ^ 32 := by simp
  have hlt : 0xFFFF#32 < s + w.setWidth 32 ↔ 0xFFFF < (s.toNat + w.toNat) % 2 ^ 32 := by rw [BitVec.lt_def, hadd]; rfl
  simp only [foldStep, hlt]
  split
  · rename_i h
    rw [BitVec.toNat_sub_of_le (BitVec.le_of_lt (hlt.2 h)), hadd]; rfl
  · exact hadd

/-- From a sum of 16 bits the add cannot wrap, and one subtraction folds it. -/
theorem toNat_foldStep_of_le (h : s.toNat ≤ 0xFFFF) (w : Half) : (foldStep s w).toNat = foldedSum (s.toNat + w.toNat) := by
  have hw := w.isLt
  rw [toNat_foldStep]
  unfold foldedSum
  split_ifs <;> omega

theorem foldStep_le (h : s.toNat ≤ 0xFFFF) (w : Half) : (foldStep s w).toNat ≤ 0xFFFF :=
  toNat_foldStep_of_le h w ▸ foldedSum_le _

/-! ## The whole sum -/

/-- R142(b): the checksum of 16-bit seeds is the folded integer sum. -/
theorem toNat_checksum (h : seed.toNat ≤ 0xFFFF) : (checksum seed b).toNat = foldedSum (seed.toNat + wordSum b) := by
  fun_induction checksum seed b with
  | case1 seed => exact (foldedSum_of_le h).symm
  | case2 seed a => simp [toNat_foldStep_of_le h, toNat_pair, wordSum]
  | case3 seed a b rest ih =>
    rw [ih (foldStep_le h _), toNat_foldStep_of_le h, foldedSum_foldedSum_add, toNat_pair, Nat.add_assoc]
    rfl

theorem toNat_checksum_zero (b : List Byte) : (checksum 0 b).toNat = foldedSum (wordSum b) := by
  rw [toNat_checksum (by decide)]; simp

theorem checksum_le (h : seed.toNat ≤ 0xFFFF) : (checksum seed b).toNat ≤ 0xFFFF := toNat_checksum h ▸ foldedSum_le _

/-- R142(c). -/
theorem checksum_append (hx : x.length % 2 = 0) : checksum (checksum seed x) y = checksum seed (x ++ y) := by
  fun_induction checksum seed x with
  | case1 seed => rfl
  | case2 seed a => cases hx
  | case3 seed a b rest ih => exact ih ((Nat.add_mod_right rest.length 2).symm.trans hx)

/-- R140's loop: fold the pairs by their index, then the odd byte. -/
theorem checksum_eq_foldl (seed : Word) (b : List Byte) :
    checksum seed b =
      let s := (List.range (b.length / 2)).foldl (fun s i => foldStep s (b.getD (2 * i) 0 ++ b.getD (2 * i + 1) 0)) seed
      if b.length % 2 = 1 then foldStep s (b.getD (b.length - 1) 0 ++ 0x00#8) else s := by
  fun_induction checksum seed b with
  | case1 seed => rfl
  | case2 seed a => simp
  | case3 seed a b rest ih =>
    have hhalf : (a :: b :: rest).length / 2 = rest.length / 2 + 1 := Nat.add_div_right rest.length two_pos
    have hodd : (a :: b :: rest).length % 2 = rest.length % 2 := Nat.add_mod_right rest.length 2
    rw [ih, hhalf, hodd, List.range_succ_eq_map, List.foldl_cons, List.foldl_map]
    refine ite_congr rfl (fun h => congrArg _ ?_) fun _ => rfl
    have hlast : (a :: b :: rest).length - 1 = rest.length - 1 + 1 + 1 := by simp; omega
    rw [hlast]; rfl

/-! ## Sums of words -/

theorem wordSum_append (hx : x.length % 2 = 0) : wordSum (x ++ y) = wordSum x + wordSum y := by
  fun_induction wordSum x with
  | case1 => simp
  | case2 a => cases hx
  | case3 a b rest ih =>
    have htail := ih ((Nat.add_mod_right rest.length 2).symm.trans hx)
    simp only [List.cons_append, wordSum, htail, Nat.add_assoc]

/-- How often the byte at place `j` counts in the integer sum: it is a high byte at an even place. -/
def byteWeight (j : Nat) : Nat := if j % 2 = 0 then 256 else 1

theorem wordSum_set {j : Nat} (hj : j < b.length) (v : Byte) :
    wordSum (b.set j v) + byteWeight j * (b.getD j 0).toNat = wordSum b + byteWeight j * v.toNat := by
  fun_induction wordSum b generalizing j with
  | case1 => cases hj
  | case2 a =>
    obtain rfl : j = 0 := by simpa using hj
    simp [wordSum, byteWeight]; omega
  | case3 a b rest ih =>
    match j with
    | 0 => simp [wordSum, byteWeight]; omega
    | 1 => simp [wordSum, byteWeight]; omega
    | j + 2 =>
      have htail := ih (j := j) (by simpa using hj)
      have hweight : byteWeight (j + 2) = byteWeight j := by rw [byteWeight, Nat.add_mod_right, byteWeight]
      simp only [List.set_cons_succ, wordSum, List.getD_cons_succ, hweight]
      omega

/-- R152 for any change of one byte: the integer sums differ by less than 0xFFFF, so their folded values differ. -/
theorem checksum_set_ne {j : Nat} {v : Byte} (h : seed.toNat ≤ 0xFFFF) (hj : j < b.length) (hv : v ≠ b.getD j 0) :
    checksum seed (b.set j v) ≠ checksum seed b := by
  intro heq
  have hmod : (seed.toNat + wordSum (b.set j v)) % 0xFFFF = (seed.toNat + wordSum b) % 0xFFFF := by
    rw [← foldedSum_mod, ← foldedSum_mod (_ + wordSum b), ← toNat_checksum h, ← toNat_checksum h, heq]
  have hset := wordSum_set hj v
  have hne : v.toNat ≠ (b.getD j 0).toNat := fun he => hv (BitVec.eq_of_toNat_eq he)
  have hnew := v.isLt
  have hold := (b.getD j 0).isLt
  unfold byteWeight at hset
  split at hset <;> omega

theorem xor_bit_ne (v : Byte) {bit : Nat} (h : bit < 8) : v ^^^ (1#8 <<< bit) ≠ v := by
  intro heq
  have := congrArg (BitVec.getLsbD · bit) heq
  simp [h] at this

/-- Only the field's own word is left out of the sum when the field is taken as zero (R146). -/
theorem wordSum_field {m : List Byte} (h : 4 ≤ m.length) :
    wordSum m = wordSum (m.take 2 ++ [0, 0] ++ m.drop 4) + (m.getD 2 0 ++ m.getD 3 0 : Half).toNat := by
  match m, h with
  | p :: q :: hi :: lo :: rest, _ =>
    simp [wordSum, toNat_pair]; omega

theorem toNat_complement16 {sum : Word} (h : sum.toNat ≤ 0xFFFF) : (~~~ sum.extractLsb' 0 16).toNat = 0xFFFF - sum.toNat := by
  simp; omega

/-! ## The statements -/

/-- Settles O13: one fold by its integer value, the loop by induction over the pairs. -/
theorem checksumFoldsPairedWords : Obligations.ChecksumFoldsPairedWords := ⟨toNat_foldStep, checksum_eq_foldl⟩

/-- Settles O14: a folded sum has at most 16 bits, and each prefix is itself a sequence of bytes. -/
theorem checksumStaysSixteenBits : Obligations.ChecksumStaysSixteenBits := fun _ _ h => ⟨fun _ => checksum_le h, checksum_le h⟩

/-- Settles O15: the definition of the folded sum is the closed form. -/
theorem checksumClosedForm : Obligations.ChecksumClosedForm := fun _ _ h => toNat_checksum h

/-- Settles O16, by induction over the pairs of the first piece. -/
theorem checksumChainsAtEvenLengths : Obligations.ChecksumChainsAtEvenLengths := fun _ _ _ hx => checksum_append hx

/-- Settles O17: a flipped bit is a changed byte. -/
theorem singleBitFlipChangesTheSum : Obligations.SingleBitFlipChangesTheSum :=
  fun _ _ _ _ h hj hbit => checksum_set_ne h hj (xor_bit_ne _ hbit)

/-- Settles O22: the field adds what lacks to a multiple of 0xFFFF, which folds to 0xFFFF since the sum is not 0. -/
theorem verificationBySummation : Obligations.VerificationBySummation := by
  intro ph m r hph hm hr hpos sum hsum hfield
  have heven : ph.length % 2 = 0 := by omega
  have hS : sum.toNat = foldedSum (wordSum ph + wordSum (m.take 2 ++ [0, 0] ++ m.drop 4)) := by
    rw [hsum, toNat_checksum_zero, wordSum_append heven]
  have hle : sum.toNat ≤ 0xFFFF := hS ▸ foldedSum_le _
  have hmod := hS ▸ foldedSum_mod (wordSum ph + wordSum (m.take 2 ++ [0, 0] ++ m.drop 4))
  have hfill : (sum.toNat + r.toNat) % 0xFFFF = 0 := by
    rcases hfield with hc | ⟨hall, hc⟩
    · rw [hc, toNat_complement16 hle]; omega
    · rw [hall, hc]; rfl
  apply BitVec.eq_of_toNat_eq
  rw [toNat_checksum_zero, wordSum_append heven, wordSum_field hm, hr]
  exact foldedSum_eq_ffff (by omega) (by omega)

end Sys2Proof.Machine
end

section
/-!
The commands of the checksum engine: what CSUM_ADD and CSUM_ICMP6 answer on each input (R143, R150), the bounds of the sum R150
leaves, and the round trip of the checksum field (R151); and NOP (R160).
-/
namespace Sys2Proof.Machine

variable {s t : State} {fb : List Host.Cell} {a hdr i n : Nat} {sum : Word} {wb : Bool}

/-! ## Bytes held -/

theorem holds_fbSpan {bs : List Byte} (hb : Holds fb a bs) : fbSpan fb a bs.length = .ok bs := fbSpan_eq_ok.2 ⟨rfl, hb⟩

theorem fbSpan_holds {bs : List Byte} (hs : fbSpan fb a n = .ok bs) : bs.length = n ∧ Holds fb a bs := by
  obtain ⟨rfl, hb⟩ := fbSpan_eq_ok.1 hs
  exact ⟨rfl, hb⟩

theorem Holds.append {bs cs : List Byte} (hb : Holds fb a bs) (hc : Holds fb (a + bs.length) cs) : Holds fb a (bs ++ cs) := by
  intro j hj
  by_cases hlt : j < bs.length
  · rw [hb j hlt, List.getElem?_append_left hlt]
  · rw [List.length_append] at hj
    have := hc (j - bs.length) (by omega)
    rwa [Nat.add_assoc, Nat.add_sub_of_le (by omega), ← List.getElem?_append_right (by omega)] at this

theorem Holds.written {bs : List Byte} (hb : Holds fb a bs) : Written fb a bs.length := fun j hj => by simp [hb j hj, hj]

theorem Written.holds (hw : Written fb a n) : ∃ bs, bs.length = n ∧ Holds fb a bs := by
  obtain ⟨bs, hbs⟩ := fbSpan_written hw
  exact ⟨bs, fbSpan_holds hbs⟩

/-! ## NOP and CSUM_ADD -/

/-- Settles O9: NOP is completion alone. -/
theorem nopOnlyCompletes : Obligations.NopOnlyCompletes := fun _ _ => rfl

theorem exec_csumAdd_past (hr : s.cfg.fbSize < s.opa.toNat + s.oplen.toNat) : exec (.csumAdd wb) s = raiseErr .range s :=
  if_pos (pastFb_of_lt hr)

theorem exec_csumAdd_within (hr : s.opa.toNat + s.oplen.toNat ≤ s.cfg.fbSize) : exec (.csumAdd wb) s =
    orUninit s (fbSpan s.fb s.opa.toNat s.oplen.toNat) fun bs => finishOk { s with acc := checksum s.acc bs } :=
  if_neg (by simp [pastFb_of_le, opaVal, oplenVal, hr])

/-- Settles O18: past the end of FB it stops at the check; inside, by what the read of the span finds. -/
theorem csumAddBehaviour : Obligations.CsumAddBehaviour := by
  intro s wb
  refine ⟨exec_csumAdd_past, fun hr bs hl hb => ?_, fun hr j hj => ?_⟩
  · rw [exec_csumAdd_within hr, ← hl, holds_fbSpan hb]; rfl
  · rw [exec_csumAdd_within hr, fbSpan_stops hj]; rfl

/-! ## CSUM_ICMP6 -/

theorem exec_csumIcmp6_past (hr : s.cfg.fbSize < s.opa.toNat + 40 ∨ s.cfg.fbSize < s.opb.toNat + s.oplen.toNat) :
    exec (.csumIcmp6 wb) s = raiseErr .range s := by
  by_cases hh : s.cfg.fbSize < s.opa.toNat + 40
  · exact if_pos (pastFb_of_lt hh)
  · exact (if_neg (ne_true_of_eq_false (pastFb_of_le (Nat.not_lt.1 hh)))).trans (if_pos (pastFb_of_lt (hr.resolve_left hh)))

section
variable (hh : s.opa.toNat + 40 ≤ s.cfg.fbSize) (hi : s.opb.toNat + s.oplen.toNat ≤ s.cfg.fbSize)
include hh hi

/-- Inside FB the length decides. -/
theorem exec_csumIcmp6_within : exec (.csumIcmp6 wb) s =
    if s.oplen.toNat < 4 then raiseErr .short s
    else orUninit s (icmp6Sum s.fb s.opa.toNat s.opb.toNat s.oplen.toNat) fun sum => finishOk (icmp6Done wb sum s) :=
  (if_neg (ne_true_of_eq_false (pastFb_of_le hh))).trans (if_neg (ne_true_of_eq_false (pastFb_of_le hi)))

theorem exec_csumIcmp6_short (hn : s.oplen.toNat < 4) : exec (.csumIcmp6 wb) s = raiseErr .short s :=
  (exec_csumIcmp6_within hh hi).trans (if_pos hn)

theorem exec_csumIcmp6_long (hn : 4 ≤ s.oplen.toNat) : exec (.csumIcmp6 wb) s =
    orUninit s (icmp6Sum s.fb s.opa.toNat s.opb.toNat s.oplen.toNat) fun sum => finishOk (icmp6Done wb sum s) :=
  (exec_csumIcmp6_within hh hi).trans (if_neg (Nat.not_lt.2 hn))

/-- Where FB holds the addresses and the message, their sum is stored. -/
theorem exec_csumIcmp6_holds {addrs m : List Byte} (hn : 4 ≤ s.oplen.toNat) (hl : addrs.length = 32)
    (hm : m.length = s.oplen.toNat) (haddrs : Holds s.fb (s.opa.toNat + 8) addrs) (hmsg : Holds s.fb s.opb.toNat m) :
    exec (.csumIcmp6 wb) s = .next (complete .ok (icmp6Done wb (messageSum addrs m) s)) := by
  have hread := holds_icmp6Sum hl (hm ▸ hn) (hm ▸ s.oplen.isLt) haddrs hmsg
  rw [exec_csumIcmp6_long hh hi hn, ← hm, hread]
  rfl

end

theorem csumOf_eq (sum : Word) : csumOf sum = ~~~ sum.extractLsb' 0 16 := by
  rw [csumOf, BitVec.setWidth_eq_extractLsb' (by decide)]

/-- Settles O19: the three checks in turn, then what the reads of the addresses and the message find. -/
theorem csumIcmp6Behaviour : Obligations.CsumIcmp6Behaviour := by
  rintro s wb h i n rfl rfl rfl
  refine ⟨exec_csumIcmp6_past, exec_csumIcmp6_short, fun hh hi hn src dst m hsrc hdst hm hs hd hb sum c hsum hc => ?_,
    fun hh hi hn j hj => ?_⟩
  · have haddrs : Holds s.fb (s.opa.toNat + 8) (src ++ dst) := hs.append (by rwa [hsrc, Nat.add_assoc])
    have hstored := exec_csumIcmp6_holds (wb := wb) hh hi hn (by simp [hsrc, hdst]) hm haddrs hb
    rw [messageSum, hm, ← hsum] at hstored
    rw [hstored, hc, ← csumOf_eq]
    rfl
  · rw [exec_csumIcmp6_long hh hi hn, icmp6Sum_stops hj]; rfl

/-! ## The sum R150 leaves -/

/-- The last word of the pseudo-header is 58, so S is not 0. -/
theorem messageSum_bounds {addrs : List Byte} (ha : addrs.length = 32) (m : List Byte) :
    1 ≤ (messageSum addrs m).toNat ∧ (messageSum addrs m).toNat ≤ 0xFFFF := by
  rw [messageSum, toNat_checksum_zero]
  refine ⟨foldedSum_pos ?_, foldedSum_le _⟩
  rw [wordSum_append (by simp [ha]), wordSum_append (by simp [ha])]
  simp [wordSum]; omega

/-- A sum that was computed is that of the bytes FB holds. -/
theorem icmp6Sum_eq_ok (h4 : 4 ≤ n) (h16 : n < 0x10000) (hs : icmp6Sum fb hdr i n = .ok sum) :
    ∃ addrs m, addrs.length = 32 ∧ m.length = n ∧ Holds fb (hdr + 8) addrs ∧ Holds fb i m ∧ sum = messageSum addrs m := by
  obtain ⟨src, hsrc, hrest⟩ := except_bind_eq_ok hs
  obtain ⟨dst, hdst, hrest⟩ := except_bind_eq_ok hrest
  obtain ⟨m, hm, -⟩ := except_bind_eq_ok hrest
  obtain ⟨hls, hsrc⟩ := fbSpan_holds hsrc
  obtain ⟨hld, hdst⟩ := fbSpan_holds hdst
  obtain ⟨rfl, hmsg⟩ := fbSpan_holds hm
  have hl : (src ++ dst).length = 32 := by rw [List.length_append, hls, hld]
  have haddrs : Holds fb (hdr + 8) (src ++ dst) := hsrc.append (by rwa [hls, Nat.add_assoc])
  have hread := holds_icmp6Sum hl h4 h16 haddrs hmsg
  exact ⟨src ++ dst, m, hl, rfl, haddrs, hmsg, Except.ok.inj (hs.symm.trans hread)⟩

/-- A CSUM_ICMP6 without an error: its spans lie in FB and hold the bytes it summed (R150). -/
theorem exec_csumIcmp6_ok (h : exec (.csumIcmp6 wb) s = .next t) (hok : t.errcode = .ok) :
    s.opa.toNat + 40 ≤ s.cfg.fbSize ∧ s.opb.toNat + s.oplen.toNat ≤ s.cfg.fbSize ∧ 4 ≤ s.oplen.toNat ∧
      ∃ addrs m, addrs.length = 32 ∧ m.length = s.oplen.toNat ∧ Holds s.fb (s.opa.toNat + 8) addrs ∧
        Holds s.fb s.opb.toNat m ∧ t = complete .ok (icmp6Done wb (messageSum addrs m) s) := by
  rcases execCsumIcmp6_cases (wb := wb) h with rfl | rfl | ⟨hh, hi, hn, sum, hs, ht⟩
  · cases hok
  · cases hok
  · obtain ⟨addrs, m, hl, hm, haddrs, hmsg, rfl⟩ := icmp6Sum_eq_ok hn s.oplen.isLt hs
    exact ⟨hh, hi, hn, addrs, m, hl, hm, haddrs, hmsg, ht⟩

/-- Settles O20: ACC is a sum over a pseudo-header, and CSUM_RESULT its complement. -/
theorem icmp6SumIsNeverZero : Obligations.Icmp6SumIsNeverZero := by
  intro s t wb h hok
  obtain ⟨-, -, -, addrs, m, hl, -, -, -, rfl⟩ := exec_csumIcmp6_ok h hok
  obtain ⟨hpos, hle⟩ := messageSum_bounds hl m
  exact ⟨hpos, hle, (congrArg _ (csumOf_eq _)).trans (toNat_complement16 hle)⟩

/-! ## The round trip -/

/-- Writeback leaves the field holding C, high byte first. -/
theorem holds_icmp6Done_field (sum : Word) (s : State) :
    Holds (icmp6Done true sum s).fb (s.opb.toNat + 2) [(csumOf sum).extractLsb' 8 8, (csumOf sum).extractLsb' 0 8] :=
  fun _ hj => memRead_memWriteList_inside _ _ hj

/-- No byte becomes unwritten. -/
theorem icmp6Done_written (wb : Bool) (sum : Word) (hw : Written s.fb a n) : Written (icmp6Done wb sum s).fb a n := by
  intro j hj
  by_cases hfield : a + j = s.opb.toNat + 2 ∨ a + j = s.opb.toNat + 3
  · cases wb with
    | false => exact hw j hj
    | true =>
      have hf := (holds_icmp6Done_field sum s).written
      rcases hfield with h | h
      · rw [h]; exact hf 0 (by simp)
      · rw [h]; exact hf 1 (by simp)
  · rw [memRead_icmp6Done_fb wb sum (by omega) (by omega)]; exact hw j hj

/-- Bytes outside the field stay held. -/
theorem icmp6Done_holds (wb : Bool) (sum : Word) {bs : List Byte} (hb : Holds s.fb a bs)
    (hout : a + bs.length ≤ s.opb.toNat + 2 ∨ s.opb.toNat + 3 < a) : Holds (icmp6Done wb sum s).fb a bs := by
  intro j hj
  rw [memRead_icmp6Done_fb wb sum (by omega) (by omega)]
  exact hb j hj

/-- Bytes held at one place are the only ones. -/
theorem Holds.unique {bs cs : List Byte} (hb : Holds fb a bs) (hc : Holds fb a cs) (hl : bs.length = cs.length) : bs = cs :=
  Except.ok.inj ((holds_fbSpan hb).symm.trans (hl ▸ holds_fbSpan hc))

/-- The message after writeback differs from the one before in its field only, which the sum takes as zero. -/
theorem messageSum_icmp6Done {m m' : List Byte} (hm : Holds s.fb s.opb.toNat m)
    (hm' : Holds (icmp6Done wb sum s).fb s.opb.toNat m') (hl : m'.length = m.length) (h4 : 4 ≤ m.length) (addrs : List Byte) :
    messageSum addrs m' = messageSum addrs m := by
  have hout (j : Nat) (h2 : j ≠ 2) (h3 : j ≠ 3) : m'[j]? = m[j]? := by
    rcases Nat.lt_or_ge j m.length with hj | hj
    · rw [← hm' j (hl ▸ hj), ← hm j hj]
      exact memRead_icmp6Done_fb wb sum (by omega) (by omega)
    · rw [List.getElem?_eq_none hj, List.getElem?_eq_none (hl ▸ hj)]
  have hzero : zeroField m' = zeroField m := List.ext_getElem? fun j => by
    by_cases hj : j = 2 ∨ j = 3
    · rcases hj with rfl | rfl <;> simp [zeroField, List.getElem?_set, hl]
    · simp [zeroField, Ne.symm (mt Or.inl hj), Ne.symm (mt Or.inr hj), hout j (mt Or.inl hj) (mt Or.inr hj)]
  rw [messageSum, messageSum, ← zeroField_eq h4, ← zeroField_eq (hl ▸ h4), hzero, hl]

/-- Settles O21: the second command reads written bytes, and outside the addresses the first has changed the field alone. -/
theorem csumIcmp6RoundTrip : Obligations.CsumIcmp6RoundTrip := by
  intro s t wb h hok
  obtain ⟨hh, hi, hn, addrs, m, hl, hm, haddrs, hmsg, rfl⟩ := exec_csumIcmp6_ok h hok
  obtain ⟨addrs', hl', haddrs'⟩ := (icmp6Done_written true (messageSum addrs m) haddrs.written).holds
  obtain ⟨m', hm', hmsg'⟩ := (icmp6Done_written true (messageSum addrs m) hmsg.written).holds
  have hagain := exec_csumIcmp6_holds (wb := wb) (s := complete .ok (icmp6Done true (messageSum addrs m) s)) hh hi hn
    (hl'.trans hl) (hm'.trans hm) haddrs' hmsg'
  refine ⟨holds_icmp6Done_field _ s, _, hagain, rfl, fun hout => ?_⟩
  have hsame : addrs' = addrs := haddrs'.unique (icmp6Done_holds true _ haddrs (by omega)) hl'
  have hsum : messageSum addrs' m' = messageSum addrs m := hsame ▸ messageSum_icmp6Done hmsg hmsg' hm' (hm ▸ hn) addrs'
  exact ⟨congrArg csumOf hsum, hsum⟩

end Sys2Proof.Machine
end

section
/-!
Step 4 of PARSE: what the walk over the Hop-by-Hop headers answers at each header, and past a chain of any length (R186).
-/
namespace Sys2Proof.Machine

variable {fb : List Host.Cell} {len fuel off ext : Nat} {nh e nnh : Byte} {es : List Byte}

/-! ## The top-level next header -/

theorem nextHeaderWalk_icmp6 (h20 : memRead fb 20 = some 0x3A#8) : nextHeaderWalk fb len = .ok (.arrived 54 0) := by
  simp [nextHeaderWalk, fbByte_eq_ok.2 h20, Config.nhIcmp6, show Config.hdrLen = 54 from rfl]

/-- The chain loop, with any fuel that covers the payload. -/
theorem nextHeaderWalk_hopByHop (h20 : memRead fb 20 = some 0x00#8) (hfuel : (len - 54) / 8 < fuel) :
    nextHeaderWalk fb len = hbhWalk fb len fuel 54 0 := by
  rw [hbhWalk_fuel hfuel (Nat.lt_succ_self _)]
  simp [nextHeaderWalk, fbByte_eq_ok.2 h20, Config.nhIcmp6, Config.nhHopByHop, show Config.hdrLen = 54 from rfl]

theorem nextHeaderWalk_unsupported (h20 : memRead fb 20 = some nh) (hicmp : nh ≠ 0x3A#8) (hhbh : nh ≠ 0x00#8) :
    nextHeaderWalk fb len = .ok (.dropped .nhUnsupported) := by
  simp [nextHeaderWalk, fbByte_eq_ok.2 h20, Config.nhIcmp6, Config.nhHopByHop, hicmp, hhbh]

theorem nextHeaderWalk_unwritten (h20 : memRead fb 20 = none) : nextHeaderWalk fb len = .error (.fb 20) := by
  simp [nextHeaderWalk, fbByte_unwritten h20]

/-! ## One header of the chain -/

theorem hbhWalk_few_left (hlen : len < off + 8) : hbhWalk fb len fuel off ext = .ok (.dropped .extTrunc) := by
  cases fuel with
  | zero => rfl
  | succ fuel => exact if_pos (by omega)

section
variable (h8 : off + 8 ≤ len)
include h8

theorem hbhWalk_length_unwritten (hlen : memRead fb (off + 1) = none) :
    hbhWalk fb len (fuel + 1) off ext = .error (.fb (off + 1)) := by
  simp [hbhWalk, show ¬ len - off < 8 by omega, fbByte_unwritten hlen]

/-- A length field that was read: too long for the frame, or the next header decides. -/
theorem hbhWalk_length (he : memRead fb (off + 1) = some e) :
    hbhWalk fb len (fuel + 1) off ext =
      if len < off + (8 + 8 * e.toNat) then .ok (.dropped .extTrunc)
      else fbByte fb off >>= fun nnh =>
        if nnh = 0x3A#8 then .ok (.arrived (off + (8 + 8 * e.toNat)) (ext + 1))
        else if nnh = 0x00#8 then hbhWalk fb len fuel (off + (8 + 8 * e.toNat)) (ext + 1)
        else .ok (.dropped .extNh) := by
  simp only [hbhWalk, show ¬ len - off < 8 by omega, if_false, fbByte_eq_ok.2 he, except_ok_bind,
    show len - off < 8 + 8 * e.toNat ↔ len < off + (8 + 8 * e.toNat) by omega]
  rfl

end

theorem hbhWalk_too_long (h8 : off + 8 ≤ len) (he : memRead fb (off + 1) = some e) (hlong : len < off + (8 + 8 * e.toNat)) :
    hbhWalk fb len (fuel + 1) off ext = .ok (.dropped .extTrunc) := by
  rw [hbhWalk_length h8 he, if_pos hlong]

section
variable (he : memRead fb (off + 1) = some e) (hfits : off + (8 + 8 * e.toNat) ≤ len)
include he hfits

theorem hbhWalk_other_header (hn : memRead fb off = some nnh) (hicmp : nnh ≠ 0x3A#8) (hhbh : nnh ≠ 0x00#8) :
    hbhWalk fb len (fuel + 1) off ext = .ok (.dropped .extNh) := by
  rw [hbhWalk_length (by omega) he, if_neg (by omega), fbByte_eq_ok.2 hn, except_ok_bind, if_neg hicmp, if_neg hhbh]

theorem hbhWalk_header_unwritten (hn : memRead fb off = none) : hbhWalk fb len (fuel + 1) off ext = .error (.fb off) := by
  rw [hbhWalk_length (by omega) he, if_neg (by omega), fbByte_unwritten hn, except_error_bind]

end

/-! ## The chain -/

theorem chainBytes_cons (e : Byte) (es : List Byte) : chainBytes (e :: es) = 8 + 8 * e.toNat + chainBytes es := rfl

/-- The walk passes headers that announce Hop-by-Hop, and counts each. -/
theorem hbhWalk_links (hl : Links fb len off es) :
    hbhWalk fb len (fuel + es.length) off ext = hbhWalk fb len fuel (off + chainBytes es) (ext + es.length) := by
  induction es generalizing off ext with
  | nil => rfl
  | cons e es ih =>
    obtain ⟨hfits, he, hn, hrest⟩ := hl
    rw [List.length_cons, ← Nat.add_assoc, hbhWalk_next hfits he hn, ih hrest, chainBytes_cons e]
    congr 1 <;> omega

/-- Behind the first headers the walk stands at the next one. -/
theorem nextHeaderWalk_links (h20 : memRead fb 20 = some 0x00#8) (hl : Links fb len 54 es) :
    nextHeaderWalk fb len = hbhWalk fb len ((len - 54) / 8 + 1) (54 + chainBytes es) es.length := by
  rw [nextHeaderWalk_hopByHop h20 (fuel := (len - 54) / 8 + 1 + es.length) (by omega), hbhWalk_links hl, Nat.zero_add]

theorem hbhWalk_chain (hc : Chain fb len off es) :
    hbhWalk fb len (fuel + es.length) off ext = .ok (.arrived (off + chainBytes es) (ext + es.length)) := by
  induction es generalizing off ext with
  | nil => exact hc.elim
  | cons e es ih =>
    cases es with
    | nil =>
      obtain ⟨hfits, he, hn⟩ := hc
      exact hbhWalk_last hfits he hn
    | cons e' es =>
      obtain ⟨hfits, he, hn, hrest⟩ := hc
      rw [List.length_cons, ← Nat.add_assoc, hbhWalk_next hfits he hn, ih hrest, chainBytes_cons e]
      congr 2 <;> omega

/-- Settles O27: the walk's fuel covers a chain of any length. -/
theorem hopByHopChainIsWalked : Obligations.HopByHopChainIsWalked := by
  intro fb len
  refine ⟨nextHeaderWalk_icmp6, fun es h20 hc => ?_⟩
  rw [nextHeaderWalk_hopByHop h20 (fuel := (len - 54) / 8 + 1 + es.length) (by omega), hbhWalk_chain hc, Nat.zero_add]

/-- Settles O28: the chain loop passes whole headers that fit the frame. -/
theorem walkArrivesAligned : Obligations.WalkArrivesAligned := by
  intro fb len off ext h54 hw
  obtain ⟨nh, hnh, -⟩ := except_bind_eq_ok hw
  have h20 := fbByte_eq_ok.1 hnh
  by_cases hicmp : nh = 0x3A#8
  · subst hicmp
    rw [nextHeaderWalk_icmp6 h20] at hw
    cases hw
    exact ⟨h54, by simp⟩
  · by_cases hhbh : nh = 0x00#8
    · subst hhbh
      rw [nextHeaderWalk_hopByHop h20 (Nat.lt_succ_self _)] at hw
      obtain ⟨hle, -, hge, hmod⟩ := hbhWalk_arrived h54 hw
      exact ⟨hle, by simpa using hge, hmod⟩
    · rw [nextHeaderWalk_unsupported h20 hicmp hhbh] at hw
      cases hw

end Sys2Proof.Machine
end

section
/-!
PARSE up to the message: what it answers by the parse of its frame (R180), the discards of steps 1 to 4 (R183 to R186), and the
class of what it leaves (R192).
-/
namespace Sys2Proof.Machine

variable {s : State} {wb : Bool} {fb : List Host.Cell} {len off ilen : Nat} {r : ParseResult} {e : Half} {q : Place}

/-! ## The command -/

theorem exec_parse_past (hr : s.cfg.fbSize < s.frameLen.toNat) : exec (.parse wb) s = raiseErr .range s :=
  if_pos (pastFb_of_lt (by rwa [Nat.zero_add]))

theorem exec_parse_within (hr : s.frameLen.toNat ≤ s.cfg.fbSize) : exec (.parse wb) s =
    orUninit s (parseFrame s.fb s.frameLen.toNat) fun r => finishOk { s with parse := r } :=
  if_neg (ne_true_of_eq_false (pastFb_of_le (by rwa [Nat.zero_add])))

/-- A frame that is parsed: its results are written and the command completes. -/
theorem exec_parse_ok (hr : s.frameLen.toNat ≤ s.cfg.fbSize) (hp : parseFrame s.fb s.frameLen.toNat = .ok r) :
    exec (.parse wb) s = .next { s with parse := r, pending := none, done := true, errcode := .ok, err := false } := by
  rw [exec_parse_within hr, hp]; rfl

theorem exec_parse_error (hr : s.frameLen.toNat ≤ s.cfg.fbSize) (hp : parseFrame s.fb s.frameLen.toNat = .error q) :
    exec (.parse wb) s = .fault (.uninitRead s.lastop q) := by
  rw [exec_parse_within hr, hp]; rfl

/-! ## The class -/

theorem parseType_verdict {ty : Byte} (h : parseType fb off ilen ty p = .ok r) : r.verdict ≠ .none := by
  unfold parseType at h
  split at h
  · rcases parseNs_cases h with ⟨d, rfl⟩ | ⟨-, src, dst, tgt, rfl⟩ | ⟨-, src, dst, tgt, hi, lo, rfl⟩ <;> nofun
  · split at h
    · rcases parseNa_cases h with ⟨d, rfl⟩ | ⟨-, src, dst, tgt, rfl⟩ <;> nofun
    · cases h; nofun

/-- Every parse ends in a class (R192). -/
theorem parseFrame_verdict (h : parseFrame fb len = .ok r) : r.verdict ≠ .none := by
  rcases parseFrame_cases h with ⟨d, rfl⟩ | ⟨off, ext, -, -, -, h⟩
  · nofun
  · rcases parseIcmp_cases h with ⟨-, rfl⟩ | ⟨rx, sum, ty, -, -, -, -, ⟨-, rfl⟩ | ⟨-, h⟩⟩
    · nofun
    · nofun
    · exact parseType_verdict h

/-- Settles O23: past the end of FB it stops at the check; inside, it writes the results of its parse. -/
theorem parseWritesResultsOnly : Obligations.ParseWritesResultsOnly := by
  intro s wb
  refine ⟨exec_parse_past, fun hr t h => ?_⟩
  rw [exec_parse_within hr] at h
  obtain ⟨r, hp, h⟩ := orUninit_eq_next h
  obtain rfl := finishOk_eq_next h
  exact ⟨rfl, parseFrame_verdict hp⟩

/-! ## Steps 1 to 3 -/

theorem parseFrame_short (hlen : len < 54) : parseFrame fb len = .ok (discardWith .shortHdr .cleared) := if_pos hlen

/-- Past step 1, the ether_type and then the payload length decide whether the walk is taken. -/
theorem parseFrame_long (hlen : 54 ≤ len) : parseFrame fb len = fbBe16 fb 12 >>= fun ety =>
    if ety ≠ 0x86DD#16 then .ok (discardWith .notIpv6 .cleared)
    else fbBe16 fb 18 >>= fun plen =>
      if plen.toNat ≠ len - 54 then .ok (discardWith .plenMismatch .cleared)
      else nextHeaderWalk fb len >>= parseAfterWalk fb len := if_neg (Nat.not_lt.2 hlen)

theorem parseFrame_notIpv6 (hlen : 54 ≤ len) (he : fbBe16 fb 12 = .ok e) (hne : e ≠ 0x86DD#16) :
    parseFrame fb len = .ok (discardWith .notIpv6 .cleared) := by
  rw [parseFrame_long hlen, he, except_ok_bind, if_pos hne]

theorem parseFrame_ipv6 (hlen : 54 ≤ len) (he : Holds fb 12 [0x86, 0xDD]) : parseFrame fb len =
    fbBe16 fb 18 >>= fun plen =>
      if plen.toNat ≠ len - 54 then .ok (discardWith .plenMismatch .cleared)
      else nextHeaderWalk fb len >>= parseAfterWalk fb len := by
  have hety : fbBe16 fb 12 = .ok 0x86DD#16 := holds_be16 he (j := 0) (by simp)
  rw [parseFrame_long hlen, hety, except_ok_bind, if_neg (not_not.2 rfl)]

/-- Settles O25: each step's discard, in the order of the steps. -/
theorem headerStepsDiscard : Obligations.HeaderStepsDiscard := by
  intro s wb a b hr
  have hword {i : Nat} (h : Holds s.fb i [a, b]) : fbBe16 s.fb i = .ok (a ++ b) := holds_be16 h (j := 0) (by simp)
  refine ⟨fun hlen => exec_parse_ok hr (parseFrame_short hlen),
    fun hlen hab hne => exec_parse_ok hr (parseFrame_notIpv6 hlen (hword hab) hne),
    fun hlen he hab hne => exec_parse_ok hr ?_⟩
  rw [parseFrame_ipv6 hlen he, hword hab, except_ok_bind, if_pos hne]
  rfl

/-! ## Step 4 -/

section
variable (hok : HeaderOk s)
include hok

theorem exec_parse_dropped {d : DiscardReason} (hw : nextHeaderWalk s.fb s.frameLen.toNat = .ok (.dropped d)) :
    exec (.parse wb) s = .next { s with
      parse := { ParseResult.cleared with verdict := .discard d }
      pending := none, done := true, errcode := .ok, err := false } :=
  exec_parse_ok hok.1 (by rw [headerOk_parseFrame hok, hw]; rfl)

theorem exec_parse_walk_error (hw : nextHeaderWalk s.fb s.frameLen.toNat = .error q) :
    exec (.parse wb) s = .fault (.uninitRead s.lastop q) :=
  exec_parse_error hok.1 (by rw [headerOk_parseFrame hok, hw]; rfl)

end

/-- Settles O26: the walk drops the frame at the header that is wrong. -/
theorem nextHeaderStepDiscards : Obligations.NextHeaderStepDiscards := by
  intro s wb nh e nnh es off hok h20
  refine ⟨fun hicmp hhbh => exec_parse_dropped hok (nextHeaderWalk_unsupported h20 hicmp hhbh), ?_⟩
  rintro rfl hl rfl
  have hwalk := nextHeaderWalk_links h20 hl
  exact ⟨fun hfew => exec_parse_dropped hok (hwalk.trans (hbhWalk_few_left hfew)),
    fun h8 he hlong => exec_parse_dropped hok (hwalk.trans (hbhWalk_too_long h8 he hlong)),
    fun he hfits hn hicmp hhbh => exec_parse_dropped hok (hwalk.trans (hbhWalk_other_header he hfits hn hicmp hhbh))⟩

end Sys2Proof.Machine
end

section
/-!
PARSE from the message on: steps 5 to 7 as a function of the bytes FB holds (R187 to R191), with the
registers each step writes (R50, R53, R192).
-/
namespace Sys2Proof.Machine

variable {s : State} {wb : Bool} {fb : List Host.Cell} {len off ext : Nat} {p : ParseResult} {addrs m : List Byte}

/-! ## Words that are 0 -/

theorem append_eq_zero_iff {k n : Nat} {x : BitVec k} {y : BitVec n} : x ++ y = 0#(k + n) ↔ x = 0#k ∧ y = 0#n := by
  simp [← BitVec.toNat_inj, BitVec.toNat_append, Nat.shiftLeft_eq]

theorem forall_lt_four_iff {P : Nat → Prop} : (∀ j < 4, P j) ↔ P 0 ∧ P 1 ∧ P 2 ∧ P 3 := by
  refine ⟨fun h => ⟨h 0 (by decide), h 1 (by decide), h 2 (by decide), h 3 (by decide)⟩, fun ⟨h0, h1, h2, h3⟩ j hj => ?_⟩
  interval_cases j <;> assumption

theorem be32Of_eq_zero_iff {b : List Byte} {i : Nat} : be32Of b i = 0#32 ↔ ∀ j < 4, b.getD (i + j) 0 = 0#8 := by
  rw [be32Of, show 0#32 = 0#(8 + 8 + 8 + 8) from rfl, append_eq_zero_iff, append_eq_zero_iff, append_eq_zero_iff,
    forall_lt_four_iff, and_assoc, and_assoc]
  rfl

theorem ip6Of_eq_unspecified_iff {b : List Byte} : ip6Of b 0 = .unspecified ↔ ∀ j < 16, b.getD j 0 = 0#8 := by
  have hwords : ip6Of b 0 = .unspecified ↔ ∀ k < 4, be32Of b (4 * k) = 0#32 := by
    rw [ip6Of, Ip6.unspecified, Ip6.mk.injEq, forall_lt_four_iff]
    rfl
  simp only [hwords, be32Of_eq_zero_iff]
  refine ⟨fun h j hj => ?_, fun h k hk j hj => h _ (by omega)⟩
  rw [← Nat.div_add_mod j 4]
  exact h _ (by omega) _ (by omega)

/-! ## The message by its bytes -/

/-- The results with a class and the three addresses, from the 32 address bytes and the message (R190, R191). -/
def withAddrs (v : Verdict) (addrs m : List Byte) (p : ParseResult) : ParseResult :=
  { p with verdict := v, src := ip6Of addrs 0, dst := ip6Of addrs 16, tgt := ip6Of m 8 }

/-- What the validation of an NS leaves (R190). -/
def nsResult (addrs m : List Byte) (p : ParseResult) : ParseResult :=
  if m.length < 24 then discardWith .nsShort p
  else if ip6Of addrs 0 = .unspecified then withAddrs .ns addrs m p
  else if m.length < 32 then discardWith .nsNoSlla p
  else if m.getD 24 0 ≠ 1#8 ∨ m.getD 25 0 ≠ 1#8 then discardWith .nsBadSlla p
  else withAddrs .ns addrs m { p with sllaValid := true, sllaHi := be16Of m 26, sllaLo := be32Of m 28 }

/-- What the validation of an NA leaves (R191). -/
def naResult (addrs m : List Byte) (p : ParseResult) : ParseResult :=
  if m.length < 24 then discardWith .naShort p else withAddrs .na addrs m p

/-- What step 7 leaves (R189). -/
def typeResult (addrs m : List Byte) (p : ParseResult) : ParseResult :=
  if m.getD 0 0 = 135#8 then nsResult addrs m p
  else if m.getD 0 0 = 136#8 then naResult addrs m p
  else { p with verdict := .other }

/-- The results once the checksum has been computed (R188). -/
def summed (addrs m : List Byte) (p : ParseResult) : ParseResult :=
  { p with csumRx := be16Of m 2, csumCalc := csumOf (messageSum addrs m), icmpType := m.getD 0 0 }

section
variable (hl : addrs.length = 32) (ha : Holds fb 22 addrs) (hm : Holds fb off m)
include hl ha hm

theorem parseAddrs_holds (h24 : 24 ≤ m.length) : parseAddrs fb off p =
    .ok { p with src := ip6Of addrs 0, dst := ip6Of addrs 16, tgt := ip6Of m 8 } := by
  have hsrc : fbIp6 fb 22 = .ok (ip6Of addrs 0) := holds_ip6 ha (j := 0) (by omega)
  have hdst : fbIp6 fb 38 = .ok (ip6Of addrs 16) := holds_ip6 ha (j := 16) (by omega)
  simp [parseAddrs, hsrc, hdst, holds_ip6 hm (j := 8) (by omega)]

theorem parseNs_holds : parseNs fb off m.length p = .ok (nsResult addrs m p) := by
  have hsrc : fbIp6 fb 22 = .ok (ip6Of addrs 0) := holds_ip6 ha (j := 0) (by omega)
  have hfinish (h24 : 24 ≤ m.length) (q : ParseResult) : finishNs fb off q = .ok (withAddrs .ns addrs m q) := by
    simp [finishNs, parseAddrs_holds hl ha hm h24, withAddrs]
  by_cases h24 : m.length < 24
  · simp [parseNs, nsResult, Config.nsLen, h24]
  by_cases hz : ip6Of addrs 0 = .unspecified
  · simp [parseNs, nsResult, Config.nsLen, h24, hsrc, hz, hfinish (Nat.not_lt.1 h24)]
  by_cases h32 : m.length < 32
  · simp [parseNs, nsResult, Config.nsLen, Config.optLlaLen, h24, hsrc, hz, h32]
  have hslla : parseSlla fb off p = .ok { p with sllaValid := true, sllaHi := be16Of m 26, sllaLo := be32Of m 28 } := by
    simp [parseSlla, holds_be16 hm (j := 26) (by omega), holds_be32 hm (j := 28) (by omega)]
  by_cases hopt : m.getD 24 0 ≠ 1#8 ∨ m.getD 25 0 ≠ 1#8 <;>
    simp only [parseNs, nsResult, Config.nsLen, Config.optLlaLen, Config.optSlla, h24, hsrc, hz, h32, hopt, if_false, if_true,
      holds_byte hm (j := 24) (by omega), holds_byte hm (j := 25) (by omega), hslla, hfinish (Nat.not_lt.1 h24), except_ok_bind]

theorem parseNa_holds : parseNa fb off m.length p = .ok (naResult addrs m p) := by
  by_cases h24 : m.length < 24
  · simp [parseNa, naResult, Config.naLen, h24]
  · simp [parseNa, naResult, Config.naLen, h24, parseAddrs_holds hl ha hm (Nat.not_lt.1 h24), withAddrs]

theorem parseType_holds : parseType fb off m.length (m.getD 0 0) p = .ok (typeResult addrs m p) := by
  simp only [parseType, typeResult, Config.typeNs, Config.typeNa, parseNs_holds hl ha hm, parseNa_holds hl ha hm]
  split
  · rfl
  · split <;> rfl

/-- Steps 6 and 7 read nothing but the 32 address bytes and the message. -/
theorem parseIcmp_holds (h8 : 8 ≤ m.length) (h16 : m.length < 0x10000) : parseIcmp fb off m.length p =
    .ok (if csumOf (messageSum addrs m) ≠ be16Of m 2 then discardWith .csumBad (summed addrs m p)
      else typeResult addrs m (summed addrs m p)) := by
  have hty : fbByte fb off = .ok (m.getD 0 0) := holds_byte hm (j := 0) (by omega)
  have hsum : icmp6Sum fb Config.ethLen off m.length = .ok (messageSum addrs m) := holds_icmp6Sum hl (by omega) h16 ha hm
  simp only [parseIcmp, Config.icmp6Len, Nat.not_lt.2 h8, if_false, holds_be16 hm (j := 2) (by omega), hsum, hty, except_ok_bind,
    parseType_holds hl ha hm]
  split <;> rfl

end

/-! ## Steps 5 to 7 of a frame whose walk arrives -/

/-- The results once the walk has arrived (R192). -/
def walked (len off ext : Nat) : ParseResult :=
  { ParseResult.cleared with
    icmpOff := BitVec.ofNat 16 off, icmpLen := BitVec.ofNat 16 (len - off), extCount := BitVec.ofNat 16 ext }

section
variable (hok : HeaderOk s) (hw : nextHeaderWalk s.fb s.frameLen.toNat = .ok (.arrived off ext))
include hok hw

/-- The parse is that of the message. -/
theorem parseFrame_arrived : parseFrame s.fb s.frameLen.toNat =
    parseIcmp s.fb off (s.frameLen.toNat - off) (walked s.frameLen.toNat off ext) := by
  rw [headerOk_parseFrame hok, hw]; rfl

theorem exec_parse_icmpShort (hshort : s.frameLen.toNat - off < 8) : exec (.parse wb) s = .next { s with
    parse := { walked s.frameLen.toNat off ext with verdict := .discard .icmpShort }
    pending := none, done := true, errcode := .ok, err := false } :=
  exec_parse_ok hok.1 ((parseFrame_arrived hok hw).trans (if_pos hshort))

variable (hl : addrs.length = 32) (hlen : m.length = s.frameLen.toNat - off) (h8 : 8 ≤ m.length)
  (ha : Holds s.fb 22 addrs) (hm : Holds s.fb off m)
include hl hlen h8 ha hm

theorem parseFrame_holds : parseFrame s.fb s.frameLen.toNat =
    .ok (if csumOf (messageSum addrs m) ≠ be16Of m 2 then
        discardWith .csumBad (summed addrs m (walked s.frameLen.toNat off ext))
      else typeResult addrs m (summed addrs m (walked s.frameLen.toNat off ext))) := by
  have := s.frameLen.isLt
  rw [parseFrame_arrived hok hw, ← hlen, parseIcmp_holds hl ha hm h8 (by omega)]

theorem exec_parse_csumBad (hc : csumOf (messageSum addrs m) ≠ be16Of m 2) : exec (.parse wb) s = .next { s with
    parse := { summed addrs m (walked s.frameLen.toNat off ext) with verdict := .discard .csumBad }
    pending := none, done := true, errcode := .ok, err := false } :=
  exec_parse_ok hok.1 ((parseFrame_holds hok hw hl hlen h8 ha hm).trans (congrArg _ (if_pos hc)))

/-- A message whose checksum matched. -/
theorem exec_parse_checked (hc : csumOf (messageSum addrs m) = be16Of m 2) : exec (.parse wb) s = .next { s with
    parse := typeResult addrs m (summed addrs m (walked s.frameLen.toNat off ext))
    pending := none, done := true, errcode := .ok, err := false } :=
  exec_parse_ok hok.1 ((parseFrame_holds hok hw hl hlen h8 ha hm).trans (congrArg _ (if_neg (not_not.2 hc))))

end

/-- Where the checksum matched, the message by its own length and type. -/
theorem summed_walked (hlen : m.length = len - off) (hc : csumOf (messageSum addrs m) = be16Of m 2) :
    summed addrs m (walked len off ext) = { ParseResult.cleared with
      icmpOff := BitVec.ofNat 16 off, icmpLen := BitVec.ofNat 16 m.length, extCount := BitVec.ofNat 16 ext
      csumRx := be16Of m 2, csumCalc := be16Of m 2, icmpType := m.getD 0 0 } := by
  simp only [summed, walked, hc, hlen]

/-- Settles O29: by the length of the message, its checksum and its type. -/
theorem icmpStepsOutcomes : Obligations.IcmpStepsOutcomes := by
  intro s wb off ext hok hw
  refine ⟨exec_parse_icmpShort hok hw, fun addrs m hl hlen h8 ha hm => ?_⟩
  simp only [← csumOf_eq]
  refine ⟨exec_parse_csumBad hok hw hl hlen h8 ha hm, fun hc hns hna => ?_⟩
  rw [exec_parse_checked hok hw hl hlen h8 ha hm hc, typeResult, if_neg hns, if_neg hna]
  rfl

/-- Settles O30: by the length of the message, the source address and the option. -/
theorem nsOutcomes : Obligations.NsOutcomes := by
  intro s wb off ext addrs m hok hw hl hlen h8 ha hm hc hty
  have hexec := exec_parse_checked (wb := wb) hok hw hl hlen h8 ha hm ((csumOf_eq _).trans hc)
  rw [typeResult, if_pos hty, summed_walked hlen ((csumOf_eq _).trans hc), hty] at hexec
  simp only [← ip6Of_eq_unspecified_iff]
  rw [hexec]
  refine ⟨fun h24 => ?_, fun h24 hz => ?_, fun h24 hnz => ⟨fun h32 => ?_, fun h32 hopt => ?_, fun h32 hot hln => ?_⟩⟩
  · rw [nsResult, if_pos h24]; rfl
  · rw [nsResult, if_neg (Nat.not_lt.2 h24), if_pos hz]; rfl
  · rw [nsResult, if_neg (Nat.not_lt.2 h24), if_neg hnz, if_pos h32]; rfl
  · rw [nsResult, if_neg (Nat.not_lt.2 h24), if_neg hnz, if_neg (Nat.not_lt.2 h32), if_pos hopt]; rfl
  · rw [nsResult, if_neg (Nat.not_lt.2 h24), if_neg hnz, if_neg (Nat.not_lt.2 h32),
      if_neg (not_or.2 ⟨not_not.2 hot, not_not.2 hln⟩)]
    rfl

/-- Settles O31: by the length of the message. -/
theorem naOutcomes : Obligations.NaOutcomes := by
  intro s wb off ext addrs m hok hw hl hlen h8 ha hm hc hty
  have hexec := exec_parse_checked (wb := wb) hok hw hl hlen h8 ha hm ((csumOf_eq _).trans hc)
  rw [typeResult, if_neg (by rw [hty]; decide), if_pos hty, summed_walked hlen ((csumOf_eq _).trans hc), hty] at hexec
  rw [hexec]
  refine ⟨fun h24 => ?_, fun h24 => ?_⟩
  · rw [naResult, if_pos h24]; rfl
  · rw [naResult, if_neg (Nat.not_lt.2 h24)]; rfl

end Sys2Proof.Machine
end

section
/-!
Where PARSE completes, and where it stops at an unwritten byte (R180, R287).
-/
namespace Sys2Proof.Machine

variable {fb : List Host.Cell} {a n len off ilen i j : Nat} {p : ParseResult}

/-! ## Written frames -/

theorem Written.mono (hw : Written fb 0 len) (hle : a + n ≤ len) : Written fb a n := fun j hj => by
  simpa using hw (a + j) (by omega)

theorem Written.byte (hw : Written fb 0 len) (hj : j < len) : ∃ b, memRead fb j = some b :=
  Option.isSome_iff_exists.1 (by simpa using hw j hj)

theorem Written.be16 (hw : Written fb i 2) : ∃ v, fbBe16 fb i = .ok v := by
  obtain ⟨bs, hl, hb⟩ := hw.holds
  exact ⟨_, holds_be16 hb (j := 0) (by omega)⟩

/-- The walk reads no byte past the frame. -/
theorem hbhWalk_written (hw : Written fb 0 len) (fuel off ext : Nat) : ∃ w, hbhWalk fb len fuel off ext = .ok w := by
  induction fuel generalizing off ext with
  | zero => exact ⟨_, rfl⟩
  | succ fuel ih =>
    by_cases h8 : off + 8 ≤ len
    · obtain ⟨e, he⟩ := hw.byte (show off + 1 < len by omega)
      by_cases hfits : off + (8 + 8 * e.toNat) ≤ len
      · obtain ⟨nnh, hn⟩ := hw.byte (show off < len by omega)
        by_cases hicmp : nnh = 0x3A#8
        · subst hicmp; exact ⟨_, hbhWalk_last hfits he hn⟩
        by_cases hhbh : nnh = 0x00#8
        · subst hhbh; rw [hbhWalk_next hfits he hn]; exact ih _ _
        · exact ⟨_, hbhWalk_other_header he hfits hn hicmp hhbh⟩
      · exact ⟨_, hbhWalk_too_long h8 he (Nat.not_le.1 hfits)⟩
    · exact ⟨_, hbhWalk_few_left (Nat.not_le.1 h8)⟩

theorem nextHeaderWalk_written (hw : Written fb 0 len) (h54 : 54 ≤ len) : ∃ w, nextHeaderWalk fb len = .ok w := by
  obtain ⟨nh, h20⟩ := hw.byte (show 20 < len by omega)
  by_cases hicmp : nh = 0x3A#8
  · subst hicmp; exact ⟨_, nextHeaderWalk_icmp6 h20⟩
  by_cases hhbh : nh = 0x00#8
  · subst hhbh; rw [nextHeaderWalk_hopByHop h20 (Nat.lt_succ_self _)]; exact hbhWalk_written hw _ _ _
  · exact ⟨_, nextHeaderWalk_unsupported h20 hicmp hhbh⟩

theorem parseIcmp_written (haddrs : Written fb 22 32) (hmsg : Written fb off ilen) (h16 : ilen < 0x10000) :
    ∃ r, parseIcmp fb off ilen p = .ok r := by
  by_cases h8 : 8 ≤ ilen
  · obtain ⟨addrs, hl, ha⟩ := haddrs.holds
    obtain ⟨m, rfl, hm⟩ := hmsg.holds
    exact ⟨_, parseIcmp_holds hl ha hm h8 h16⟩
  · exact ⟨_, if_pos (Nat.not_le.1 h8)⟩

/-- A frame with every byte written is parsed to its end. -/
theorem parseFrame_written (hw : Written fb 0 len) (h16 : len < 0x10000) : ∃ r, parseFrame fb len = .ok r := by
  by_cases h54 : 54 ≤ len
  · obtain ⟨ety, hety⟩ := (hw.mono (show 12 + 2 ≤ len by omega)).be16
    obtain ⟨plen, hplen⟩ := (hw.mono (show 18 + 2 ≤ len by omega)).be16
    obtain ⟨w, hwalk⟩ := nextHeaderWalk_written hw h54
    rw [parseFrame_long h54, hety, except_ok_bind, hplen, except_ok_bind, hwalk, except_ok_bind]
    split
    · exact ⟨_, rfl⟩
    · split
      · exact ⟨_, rfl⟩
      · cases w with
        | dropped d => exact ⟨_, rfl⟩
        | arrived off ext =>
          obtain ⟨-, hle⟩ := nextHeaderWalk_arrived h54 hwalk
          exact parseIcmp_written (hw.mono (by omega)) (hw.mono (by omega)) (by omega)
  · exact ⟨_, parseFrame_short (Nat.not_le.1 h54)⟩

/-! ## Unwritten bytes -/

theorem fbBe16_of_firstUnwritten_none (h : firstUnwritten fb [i, i + 1] = none) : ∃ v, fbBe16 fb i = .ok v := by
  refine Written.be16 fun j hj => ?_
  have := List.find?_eq_none.1 h (i + j) (by simp; omega)
  simpa [← Option.ne_none_iff_isSome] using this

/-- Steps 6 and 7 stop at the first unwritten byte of the received checksum, the addresses and the message. -/
theorem parseIcmp_unwritten (h8 : 8 ≤ ilen)
    (hj : firstUnwritten fb ([off + 2, off + 3] ++ List.range' 22 32 ++ List.range' off ilen) = some j) :
    parseIcmp fb off ilen p = .error (.fb j) := by
  rw [List.append_assoc, firstUnwritten_append] at hj
  refine (if_neg (Nat.not_lt.2 h8)).trans ?_
  cases hrx : firstUnwritten fb [off + 2, off + 3] with
  | some i =>
    obtain rfl : i = j := by simpa [hrx] using hj
    rw [fbBe16_stops hrx, except_error_bind]
  | none =>
    obtain ⟨rx, hok⟩ := fbBe16_of_firstUnwritten_none hrx
    have hrest : firstUnwritten fb (List.range' 22 32 ++ List.range' off ilen) = some j := by simpa [hrx] using hj
    have hsum : icmp6Sum fb Config.ethLen off ilen = .error (.fb j) := icmp6Sum_stops hrest
    rw [hok, except_ok_bind, hsum, except_error_bind]

/-- Settles O24: every stage of a written frame reads what it needs; elsewhere the first stage that finds a byte unwritten stops. -/
theorem parseCompletesOnWrittenFrames : Obligations.ParseCompletesOnWrittenFrames := by
  intro s wb hr
  have h16 := s.frameLen.isLt
  refine ⟨fun hw => ?_, fun h54 j hj => exec_parse_error hr ?_, fun h54 he j hj => exec_parse_error hr ?_,
    fun hok h20 => exec_parse_walk_error hok (nextHeaderWalk_unwritten h20), ?_,
    fun hok off ext hw h8 j hj => exec_parse_error hr ?_⟩
  · obtain ⟨r, hp⟩ := parseFrame_written hw h16
    exact ⟨r, parseFrame_consistent h16 hp, exec_parse_ok hr hp⟩
  · rw [parseFrame_long h54, fbBe16_stops hj, except_error_bind]
  · rw [parseFrame_ipv6 h54 he, fbBe16_stops hj, except_error_bind]
  · rintro hok h20 es _ hl rfl h8
    have hwalk := nextHeaderWalk_links h20 hl
    exact ⟨fun hlen => exec_parse_walk_error hok (hwalk.trans (hbhWalk_length_unwritten h8 hlen)),
      fun e he hfits hn => exec_parse_walk_error hok (hwalk.trans (hbhWalk_header_unwritten he hfits hn))⟩
  · rw [parseFrame_arrived hok hw, parseIcmp_unwritten (by omega) hj]

end Sys2Proof.Machine
end

section
/-!
What PARSE does not examine: two memories that agree on the bytes each stage may read are parsed alike (R193, R194).
-/
namespace Sys2Proof.Machine

variable {fb fc : List Host.Cell} {len fuel off off' ext ext' ilen j : Nat} {e : Byte} {p : ParseResult}

/-! ## Option bytes of the chain -/

/-- Byte `j` is option content of a header of the chain from `off` on: `HopOption` from any header of the walk. -/
def HopContent (fb : List Host.Cell) (len off j : Nat) : Prop :=
  ∃ es e, Links fb len off es ∧ memRead fb (off + chainBytes es + 1) = some e
    ∧ off + chainBytes es + (8 + 8 * e.toNat) ≤ len
    ∧ off + chainBytes es + 2 ≤ j ∧ j < off + chainBytes es + (8 + 8 * e.toNat)

theorem hopOption_iff : HopOption fb len j ↔ memRead fb 20 = some 0x00#8 ∧ HopContent fb len 54 j := Iff.rfl

/-- The first two bytes of a header are no options. -/
theorem HopContent.le (h : HopContent fb len off j) : off + 2 ≤ j := by
  obtain ⟨es, e, -, -, -, hle, -⟩ := h
  omega

/-- It is content of the header at `off`, or that header announces Hop-by-Hop and it is content of a later one. -/
theorem HopContent.cases (h : HopContent fb len off j) (he : memRead fb (off + 1) = some e) :
    j < off + (8 + 8 * e.toNat) ∨ memRead fb off = some 0x00#8 ∧ HopContent fb len (off + (8 + 8 * e.toNat)) j := by
  obtain ⟨es, e', hl, he', hfits, hle, hlt⟩ := h
  cases es with
  | nil =>
    obtain rfl : e = e' := Option.some.inj (he.symm.trans he')
    exact .inl hlt
  | cons e₀ es =>
    obtain ⟨-, he₀, hn, hrest⟩ := hl
    obtain rfl : e = e₀ := Option.some.inj (he.symm.trans he₀)
    have hplace : off + chainBytes (e :: es) = off + (8 + 8 * e.toNat) + chainBytes es := by
      rw [chainBytes_cons, ← Nat.add_assoc]
    rw [hplace] at he' hfits hle hlt
    exact .inr ⟨hn, es, e', hrest, he', hfits, hle, hlt⟩

/-! ## The walk -/

/-- The walk reads of each header its first two bytes only. -/
theorem hbhWalk_congr (h : ∀ j, off ≤ j → j < len → ¬ HopContent fb len off j → memRead fb j = memRead fc j) :
    hbhWalk fb len fuel off ext = hbhWalk fc len fuel off ext := by
  induction fuel generalizing off ext with
  | zero => rfl
  | succ fuel ih =>
    by_cases h8 : off + 8 ≤ len
    · have h0 : memRead fb off = memRead fc off := h off le_rfl (by omega) fun hc => by have := hc.le; omega
      have h1 : memRead fb (off + 1) = memRead fc (off + 1) :=
        h (off + 1) (by omega) (by omega) fun hc => by have := hc.le; omega
      cases he : memRead fb (off + 1) with
      | none => rw [hbhWalk_length_unwritten h8 he, hbhWalk_length_unwritten h8 (h1 ▸ he)]
      | some e =>
        have hrest : hbhWalk fb len fuel (off + (8 + 8 * e.toNat)) (ext + 1) =
            hbhWalk fc len fuel (off + (8 + 8 * e.toNat)) (ext + 1) := by
          refine ih fun j hge hlt hnot => h j (by omega) hlt fun hc => ?_
          rcases hc.cases he with hin | ⟨-, hlater⟩
          · omega
          · exact hnot hlater
        rw [hbhWalk_length h8 he, hbhWalk_length h8 (h1 ▸ he), fbByte_congr h0, hrest]
    · rw [hbhWalk_few_left (Nat.not_le.1 h8), hbhWalk_few_left (Nat.not_le.1 h8)]

/-- Where the walk arrives, it has passed every option byte of the chain. -/
theorem HopContent.lt_arrived (hc : HopContent fb len off j) (hw : hbhWalk fb len fuel off ext = .ok (.arrived off' ext')) :
    j < off' := by
  induction fuel generalizing off ext with
  | zero => cases hw
  | succ fuel ih =>
    by_cases h8 : off + 8 ≤ len
    · cases he : memRead fb (off + 1) with
      | none => rw [hbhWalk_length_unwritten h8 he] at hw; cases hw
      | some e =>
        rw [hbhWalk_length h8 he] at hw
        split at hw
        · cases hw
        · rename_i hfits
          obtain ⟨nnh, hn, hw⟩ := except_bind_eq_ok hw
          rw [fbByte_eq_ok] at hn
          split at hw
          · rename_i hicmp
            cases hw
            refine (hc.cases he).resolve_right fun hlater => ?_
            exact absurd (hicmp.symm.trans (Option.some.inj (hn.symm.trans hlater.1))) (by decide)
          · split at hw
            · rcases hc.cases he with hin | ⟨-, hlater⟩
              · obtain ⟨-, -, hge, -⟩ := hbhWalk_arrived (Nat.not_lt.1 hfits) hw
                omega
              · exact ih hlater hw
            · cases hw
    · rw [hbhWalk_few_left (Nat.not_le.1 h8)] at hw; cases hw

theorem HopOption.lt_arrived (ho : HopOption fb len j) (hw : nextHeaderWalk fb len = .ok (.arrived off ext)) : j < off := by
  obtain ⟨h20, hc⟩ := hopOption_iff.1 ho
  rw [nextHeaderWalk_hopByHop h20 (Nat.lt_succ_self _)] at hw
  exact hc.lt_arrived hw

theorem nextHeaderWalk_congr (h20 : memRead fb 20 = memRead fc 20)
    (h : ∀ j, 54 ≤ j → j < len → ¬ HopOption fb len j → memRead fb j = memRead fc j) :
    nextHeaderWalk fb len = nextHeaderWalk fc len := by
  cases hnh : memRead fb 20 with
  | none => rw [nextHeaderWalk_unwritten hnh, nextHeaderWalk_unwritten (h20 ▸ hnh)]
  | some nh =>
    by_cases hicmp : nh = 0x3A#8
    · subst hicmp; rw [nextHeaderWalk_icmp6 hnh, nextHeaderWalk_icmp6 (h20 ▸ hnh)]
    by_cases hhbh : nh = 0x00#8
    · subst hhbh
      rw [nextHeaderWalk_hopByHop hnh (Nat.lt_succ_self _), nextHeaderWalk_hopByHop (h20 ▸ hnh) (Nat.lt_succ_self _)]
      exact hbhWalk_congr fun j hge hlt hnot => h j hge hlt fun ho => hnot (hopOption_iff.1 ho).2
    · rw [nextHeaderWalk_unsupported hnh hicmp hhbh, nextHeaderWalk_unsupported (h20 ▸ hnh) hicmp hhbh]

/-! ## The message -/

section
variable (haddrs : ∀ j, 22 ≤ j → j < 54 → memRead fb j = memRead fc j)
  (hmsg : ∀ j, off ≤ j → j < off + ilen → memRead fb j = memRead fc j)
include haddrs hmsg

theorem parseAddrs_congr (h24 : 24 ≤ ilen) : parseAddrs fb off p = parseAddrs fc off p := by
  have hsrc : fbIp6 fb 22 = fbIp6 fc 22 := fbIp6_congr fun j hj => haddrs _ (by omega) (by omega)
  have hdst : fbIp6 fb 38 = fbIp6 fc 38 := fbIp6_congr fun j hj => haddrs _ (by omega) (by omega)
  have htgt : fbIp6 fb (off + 8) = fbIp6 fc (off + 8) := fbIp6_congr fun j hj => hmsg _ (by omega) (by omega)
  simp only [parseAddrs, hsrc, hdst, htgt]

theorem parseNs_congr : parseNs fb off ilen p = parseNs fc off ilen p := by
  by_cases h24 : ilen < 24
  · simp [parseNs, Config.nsLen, h24]
  have hsrc : fbIp6 fb 22 = fbIp6 fc 22 := fbIp6_congr fun j hj => haddrs _ (by omega) (by omega)
  have hfinish (q : ParseResult) : finishNs fb off q = finishNs fc off q := by
    simp only [finishNs, parseAddrs_congr haddrs hmsg (Nat.not_lt.1 h24)]
  by_cases h32 : ilen < 32
  · simp only [parseNs, Config.nsLen, Config.optLlaLen, h24, h32, if_false, if_true, hsrc, hfinish]
  have hty : fbByte fb (off + 24) = fbByte fc (off + 24) := fbByte_congr (hmsg _ (by omega) (by omega))
  have hln : fbByte fb (off + 25) = fbByte fc (off + 25) := fbByte_congr (hmsg _ (by omega) (by omega))
  have hhi : fbBe16 fb (off + 26) = fbBe16 fc (off + 26) := fbBe16_congr fun j hj => hmsg _ (by omega) (by omega)
  have hlo : fbBe32 fb (off + 28) = fbBe32 fc (off + 28) := fbBe32_congr fun j hj => hmsg _ (by omega) (by omega)
  simp only [parseNs, parseSlla, hsrc, hfinish, hty, hln, hhi, hlo]

theorem parseNa_congr : parseNa fb off ilen p = parseNa fc off ilen p := by
  by_cases h24 : ilen < 24
  · simp [parseNa, Config.naLen, h24]
  · simp only [parseNa, parseAddrs_congr haddrs hmsg (Nat.not_lt.1 h24)]

/-- Steps 5 to 7 read nothing but the addresses and the message. -/
theorem parseIcmp_congr : parseIcmp fb off ilen p = parseIcmp fc off ilen p := by
  by_cases h8 : ilen < 8
  · simp [parseIcmp, Config.icmp6Len, h8]
  have hrx : fbBe16 fb (off + 2) = fbBe16 fc (off + 2) := fbBe16_congr fun j hj => hmsg _ (by omega) (by omega)
  have hty : fbByte fb off = fbByte fc off := fbByte_congr (hmsg _ (by omega) (by omega))
  have hsrc : fbSpan fb 22 16 = fbSpan fc 22 16 := fbSpan_congr fun j hj => haddrs _ (by omega) (by omega)
  have hdst : fbSpan fb 38 16 = fbSpan fc 38 16 := fbSpan_congr fun j hj => haddrs _ (by omega) (by omega)
  have hm : fbSpan fb off ilen = fbSpan fc off ilen := fbSpan_congr fun j hj => hmsg _ (by omega) (by omega)
  simp only [parseIcmp, parseType, icmp6Sum, Config.ethLen, hrx, hty, hsrc, hdst, hm, parseNs_congr haddrs hmsg,
    parseNa_congr haddrs hmsg]

end

/-- Settles O32: each stage reads only bytes on which the memories agree. -/
theorem parseIgnoresUncheckedBytes : Obligations.ParseIgnoresUncheckedBytes := by
  intro fb fc len h
  by_cases h54 : 54 ≤ len
  · have hheader (j : Nat) (hge : 12 ≤ j) (hlt : j < 54) (h14 : ¬ (14 ≤ j ∧ j < 18)) (h21 : j ≠ 21) :
        memRead fb j = memRead fc j := h j (by omega) hge h14 h21 fun ho => by have := (hopOption_iff.1 ho).2.le; omega
    have hpayload (j : Nat) (hge : 54 ≤ j) (hlt : j < len) (hnot : ¬ HopOption fb len j) : memRead fb j = memRead fc j :=
      h j hlt (by omega) (by omega) (by omega) hnot
    have hety : fbBe16 fb 12 = fbBe16 fc 12 :=
      fbBe16_congr fun j hj => hheader _ (by omega) (by omega) (by omega) (by omega)
    have hplen : fbBe16 fb 18 = fbBe16 fc 18 :=
      fbBe16_congr fun j hj => hheader _ (by omega) (by omega) (by omega) (by omega)
    have hwalk : nextHeaderWalk fb len = nextHeaderWalk fc len :=
      nextHeaderWalk_congr (hheader 20 (by omega) (by omega) (by omega) (by omega)) hpayload
    have hafter : nextHeaderWalk fb len >>= parseAfterWalk fb len = nextHeaderWalk fc len >>= parseAfterWalk fc len := by
      rw [← hwalk]
      cases hw : nextHeaderWalk fb len with
      | error q => rfl
      | ok w =>
        cases w with
        | dropped d => rfl
        | arrived off ext =>
          obtain ⟨hge, hle⟩ := nextHeaderWalk_arrived h54 hw
          exact parseIcmp_congr (fun j hj hlt => hheader j (by omega) hlt (by omega) (by omega))
            fun j hj hlt => hpayload j (by omega) (by omega) fun ho => by have := ho.lt_arrived hw; omega
    rw [parseFrame_long h54, parseFrame_long h54, hety, hplen, hafter]
  · rw [parseFrame_short (Nat.not_le.1 h54), parseFrame_short (Nat.not_le.1 h54)]

end Sys2Proof.Machine
end

section
/-!
One rule for each entry of the filter program inside a run (R242 to R246) and for each way a fetch can go (R240, R247), and the
start checks of FILTER_RUN.
-/
namespace Sys2Proof.Machine

variable {s : State} {r : BpfRun} {wb : Bool} {jt jf hi lo : Byte} {c k : Word} {fb : List Host.Cell} {i : Nat}

/-! ## The entries -/

theorem withRun_inside {go : BpfRun → Result} (hr : s.run = some r) : withRun s go = go r := by simp [withRun, hr]

theorem exec_ldh_past (hr : s.run = some r) (hk : s.frameLen.toNat < k.toNat + 2) :
    exec (.ldh jt jf k) s = runFinish 0 true r s :=
  (withRun_inside hr).trans (if_pos (pastFrame_of_lt hk))

theorem exec_ldh_within (hr : s.run = some r) (hk : k.toNat + 2 ≤ s.frameLen.toNat) : exec (.ldh jt jf k) s =
    orUninit s (fbBe16 s.fb k.toNat) fun h => .next { s with run := some { r with a := h.setWidth 32, pc := r.pc + 1 } } :=
  (withRun_inside hr).trans (if_neg (ne_true_of_eq_false (pastFrame_of_le hk)))

theorem exec_ldb_past (hr : s.run = some r) (hk : s.frameLen.toNat < k.toNat + 1) :
    exec (.ldb jt jf k) s = runFinish 0 true r s :=
  (withRun_inside hr).trans (if_pos (pastFrame_of_lt hk))

theorem exec_ldb_within (hr : s.run = some r) (hk : k.toNat + 1 ≤ s.frameLen.toNat) : exec (.ldb jt jf k) s =
    orUninit s (fbByte s.fb k.toNat) fun b => .next { s with run := some { r with a := b.setWidth 32, pc := r.pc + 1 } } :=
  (withRun_inside hr).trans (if_neg (ne_true_of_eq_false (pastFrame_of_le hk)))

theorem exec_jeq (hr : s.run = some r) : exec (.jeq jt jf k) s =
    .next { s with run := some { r with pc := r.pc + 1 + (if r.a = k then jt.toNat else jf.toNat) } } :=
  withRun_inside hr

theorem exec_ret (hr : s.run = some r) : exec (.ret jt jf k) s = runFinish k false r s := withRun_inside hr

theorem exec_illegalBpf {code : Half} (hr : s.run = some r) : exec (.illegalBpf code jt jf k) s = runFail .bpfIllegal r s :=
  withRun_inside hr

theorem fbBe16_eq_append (hhi : memRead fb i = some hi) (hlo : memRead fb (i + 1) = some lo) :
    fbBe16 fb i = .ok (hi ++ lo) := by
  simp [fbBe16, fbByte_eq_ok.2 hhi, fbByte_eq_ok.2 hlo]

/-- A halfword as a number, the first byte the most significant (R15). -/
theorem setWidth_halfword (hi lo : Byte) : (hi ++ lo).setWidth 32 = BitVec.ofNat 32 (hi.toNat * 256 + lo.toNat) := by
  apply BitVec.eq_of_toNat_eq
  rw [BitVec.toNat_setWidth, BitVec.toNat_append, ← Nat.shiftLeft_add_eq_or_of_lt lo.isLt, Nat.shiftLeft_eq,
    BitVec.toNat_ofNat]

theorem exec_ldh_loads (hr : s.run = some r) (hk : k.toNat + 2 ≤ s.frameLen.toNat) (hhi : memRead s.fb k.toNat = some hi)
    (hlo : memRead s.fb (k.toNat + 1) = some lo) : exec (.ldh jt jf k) s = .next { s with
      run := some { a := BitVec.ofNat 32 (hi.toNat * 256 + lo.toNat), pc := r.pc + 1, steps := r.steps } } := by
  rw [exec_ldh_within hr hk, fbBe16_eq_append hhi hlo, orUninit_ok, setWidth_halfword]

theorem exec_ldh_stops {j : Nat} (hr : s.run = some r) (hk : k.toNat + 2 ≤ s.frameLen.toNat)
    (hj : firstUnwritten s.fb [k.toNat, k.toNat + 1] = some j) :
    exec (.ldh jt jf k) s = .fault (.uninitRead s.lastop (.fb j)) := by
  rw [exec_ldh_within hr hk, fbBe16_stops hj, orUninit_error]

theorem exec_ldb_loads {b : Byte} (hr : s.run = some r) (hk : k.toNat + 1 ≤ s.frameLen.toNat)
    (hb : memRead s.fb k.toNat = some b) : exec (.ldb jt jf k) s = .next { s with
      run := some { a := BitVec.ofNat 32 b.toNat, pc := r.pc + 1, steps := r.steps } } := by
  rw [exec_ldb_within hr hk, fbByte_eq_ok.2 hb, orUninit_ok, BitVec.ofNat_toNat]

theorem exec_ldb_stops (hr : s.run = some r) (hk : k.toNat + 1 ≤ s.frameLen.toNat) (hb : memRead s.fb k.toNat = none) :
    exec (.ldb jt jf k) s = .fault (.uninitRead s.lastop (.fb k.toNat)) := by
  rw [exec_ldb_within hr hk, fbByte_unwritten hb, orUninit_error]

/-- Settles O35: by the bound on `k`, then by what the read of the halfword finds. -/
theorem ldhLoadsHalfwordOrDrops : Obligations.LdhLoadsHalfwordOrDrops := fun _ _ _ _ _ hr =>
  ⟨exec_ldh_past hr, fun hk _ _ => exec_ldh_loads hr hk, fun hk _ => exec_ldh_stops hr hk⟩

/-- Settles O36: by the bound on `k`, then by what the read of the byte finds. -/
theorem ldbLoadsByteOrDrops : Obligations.LdbLoadsByteOrDrops := fun _ _ _ _ _ hr =>
  ⟨exec_ldb_past hr, fun hk _ => exec_ldb_loads hr hk, exec_ldb_stops hr⟩

/-- Settles O37: the two branches of the compare. -/
theorem jeqBranchesForward : Obligations.JeqBranchesForward := by
  intro s r jt jf k hr
  refine ⟨fun heq => ?_, fun hne => ?_⟩
  · rw [exec_jeq hr, if_pos heq]
  · rw [exec_jeq hr, if_neg hne]

/-- Settles O38: the run finishes with value k. -/
theorem retEndsWithItsValue : Obligations.RetEndsWithItsValue := fun _ _ _ _ _ hr => exec_ret hr

/-- Settles O39: the run fails with ERR_BPF_ILLEGAL. -/
theorem illegalEntryFailsTheRun : Obligations.IllegalEntryFailsTheRun := fun _ _ _ _ _ _ hr => exec_illegalBpf hr

/-! ## The fetch -/

section
variable {go : Word → Word → State → Result}

theorem fetchEntry_past (hpc : s.progLen.toNat ≤ r.pc) : fetchEntry s r go = runFail .bpfPc r s := if_pos hpc

/-- Below PROG_LEN both words of the entry are read before anything else (assumption 8). -/
theorem fetchEntry_below (hpc : r.pc < s.progLen.toNat) : fetchEntry s r go =
    orUninit s (progEntry s.prog r.pc) fun e => go e.1 e.2 { s with run := some { r with steps := r.steps + 1 } } :=
  if_neg (Nat.not_le.2 hpc)

theorem fetchEntry_written (hpc : r.pc < s.progLen.toNat) (hc : memRead s.prog (2 * r.pc) = some c)
    (hk : memRead s.prog (2 * r.pc + 1) = some k) :
    fetchEntry s r go = go c k { s with run := some { r with steps := r.steps + 1 } } := by
  rw [fetchEntry_below hpc]
  simp [progEntry, progCodeAt, progKAt, hc, hk]

theorem fetchEntry_code_unwritten (hpc : r.pc < s.progLen.toNat) (hc : memRead s.prog (2 * r.pc) = none) :
    fetchEntry s r go = .fault (.uninitRead s.lastop (.progCode r.pc)) := by
  rw [fetchEntry_below hpc]
  simp [progEntry, progCodeAt, hc]

theorem fetchEntry_k_unwritten (hpc : r.pc < s.progLen.toNat) (hc : memRead s.prog (2 * r.pc) = some c)
    (hk : memRead s.prog (2 * r.pc + 1) = none) : fetchEntry s r go = .fault (.uninitRead s.lastop (.progK r.pc)) := by
  rw [fetchEntry_below hpc]
  simp [progEntry, progCodeAt, progKAt, hc, hk]

end

/-- Settles O5: a step inside a run is a fetch, here of a written entry. -/
theorem stepRunsFetchedEntry : Obligations.StepRunsFetchedEntry := fun _ _ _ _ hr hpc hc hk =>
  (step_inside hr).trans (fetchEntry_written hpc hc hk)

/-- Settles O40: a step inside a run is a fetch, here past the end of the program. -/
theorem fetchPastTheEndFailsTheRun : Obligations.FetchPastTheEndFailsTheRun := fun _ _ hr hpc =>
  (step_inside hr).trans (fetchEntry_past hpc)

/-! ## The start checks -/

theorem exec_filterRun_bad_length (hlen : s.progLen.toNat = 0 ∨ s.cfg.progCap < s.progLen.toNat) :
    exec (.filterRun wb) s = raiseErr .progLen s := if_pos hlen

theorem exec_filterRun_past (h0 : s.progLen.toNat ≠ 0) (hcap : s.progLen.toNat ≤ s.cfg.progCap)
    (hpast : s.cfg.fbSize < s.frameLen.toNat) : exec (.filterRun wb) s = raiseErr .range s :=
  (if_neg (not_or.2 ⟨h0, Nat.not_lt.2 hcap⟩)).trans (if_pos (pastFb_of_lt (by rwa [Nat.zero_add])))

theorem progLen_toNat_ne_zero (h : s.progLen ≠ 0#9) : s.progLen.toNat ≠ 0 := fun h0 => h (BitVec.eq_of_toNat_eq h0)

/-- Settles O34: the check of PROG_LEN, then that of FRAME_LEN. -/
theorem filterRunStartChecks : Obligations.FilterRunStartChecks := fun _ _ =>
  ⟨fun hlen => exec_filterRun_bad_length (hlen.imp_left (congrArg BitVec.toNat)),
    fun h0 => exec_filterRun_past (progLen_toNat_ne_zero h0)⟩

end Sys2Proof.Machine
end

section
/-!
FILTER_GEN writes GEN (R230, R231).
-/
namespace Sys2Proof.Machine

variable {s : State} {ws : List Word} {i : Nat}

/-- The state with these words in PROG from entry 0 on, PROG_LEN 9. -/
def loadProg (ws : List Word) (s : State) : State := { s with prog := memWriteList s.prog 0 ws, progLen := 9#9 }

theorem memRead_loadProg_inside (hi : i < ws.length) : memRead (loadProg ws s).prog i = ws[i]? := by
  simpa [loadProg] using memRead_memWriteList_inside ws s.prog (a := 0) hi

theorem memRead_loadProg_above (hi : ws.length ≤ i) : memRead (loadProg ws s).prog i = memRead s.prog i :=
  memRead_memWriteList_outside ws s.prog (.inr (by omega))

theorem loadProg_wf (hwf : Memory.wf s.prog) : Memory.wf (loadProg ws s).prog := memWriteList_wf hwf 0 ws

/-- On a canonical memory that holds the words already nothing is left to write. -/
theorem loadProg_eq_self (hwf : Memory.wf s.prog) (hlen : s.progLen = 9#9) (hheld : ∀ i < ws.length, memRead s.prog i = ws[i]?) :
    loadProg ws s = s := by
  have hprog : memWriteList s.prog 0 ws = s.prog := memWriteList_same ws hwf fun i hi => by rw [Nat.zero_add, hheld i hi]
  rw [loadProg, hprog, ← hlen]

theorem complete_loadProg_frame : complete .ok (loadProg ws s) = { s with
    prog := (complete .ok (loadProg ws s)).prog, progLen := 9#9, pending := none, done := true, errcode := .ok, err := false } :=
  rfl

theorem complete_loadProg_idem (hwf : Memory.wf s.prog) :
    complete .ok (loadProg ws (complete .ok (loadProg ws s))) = complete .ok (loadProg ws s) := by
  rw [loadProg_eq_self (s := complete .ok (loadProg ws s)) (loadProg_wf hwf) rfl fun _ hi => memRead_loadProg_inside hi]
  rfl

/-- The words FILTER_GEN writes are the table of R231. -/
theorem genWords_eq_genTable : genWords = genTable := by decide

theorem exec_filterGen (wb : Bool) (s : State) : exec (.filterGen wb) s = .next (complete .ok (loadProg genTable s)) := by
  rw [← genWords_eq_genTable]; rfl

/-- Settles O33: a run of writes holds its words, leaves the others, and is repeated without effect. -/
theorem filterGenWritesTheProgram : Obligations.FilterGenWritesTheProgram := by
  intro s wb
  refine ⟨_, exec_filterGen wb s, complete_loadProg_frame, fun i hi => ?_, fun i hi => ?_, fun hwf => ?_⟩
  · rw [complete_prog, memRead_loadProg_inside hi]
  · rw [complete_prog, memRead_loadProg_above hi]
  · rw [exec_filterGen, complete_loadProg_idem hwf]

end Sys2Proof.Machine
end

section
/-!
FILTER_RUN completes on a written program and frame, and elsewhere stops where its run, entry by entry, stops (R240, R248, R287).
-/
namespace Sys2Proof.Machine

variable {s t : State} {q r : BpfRun} {wb : Bool} {c k : Word} {n fuel : Nat} {f : Fault}

/-! ## One turn of the loop -/

/-- The state inside a run. -/
def State.inside (s : State) (r : BpfRun) : State := { s with run := some r }

/-- A fetch that goes on carries out one entry and moves pc up, or ends the run. -/
theorem fetchEntry_goes (h : fetchEntry (s.inside r) r execEntry = .next t) :
    (∃ q, r.pc < q.pc ∧ t = s.inside q) ∨ ∃ q, RunEnds q s t := by
  rcases fetchEntry_cases h with ⟨-, code, v, oob, hc, rfl⟩ | ⟨-, c, k, -, hgo⟩
  · exact .inr ⟨r, code, v, oob, hc, rfl⟩
  · rcases execEntry_cases rfl hgo with ⟨a, pc, hlt, -, rfl⟩ | ⟨code, v, oob, hc, rfl⟩
    · exact .inl ⟨_, hlt, rfl⟩
    · exact .inr ⟨_, code, v, oob, hc, rfl⟩

/-- A written entry below PROG_LEN is counted and carried out. -/
theorem fetchEntry_inside {go : Word → Word → State → Result} (hpc : r.pc < s.progLen.toNat)
    (hc : memRead s.prog (2 * r.pc) = some c) (hk : memRead s.prog (2 * r.pc + 1) = some k) :
    fetchEntry (s.inside r) r go = go c k (s.inside { r with steps := r.steps + 1 }) := fetchEntry_written hpc hc hk

theorem RunEnds.idle (h : RunEnds r s t) : t.run = none := by
  obtain ⟨code, v, oob, -, rfl⟩ := h
  rfl

theorem runLoop_next (h : fetchEntry (s.inside r) r execEntry = .next t) :
    runLoop (fuel + 1) (s.inside r) = runLoop fuel t := by
  simp [runLoop, show (s.inside r).run = some r from rfl, h]

theorem runLoop_fault (h : fetchEntry (s.inside r) r execEntry = .fault f) :
    runLoop (fuel + 1) (s.inside r) = .fault f := by
  simp [runLoop, show (s.inside r).run = some r from rfl, h]

theorem exec_filterRun_eq_runLoop (h0 : s.progLen ≠ 0#9) (hcap : s.progLen.toNat ≤ s.cfg.progCap)
    (hfit : s.frameLen.toNat ≤ s.cfg.fbSize) : exec (.filterRun wb) s = runLoop (s.progLen.toNat + 1) (s.inside .start) :=
  execFilterRun_eq_runLoop wb (progLen_toNat_ne_zero h0) hcap hfit

/-! ## Completion -/

/-- The program and the frame are written whole. -/
def Runnable (s : State) : Prop :=
  (∀ i < 2 * s.progLen.toNat, (memRead s.prog i).isSome = true) ∧ Written s.fb 0 s.frameLen.toNat

theorem execEntry_completes (hw : Written s.fb 0 s.frameLen.toNat) (hr : s.run = some r) :
    ∃ t, execEntry c k s = .next t := by
  rw [execEntry_eq_exec, decodeEntry_eq_entry]
  cases bpfForm (entryCode c) with
  | ldh =>
    by_cases hk : k.toNat + 2 ≤ s.frameLen.toNat
    · obtain ⟨v, hv⟩ := (hw.mono hk).be16
      exact ⟨_, (exec_ldh_within hr hk).trans (by rw [hv, orUninit_ok])⟩
    · exact ⟨_, exec_ldh_past hr (Nat.not_le.1 hk)⟩
  | ldb =>
    by_cases hk : k.toNat + 1 ≤ s.frameLen.toNat
    · obtain ⟨b, hb⟩ := hw.byte hk
      exact ⟨_, (exec_ldb_within hr hk).trans (by rw [fbByte_eq_ok.2 hb, orUninit_ok])⟩
    · exact ⟨_, exec_ldb_past hr (Nat.not_le.1 hk)⟩
  | jeq => exact ⟨_, exec_jeq hr⟩
  | ret => exact ⟨_, exec_ret hr⟩
  | illegal => exact ⟨_, exec_illegalBpf hr⟩

theorem fetchEntry_completes (hs : Runnable s) (r : BpfRun) : ∃ t, fetchEntry (s.inside r) r execEntry = .next t := by
  obtain ⟨hprog, hframe⟩ := hs
  by_cases hpc : r.pc < s.progLen.toNat
  · obtain ⟨c, hc⟩ := Option.isSome_iff_exists.1 (hprog (2 * r.pc) (by omega))
    obtain ⟨k, hk⟩ := Option.isSome_iff_exists.1 (hprog (2 * r.pc + 1) (by omega))
    obtain ⟨t, ht⟩ := execEntry_completes (s := s.inside { r with steps := r.steps + 1 }) (c := c) (k := k) hframe rfl
    exact ⟨t, (fetchEntry_inside hpc hc hk).trans ht⟩
  · exact ⟨_, fetchEntry_past (Nat.not_lt.1 hpc)⟩

theorem runLoop_completes (hs : Runnable s) (fuel : Nat) (r : BpfRun) : ∃ t, runLoop fuel (s.inside r) = .next t := by
  induction fuel generalizing r with
  | zero => exact ⟨_, rfl⟩
  | succ fuel ih =>
    obtain ⟨u, hu⟩ := fetchEntry_completes hs r
    rw [runLoop_next hu]
    rcases fetchEntry_goes hu with ⟨q, -, rfl⟩ | ⟨q, hend⟩
    · exact ih q
    · exact ⟨u, runLoop_idle fuel hend.idle⟩

/-- A run that completes has ended, with at most PROG_LEN entries counted (R248). -/
theorem runLoop_start_ends (h : runLoop (s.progLen.toNat + 1) (s.inside .start) = .next t) :
    ∃ q : BpfRun, q.steps ≤ s.progLen.toNat ∧ RunEnds q s t := by
  obtain ⟨q, hsteps, -, code, v, oob, hc, rfl⟩ := runLoop_ends (s := s.inside .start) rfl (Nat.succ_pos _) (Nat.lt_succ_self _)
    (Nat.le_refl 0) (Nat.zero_le _) (Nat.zero_le _) h
  exact ⟨q, hsteps, code, v, oob, hc, rfl⟩

/-! ## The machine's own steps -/

theorem writePlace_run (v : Word) (s : State) (p : Place) : (writePlace v s p).run = s.run := by
  cases p with
  | reg r =>
    cases r with
    | cmd => cases hp : s.pending <;> simp [writePlace, writeReg, writeCmd, hp]
    | _ => rfl
  | _ => rfl

theorem hostAccess_run {a : Access} (h : hostAccess a s = .next t) : t.run = s.run := by
  cases a with
  | read w addr =>
    obtain ⟨d, n, f, rfl⟩ := hostRead_frame h
    rfl
  | write w addr v =>
    rcases hostWrite_cases h with rfl | ⟨off, rfl⟩ | ⟨off, -, -, rfl⟩ | ⟨fb, -, -, rfl⟩
    · rfl
    · rfl
    · exact writePlace_run v s _
    · rfl

/-- No step between two turns leaves the machine inside a run (R52, R56). -/
theorem step_idle (hr : s.run = none) (h : step s = .next t) : t.run = none := by
  obtain ⟨ts, rfl | ⟨c, -, he⟩ | ⟨a, ha⟩ | rfl⟩ := step_cases_between hr h
  · exact hr
  · exact (engineStep_ends he).completed.run.elim (·.trans hr) id
  · exact (hostAccess_run ha).trans hr
  · rfl

theorem run_idle (hr : s.run = none) (h : core.run n s = .next t) : t.run = none := by
  induction n generalizing s with
  | zero => obtain rfl := Host.Outcome.next.inj h; exact hr
  | succ n ih =>
    cases hu : step s with
    | next u => exact ih (step_idle hr hu) ((run_succ_of_next hu).symm.trans h)
    | fault f => cases (run_succ_of_fault hu).symm.trans h
    | refused e => cases (run_succ_of_refused hu).symm.trans h

/-- While the machine's steps stay inside the run, only the run state moves, pc with every step, and FILTER_RUN's loop goes the
same way (assumption 10). -/
theorem run_inside (h : core.run n (s.inside r) = .next t) (hq : t.run = some q) :
    t = s.inside q ∧ r.pc + n ≤ q.pc ∧ ∀ fuel, runLoop (n + fuel) (s.inside r) = runLoop fuel (s.inside q) := by
  induction n generalizing r with
  | zero =>
    obtain rfl := Host.Outcome.next.inj h
    obtain rfl := Option.some.inj hq
    exact ⟨rfl, Nat.le_refl _, fun fuel => by rw [Nat.zero_add]⟩
  | succ n ih =>
    have hstep : step (s.inside r) = fetchEntry (s.inside r) r execEntry := step_eq_fetchEntry rfl
    cases hu : fetchEntry (s.inside r) r execEntry with
    | fault f => cases (run_succ_of_fault (hstep.trans hu)).symm.trans h
    | refused e => cases (run_succ_of_refused (hstep.trans hu)).symm.trans h
    | next u =>
      have hrest : core.run n u = .next t := (run_succ_of_next (hstep.trans hu)).symm.trans h
      rcases fetchEntry_goes hu with ⟨r', hlt, rfl⟩ | ⟨r', hend⟩
      · obtain ⟨ht, hpc, hloop⟩ := ih hrest
        refine ⟨ht, by omega, fun fuel => ?_⟩
        rw [Nat.add_right_comm, runLoop_next hu, hloop]
      · cases (run_idle hend.idle hrest).symm.trans hq

/-- Where a step of the run faults, FILTER_RUN does. -/
theorem exec_filterRun_fault (h0 : s.progLen ≠ 0#9) (hcap : s.progLen.toNat ≤ s.cfg.progCap)
    (hfit : s.frameLen.toNat ≤ s.cfg.fbSize) (h : core.run n (s.inside .start) = .next t) (hq : t.run = some q)
    (hpc : q.pc < s.progLen.toNat) (hf : fetchEntry (s.inside q) q execEntry = .fault f) :
    exec (.filterRun wb) s = .fault f := by
  obtain ⟨-, hle, hloop⟩ := run_inside h hq
  obtain ⟨m, hm⟩ := Nat.exists_eq_add_of_lt (show n < s.progLen.toNat + 1 by omega)
  rw [exec_filterRun_eq_runLoop h0 hcap hfit, hm, Nat.add_assoc, hloop, runLoop_fault hf]

theorem execEntry_ldh (hc : entryCode c = 0x0028#16) : execEntry c k s = exec (.ldh (entryJt c) (entryJf c) k) s := by
  simp [execEntry, hc, bpfForm, exec]

theorem execEntry_ldb (hc : entryCode c = 0x0030#16) : execEntry c k s = exec (.ldb (entryJt c) (entryJf c) k) s := by
  simp [execEntry, hc, bpfForm, exec]

/-- Settles O42: on written memory no turn of the loop faults; and the loop comes to every entry the steps come to. -/
theorem filterRunCompletesOnWrittenPrograms : Obligations.FilterRunCompletesOnWrittenPrograms := by
  intro s wb h0 hcap hfit
  refine ⟨fun _ hprog hframe => ?_, fun n t r hrun hr hpc => ?_⟩
  · obtain ⟨t, ht⟩ := runLoop_completes ⟨hprog, hframe⟩ (s.progLen.toNat + 1) .start
    refine ⟨t, (exec_filterRun_eq_runLoop h0 hcap hfit).trans ht, ?_⟩
    obtain ⟨q, hsteps, code, v, oob, hc, rfl⟩ := runLoop_start_ends ht
    refine ⟨rfl, ?_, ?_, ?_, rfl⟩
    · exact hc.imp_right And.left
    · intro hne
      obtain ⟨-, hv, -⟩ := hc.resolve_left hne
      exact hv
    · exact (Nat.mod_le _ _).trans hsteps
  · have stops_of {p : Place} (hf : fetchEntry (s.inside r) r execEntry = .fault (.uninitRead s.lastop p)) :
        exec (.filterRun wb) s = .fault (.uninitRead s.lastop p) :=
      exec_filterRun_fault h0 hcap hfit hrun hr hpc hf
    exact ⟨fun hc => stops_of (fetchEntry_code_unwritten hpc hc), fun c hc hk => stops_of (fetchEntry_k_unwritten hpc hc hk),
      fun c k hc hk =>
        ⟨fun hcode hin j hj =>
          stops_of ((fetchEntry_inside hpc hc hk).trans ((execEntry_ldh hcode).trans (exec_ldh_stops rfl hin hj))),
        fun hcode hin hb =>
          stops_of ((fetchEntry_inside hpc hc hk).trans ((execEntry_ldb hcode).trans (exec_ldb_stops rfl hin hb)))⟩⟩

end Sys2Proof.Machine
end

section
/-!
What the generated program decides (R250): a rule for each form of entry says what a run from it on decides, and the decision of
GEN is read off its entries from the last to the first. What PARSE accepts without extension headers meets it (R251).
-/
namespace Sys2Proof.Machine

variable {s : State} {a b : Word} {jt jf : Byte} {c k v : Word} {pc pc' : Nat} {P Q : Prop} {i : Instr}

/-! ## Runs that decide -/

/-- PROG holds this entry at an index below PROG_LEN. -/
def HasEntry (s : State) (pc : Nat) (i : Instr) : Prop :=
  pc < s.progLen.toNat ∧
    ∃ c k, memRead s.prog (2 * pc) = some c ∧ memRead s.prog (2 * pc + 1) = some k ∧ decodeEntry c k = i

theorem HasEntry.fetch {r : BpfRun} (h : HasEntry s r.pc i) :
    fetchEntry (s.inside r) r execEntry = exec i (s.inside { r with steps := r.steps + 1 }) := by
  obtain ⟨hpc, c, k, hc, hk, rfl⟩ := h
  rw [fetchEntry_inside hpc hc hk, execEntry_eq_exec]

/-- With fuel for every entry ahead, the run from A and pc on ends without an error and accepts exactly where P holds. -/
def RunDecides (s : State) (a : Word) (pc : Nat) (P : Prop) : Prop :=
  ∀ steps fuel, s.progLen.toNat < fuel + pc →
    ∃ t, runLoop fuel (s.inside { a := a, pc := pc, steps := steps }) = .next t ∧ t.errcode = .ok ∧ (t.fresult ≠ 0#32 ↔ P)

theorem RunDecides.congr (h : RunDecides s a pc P) (hPQ : P ↔ Q) : RunDecides s a pc Q := propext hPQ ▸ h

/-- An entry that moves the run on leaves the decision to the entries ahead. -/
theorem RunDecides.moves (h : HasEntry s pc i) (hlt : pc < pc')
    (hi : ∀ steps, exec i (s.inside { a := a, pc := pc, steps := steps }) = .next (s.inside { a := b, pc := pc', steps := steps }))
    (hrest : RunDecides s b pc' P) : RunDecides s a pc P := by
  intro steps fuel hfuel
  have ⟨hpc, _⟩ := h
  obtain ⟨fuel, rfl⟩ := Nat.exists_eq_succ_of_ne_zero (show fuel ≠ 0 by omega)
  rw [runLoop_next ((HasEntry.fetch h).trans (hi (steps + 1)))]
  exact hrest _ fuel (by omega)

/-- An entry that finishes the run decides by its value. -/
theorem RunDecides.finishes {oob : Bool} (h : HasEntry s pc i)
    (hi : ∀ steps, exec i (s.inside { a := a, pc := pc, steps := steps }) =
      runFinish v oob { a := a, pc := pc, steps := steps } (s.inside { a := a, pc := pc, steps := steps })) :
    RunDecides s a pc (v ≠ 0#32) := by
  intro steps fuel hfuel
  have ⟨hpc, _⟩ := h
  obtain ⟨fuel, rfl⟩ := Nat.exists_eq_succ_of_ne_zero (show fuel ≠ 0 by omega)
  rw [runLoop_next ((HasEntry.fetch h).trans (hi (steps + 1)))]
  exact ⟨_, runLoop_idle fuel rfl, rfl, Iff.rfl⟩

theorem RunDecides.ret (h : HasEntry s pc (.ret jt jf k)) : RunDecides s a pc (k ≠ 0#32) := .finishes h fun _ => exec_ret rfl

theorem RunDecides.jeq (h : HasEntry s pc (.jeq jt jf k)) (ht : RunDecides s a (pc + 1 + jt.toNat) P)
    (hf : RunDecides s a (pc + 1 + jf.toNat) Q) : RunDecides s a pc (a = k ∧ P ∨ a ≠ k ∧ Q) := by
  by_cases hak : a = k
  · exact .congr (.moves h (by omega) (fun steps => (exec_jeq rfl).trans (by rw [if_pos hak]; rfl)) ht) (by simp [hak])
  · exact .congr (.moves h (by omega) (fun steps => (exec_jeq rfl).trans (by rw [if_neg hak]; rfl)) hf) (by simp [hak])

/-- A load past the frame drops it; inside the frame the entries ahead decide by the byte. -/
theorem RunDecides.ldb {D : Byte → Prop} (h : HasEntry s pc (.ldb jt jf k))
    (hw : k.toNat < s.frameLen.toNat → ∃ x, memRead s.fb k.toNat = some x)
    (hrest : ∀ x : Byte, RunDecides s (BitVec.ofNat 32 x.toNat) (pc + 1) (D x)) :
    RunDecides s a pc (k.toNat < s.frameLen.toNat ∧ ∃ x, memRead s.fb k.toNat = some x ∧ D x) := by
  by_cases hk : k.toNat < s.frameLen.toNat
  · obtain ⟨x, hx⟩ := hw hk
    refine .congr (.moves h (Nat.lt_succ_self _) (fun steps => exec_ldb_loads (s := s.inside _) rfl hk hx) (hrest x)) ?_
    simp [hk, hx]
  · refine .congr (.finishes h fun steps => exec_ldb_past rfl (Nat.lt_succ_of_le (Nat.not_lt.1 hk))) ?_
    simp [hk]

theorem RunDecides.ldh {D : Byte → Byte → Prop} (h : HasEntry s pc (.ldh jt jf k))
    (hw : k.toNat + 1 < s.frameLen.toNat → ∃ x y, memRead s.fb k.toNat = some x ∧ memRead s.fb (k.toNat + 1) = some y)
    (hrest : ∀ x y : Byte, RunDecides s (BitVec.ofNat 32 (x.toNat * 256 + y.toNat)) (pc + 1) (D x y)) :
    RunDecides s a pc (k.toNat + 1 < s.frameLen.toNat ∧
      ∃ x y, memRead s.fb k.toNat = some x ∧ memRead s.fb (k.toNat + 1) = some y ∧ D x y) := by
  by_cases hk : k.toNat + 1 < s.frameLen.toNat
  · obtain ⟨x, y, hx, hy⟩ := hw hk
    refine .congr (.moves h (Nat.lt_succ_self _) (fun steps => exec_ldh_loads (s := s.inside _) rfl hk hx hy) (hrest x y)) ?_
    simp [hk, hx, hy]
  · refine .congr (.finishes h fun steps => exec_ldh_past rfl (Nat.lt_succ_of_le (Nat.not_lt.1 hk))) ?_
    simp [hk]

/-! ## GEN -/

theorem HoldsGen.entry {n : Nat} (h : HoldsGen s) (hn : n < 9)
    (hi : decodeEntry (genTable.getD (2 * n) 0) (genTable.getD (2 * n + 1) 0) = i) : HasEntry s n i := by
  obtain ⟨hlen, hprog⟩ := h
  have hword {j : Nat} (hj : j < 18) : memRead s.prog j = some (genTable.getD j 0) := by
    rw [hprog j hj, List.getD_eq_getElem?_getD, List.getElem?_eq_getElem (show j < genTable.length from hj), Option.getD_some]
  exact ⟨by rw [hlen]; exact hn, _, _, hword (by omega), hword (by omega), hi⟩

theorem ofNat_byte_eq_iff (x y : Byte) : BitVec.ofNat 32 x.toNat = BitVec.ofNat 32 y.toNat ↔ x = y := by
  constructor
  · intro h; bv_omega
  · rintro rfl; rfl

theorem ofNat_half_eq_iff (x y x' y' : Byte) :
    BitVec.ofNat 32 (x.toNat * 256 + y.toNat) = BitVec.ofNat 32 (x'.toNat * 256 + y'.toNat) ↔ x = x' ∧ y = y' := by
  constructor
  · intro h; constructor <;> bv_omega
  · rintro ⟨rfl, rfl⟩; rfl

/-- The type is NS or NA: what entries 4 to 8 ask. -/
def GenType (s : State) : Prop :=
  54 < s.frameLen.toNat ∧ (memRead s.fb 54 = some 135#8 ∨ memRead s.fb 54 = some 136#8)

/-- The next header is ICMPv6, and what entries 4 to 8 ask. -/
def GenNext (s : State) : Prop := 20 < s.frameLen.toNat ∧ memRead s.fb 20 = some 58#8 ∧ GenType s

/-- The ether_type is IPv6, and what entries 2 to 8 ask. -/
def GenEther (s : State) : Prop :=
  13 < s.frameLen.toNat ∧ memRead s.fb 12 = some 0x86#8 ∧ memRead s.fb 13 = some 0xDD#8 ∧ GenNext s

/-- The four bytes GEN may load are written where they lie in the frame. -/
def GenReadable (s : State) : Prop := ∀ j ∈ [12, 13, 20, 54], j < s.frameLen.toNat → ∃ x, memRead s.fb j = some x

section
variable (hg : HoldsGen s)
include hg

theorem gen_rejects : RunDecides s a 8 False :=
  .congr (.ret (hg.entry (i := .ret 0 0 0) (by decide) (by decide))) (by decide)

theorem gen_accepts : RunDecides s a 7 True :=
  .congr (.ret (hg.entry (i := .ret 0 0 0xFFFFFFFF) (by decide) (by decide))) (by decide)

theorem gen_decides_type (x : Byte) : RunDecides s (BitVec.ofNat 32 x.toNat) 5 (x = 135#8 ∨ x = 136#8) := by
  have hns : BitVec.ofNat 32 x.toNat = 135#32 ↔ x = 135#8 := ofNat_byte_eq_iff x 135#8
  have hna : BitVec.ofNat 32 x.toNat = 136#32 ↔ x = 136#8 := ofNat_byte_eq_iff x 136#8
  have h6 : RunDecides s (BitVec.ofNat 32 x.toNat) 6 _ :=
    .jeq (hg.entry (i := .jeq 0 1 136#32) (by decide) (by decide)) (gen_accepts hg) (gen_rejects hg)
  refine .congr (.jeq (hg.entry (i := .jeq 1 0 135#32) (by decide) (by decide)) (gen_accepts hg) h6) ?_
  rw [hns, hna]
  tauto

variable (hr : GenReadable s)
include hr

theorem gen_loads_type : RunDecides s a 4 (GenType s) := by
  refine .congr (.ldb (hg.entry (i := .ldb 0 0 54) (by decide) (by decide)) (hr 54 (by decide)) (gen_decides_type hg)) ?_
  exact and_congr_right' (by simp [and_or_left, exists_or])

theorem gen_decides_next (x : Byte) : RunDecides s (BitVec.ofNat 32 x.toNat) 3 (x = 58#8 ∧ GenType s) := by
  have hicmp : BitVec.ofNat 32 x.toNat = 58#32 ↔ x = 58#8 := ofNat_byte_eq_iff x 58#8
  refine .congr (.jeq (hg.entry (i := .jeq 0 4 58#32) (by decide) (by decide)) (gen_loads_type hg hr) (gen_rejects hg)) ?_
  rw [hicmp]
  tauto

theorem gen_loads_next : RunDecides s a 2 (GenNext s) := by
  refine .congr (.ldb (hg.entry (i := .ldb 0 0 20) (by decide) (by decide)) (hr 20 (by decide)) (gen_decides_next hg hr)) ?_
  exact and_congr_right' (by simp)

theorem gen_decides_ether (x y : Byte) :
    RunDecides s (BitVec.ofNat 32 (x.toNat * 256 + y.toNat)) 1 (x = 0x86#8 ∧ y = 0xDD#8 ∧ GenNext s) := by
  have hipv6 : BitVec.ofNat 32 (x.toNat * 256 + y.toNat) = 0x86DD#32 ↔ x = 0x86#8 ∧ y = 0xDD#8 :=
    ofNat_half_eq_iff x y 0x86#8 0xDD#8
  refine .congr (.jeq (hg.entry (i := .jeq 0 6 0x86DD#32) (by decide) (by decide)) (gen_loads_next hg hr) (gen_rejects hg)) ?_
  rw [hipv6]
  tauto

theorem gen_loads_ether : RunDecides s a 0 (GenEther s) := by
  have hread (h13 : 13 < s.frameLen.toNat) : ∃ x y, memRead s.fb 12 = some x ∧ memRead s.fb 13 = some y := by
    obtain ⟨x, hx⟩ := hr 12 (by decide) (by omega)
    obtain ⟨y, hy⟩ := hr 13 (by decide) h13
    exact ⟨x, y, hx, hy⟩
  refine .congr (.ldh (hg.entry (i := .ldh 0 0 12) (by decide) (by decide)) hread (gen_decides_ether hg hr)) ?_
  exact and_congr_right' (by simp)

/-- With GEN in PROG, FILTER_RUN completes and decides (R250). -/
theorem exec_filterRun_gen (hcap : 9 ≤ s.cfg.progCap) (hfit : s.frameLen.toNat ≤ s.cfg.fbSize) (wb : Bool) :
    ∃ t, exec (.filterRun wb) s = .next t ∧ t.errcode = .ok ∧ (t.fresult ≠ 0#32 ↔ GenEther s) := by
  have ⟨hlen, _⟩ := hg
  rw [exec_filterRun_eq_runLoop (by rw [hlen]; decide) (by rw [hlen]; exact hcap) hfit]
  exact gen_loads_ether hg hr 0 _ (Nat.lt_succ_self _)

end

theorem genEther_iff : GenEther s ↔ 55 ≤ s.frameLen.toNat ∧ memRead s.fb 12 = some 0x86#8 ∧ memRead s.fb 13 = some 0xDD#8
    ∧ memRead s.fb 20 = some 58#8 ∧ (memRead s.fb 54 = some 135#8 ∨ memRead s.fb 54 = some 136#8) := by
  constructor
  · rintro ⟨-, h12, h13, -, h20, hlen, h54⟩
    exact ⟨hlen, h12, h13, h20, h54⟩
  · rintro ⟨hlen, h12, h13, h20, h54⟩
    exact ⟨by omega, h12, h13, by omega, h20, hlen, h54⟩

/-- Settles O43: in a written frame the bytes GEN loads are written. -/
theorem generatedProgramDecision : Obligations.GeneratedProgramDecision := by
  intro s wb hg hcap hfit hw
  obtain ⟨t, ht, hok, hiff⟩ := exec_filterRun_gen hg (fun j _ hj => hw.byte hj) hcap hfit wb
  exact ⟨t, ht, hok, hiff.trans genEther_iff⟩

/-! ## Frames PARSE accepts -/

theorem fbBe16_eq_etherIpv6 {fb : List Host.Cell} {j : Nat} (h : fbBe16 fb j = .ok 0x86DD#16) :
    memRead fb j = some 0x86#8 ∧ memRead fb (j + 1) = some 0xDD#8 := by
  obtain ⟨x, hx, h⟩ := except_bind_eq_ok h
  obtain ⟨y, hy, h⟩ := except_bind_eq_ok h
  have hword : BitVec.ofNat 32 (x.toNat * 256 + y.toNat) = 0x86DD#32 := by
    rw [← setWidth_halfword, Except.ok.inj h]; rfl
  obtain ⟨rfl, rfl⟩ := (ofNat_half_eq_iff x y 0x86#8 0xDD#8).1 hword
  exact ⟨fbByte_eq_ok.1 hx, fbByte_eq_ok.1 hy⟩

/-- The dispatch by type keeps the count of headers, and gives class NS or NA to their types only (R189). -/
theorem parseType_accepts {fb : List Host.Cell} {off ilen : Nat} {ty : Byte} {p r : ParseResult}
    (h : parseType fb off ilen ty p = .ok r) :
    r.extCount = p.extCount ∧ (r.verdict = .ns ∨ r.verdict = .na → ty = 135#8 ∨ ty = 136#8) := by
  unfold parseType at h
  split at h
  · rename_i hns
    refine ⟨?_, fun _ => .inl hns⟩
    rcases parseNs_cases h with ⟨d, rfl⟩ | ⟨-, src, dst, tgt, rfl⟩ | ⟨-, src, dst, tgt, hi, lo, rfl⟩ <;> rfl
  · split at h
    · rename_i hna
      refine ⟨?_, fun _ => .inr hna⟩
      rcases parseNa_cases h with ⟨d, rfl⟩ | ⟨-, src, dst, tgt, rfl⟩ <;> rfl
    · cases h
      exact ⟨rfl, nofun⟩

/-- The walk arrives at once behind next header 58, or has counted a header, and never more than fit the frame (R186). -/
theorem nextHeaderWalk_ext {fb : List Host.Cell} {len off ext : Nat} (hlen : 54 ≤ len)
    (h : nextHeaderWalk fb len = .ok (.arrived off ext)) :
    ext = 0 ∧ off = 54 ∧ memRead fb 20 = some 58#8 ∨ 0 < ext ∧ ext ≤ len := by
  obtain ⟨nh, h20, h⟩ := except_bind_eq_ok h
  split at h
  · rename_i hicmp
    cases h
    exact .inl ⟨rfl, rfl, (fbByte_eq_ok.1 h20).trans (congrArg some hicmp)⟩
  · split at h
    · have := hbhWalk_arrived hlen h
      omega
    · cases h

/-- PEXT counts the headers of a frame whose length FRAME_LEN holds without loss (R49). -/
theorem ofNat_ext_eq_zero {len ext : Nat} (hle : ext ≤ len) (hlen : len < 2 ^ 16) (h : BitVec.ofNat 16 ext = 0#16) :
    ext = 0 := by
  have hmod := congrArg BitVec.toNat h
  rwa [BitVec.toNat_ofNat, Nat.mod_eq_of_lt (Nat.lt_of_le_of_lt hle hlen)] at hmod

/-- Class NS or NA without extension headers means that each stage found the bytes GEN asks for (R184, R186, R189). -/
theorem genEther_of_parse {r : ParseResult} (hp : parseFrame s.fb s.frameLen.toNat = .ok r)
    (hv : r.verdict = .ns ∨ r.verdict = .na) (hext : r.extCount = 0#16) : GenEther s := by
  rcases parseFrame_cases hp with ⟨d, rfl⟩ | ⟨off, ext, hlen, hety, hwalk, hafter⟩
  · cases hv <;> contradiction
  · rcases parseIcmp_cases hafter with ⟨-, rfl⟩ | ⟨rx, sum, ty, h8, -, -, hty, ⟨-, rfl⟩ | ⟨-, htype⟩⟩
    · cases hv <;> contradiction
    · cases hv <;> contradiction
    · obtain ⟨hkeep, hclass⟩ := parseType_accepts htype
      rcases nextHeaderWalk_ext hlen hwalk with ⟨rfl, rfl, h20⟩ | ⟨hpos, hle⟩
      · obtain ⟨h12, h13⟩ := fbBe16_eq_etherIpv6 hety
        have h54 : memRead s.fb 54 = some ty := fbByte_eq_ok.1 hty
        refine ⟨by omega, h12, h13, by omega, h20, by omega, ?_⟩
        exact (hclass hv).imp (h54.trans <| congrArg some ·) (h54.trans <| congrArg some ·)
      · exact absurd (ofNat_ext_eq_zero hle s.frameLen.isLt (hkeep.symm.trans hext)) (Nat.ne_of_gt hpos)

theorem GenEther.readable (h : GenEther s) : GenReadable s := by
  obtain ⟨-, h12, h13, -, h20, -, h54⟩ := h
  intro j hj _
  simp only [List.mem_cons, List.not_mem_nil, or_false] at hj
  rcases hj with rfl | rfl | rfl | rfl
  · exact ⟨_, h12⟩
  · exact ⟨_, h13⟩
  · exact ⟨_, h20⟩
  · exact h54.elim (fun h => ⟨_, h⟩) fun h => ⟨_, h⟩

/-- Settles O44: the bytes the parse has examined are those GEN examines. -/
theorem parseAcceptImpliesFilterAccept : Obligations.ParseAcceptImpliesFilterAccept := by
  intro s t wb wc hg hcap h hok hv hext
  rcases execParse_cases (wb := wb) h with ⟨-, rfl⟩ | ⟨hfit, r, hp, rfl⟩
  · cases hok
  · have hgen := genEther_of_parse hp hv hext
    obtain ⟨u, hu, huok, hiff⟩ := exec_filterRun_gen hg hgen.readable hcap hfit wc
    exact ⟨u, hu, huok, hiff.2 hgen⟩

end Sys2Proof.Machine
end

section
/-!
No instruction reads or writes FCFG.FMT (R41, R252): setting the dialect before an instruction is setting it after.
-/
namespace Sys2Proof.Machine

/-- The state with the dialect set (R41). -/
def State.withFmt (b : Bool) (s : State) : State := { s with fmt := b }

/-- Change the next state of an outcome that goes on. -/
def onNext (g : State → State) : Result → Result
  | .next t => .next (g t)
  | .fault f => .fault f
  | .refused q => .refused q

variable {b : Bool} {s : State}

theorem onNext_orUninit {α : Type} (g : State → State) (s : State) (x : Except Place α) (go : α → Result) :
    onNext g (orUninit s x go) = orUninit s x fun v => onNext g (go v) := by
  cases x <;> rfl

theorem withRun_withFmt {go go' : BpfRun → Result} (h : ∀ r, go' r = onNext (State.withFmt b) (go r)) :
    withRun (s.withFmt b) go' = onNext (State.withFmt b) (withRun s go) := by
  cases hr : s.run with
  | none => simp [withRun, State.withFmt, hr, onNext]
  | some r => simp [withRun, State.withFmt, hr, h]

/-! ## The run of a program -/

theorem execEntry_withFmt (c k : Word) (s : State) :
    execEntry c k (s.withFmt b) = onNext (State.withFmt b) (execEntry c k s) := by
  unfold execEntry
  cases bpfForm (entryCode c) with
  | ldh => exact withRun_withFmt fun r => by rw [apply_ite (onNext _), onNext_orUninit]; rfl
  | ldb => exact withRun_withFmt fun r => by rw [apply_ite (onNext _), onNext_orUninit]; rfl
  | jeq => exact withRun_withFmt fun r => rfl
  | ret => exact withRun_withFmt fun r => rfl
  | illegal => exact withRun_withFmt fun r => rfl

theorem fetchEntry_withFmt (s : State) (r : BpfRun) :
    fetchEntry (s.withFmt b) r execEntry = onNext (State.withFmt b) (fetchEntry s r execEntry) := by
  unfold fetchEntry
  rw [apply_ite (onNext _), onNext_orUninit]
  simp only [← execEntry_withFmt]
  rfl

theorem runLoop_withFmt (fuel : Nat) (s : State) :
    runLoop fuel (s.withFmt b) = onNext (State.withFmt b) (runLoop fuel s) := by
  induction fuel generalizing s with
  | zero => rfl
  | succ fuel ih =>
    cases hr : s.run with
    | none => rw [runLoop_idle _ hr, runLoop_idle (s := s.withFmt b) _ hr]; rfl
    | some r =>
      have hr' : (s.withFmt b).run = some r := hr
      simp only [runLoop, hr, hr', fetchEntry_withFmt]
      cases fetchEntry s r execEntry with
      | next t => exact ih t
      | fault f => rfl
      | refused q => rfl

/-! ## The commands -/

theorem execCsumAdd_withFmt (wb : Bool) (s : State) :
    execCsumAdd wb (s.withFmt b) = onNext (State.withFmt b) (execCsumAdd wb s) := by
  unfold execCsumAdd
  rw [apply_ite (onNext _), onNext_orUninit]
  rfl

theorem execCsumIcmp6_withFmt (wb : Bool) (s : State) :
    execCsumIcmp6 wb (s.withFmt b) = onNext (State.withFmt b) (execCsumIcmp6 wb s) := by
  unfold execCsumIcmp6
  rw [apply_ite (onNext _), apply_ite (onNext _), apply_ite (onNext _), onNext_orUninit]
  rfl

theorem execParse_withFmt (wb : Bool) (s : State) :
    execParse wb (s.withFmt b) = onNext (State.withFmt b) (execParse wb s) := by
  unfold execParse
  rw [apply_ite (onNext _), onNext_orUninit]
  rfl

theorem execFilterRun_withFmt (wb : Bool) (s : State) :
    execFilterRun wb (s.withFmt b) = onNext (State.withFmt b) (execFilterRun wb s) := by
  unfold execFilterRun
  rw [apply_ite (onNext _), apply_ite (onNext _), ← runLoop_withFmt]
  rfl

theorem complete_loadProg_withFmt (ws : List Word) (s : State) :
    complete .ok (loadProg ws (s.withFmt b)) = (complete .ok (loadProg ws s)).withFmt b := rfl

theorem exec_withFmt {i : Instr} (hf : i.format = .command) (s : State) :
    exec i (s.withFmt b) = onNext (State.withFmt b) (exec i s) := by
  cases i with
  | nop wb => rfl
  | csumAdd wb => exact execCsumAdd_withFmt wb s
  | csumIcmp6 wb => exact execCsumIcmp6_withFmt wb s
  | parse wb => exact execParse_withFmt wb s
  | filterGen wb => rw [exec_filterGen, exec_filterGen, complete_loadProg_withFmt, onNext]
  | filterRun wb => exact execFilterRun_withFmt wb s
  | reservedLow op wb => rfl
  | reservedHigh op wb => rfl
  | _ => cases hf

theorem decodeOp_format (op : BitVec 4) (wb : Bool) : (decodeOp op wb).format = .command := by
  fun_cases decodeOp op wb <;> rfl

/-- Settles O45: the dialect is set before or after a command alike. -/
theorem dialectChangesNoCommand : Obligations.DialectChangesNoCommand := by
  intro s t op wb b h
  exact (exec_withFmt (decodeOp_format op wb) s).trans (congrArg (onNext (State.withFmt b)) h)

end Sys2Proof.Machine
end

section
/-!
Precise errors: a command that ends in a start error, a reserved one among them, changes STATUS alone (R281, R284).
-/
namespace Sys2Proof.Machine

variable {s t : State} {code : ErrCode}

/-! ## Reserved commands -/

/-- Settles O10: both reserved rows raise ERR_ILLEGAL_CMD on the state as it is. -/
theorem reservedCommandsEndIllegal : Obligations.ReservedCommandsEndIllegal := fun _ _ _ => ⟨rfl, rfl⟩

/-! ## Start errors -/

/-- The errors of the checks made before any result is computed (R284). -/
def ErrCode.IsStart (code : ErrCode) : Prop := code = .illegalCmd ∨ code = .range ∨ code = .short ∨ code = .progLen

theorem ErrCode.not_isStart_ok : ¬ ErrCode.ok.IsStart := by simp [ErrCode.IsStart]

/-- A run-time error of the filter program is no start error (R284). -/
theorem ErrCode.not_isStart_bpf (h : code = .bpfIllegal ∨ code = .bpfPc) : ¬ code.IsStart := by
  rcases h with rfl | rfl <;> simp [ErrCode.IsStart]

theorem RunEnds.not_isStart {r : BpfRun} (h : RunEnds r s t) : ¬ t.errcode.IsStart := by
  obtain ⟨code, v, oob, rfl | ⟨hbpf, -, -⟩, rfl⟩ := h
  · exact ErrCode.not_isStart_ok
  · exact ErrCode.not_isStart_bpf hbpf

/-- A start error is raised on the state the command began with. -/
theorem CommandEnds.eq_complete (h : CommandEnds s t) (hstart : t.errcode.IsStart) : t = complete t.errcode s := by
  cases h with
  | startError code _ h => subst t; rfl
  | filterRun q _ _ _ hend => exact absurd hstart hend.not_isStart
  | _ => subst t; exact absurd hstart ErrCode.not_isStart_ok

theorem complete_of_isStart (hstart : code.IsStart) (s : State) :
    complete code s = { s with pending := none, done := true, errcode := code, err := true } := by
  have hne : code ≠ .ok := fun h => ErrCode.not_isStart_ok (h ▸ hstart)
  rw [complete, decide_eq_true hne]

/-- Settles O46: of the ways a command can end, only a start error carries such a code. -/
theorem startErrorsArePrecise : Obligations.StartErrorsArePrecise := fun s _ _ _ h hstart =>
  ((command_cases h).eq_complete hstart).trans (complete_of_isStart hstart s)

end Sys2Proof.Machine
end

section
/-!
A host write to an input of the pending command is the fault HazardWrite (R286, R320).
-/
namespace Sys2Proof.Machine

variable {s : State} {p : Params} {c : Pending} {w : Width} {off : Nat} {v : Word} {ts : List Turn}

/-! ## Inputs of commands -/

/-- The registers a command reads as its inputs (R320), as the register map lists them. -/
theorem regMap_operand : ∀ o ∈ [0x014, 0x018, 0x01C, 0x020, 0x024, 0x034],
    ∃ r, memRead regMap o = some r ∧ isOperand (.reg r) = true := by
  simp only [List.forall_mem_cons]
  exact ⟨⟨.frameLen, rfl, rfl⟩, ⟨.opa, rfl, rfl⟩, ⟨.opb, rfl, rfl⟩, ⟨.oplen, rfl, rfl⟩, ⟨.acc, rfl, rfl⟩, ⟨.progLen, rfl, rfl⟩,
    by simp⟩

/-- Every program word below PROG_CAP is an input of commands: it is PROG_CODE or PROG_K of its entry (R54). -/
theorem isOperand_prog (hal : off % 4 = 0) (hge : 0x100 ≤ off) (hlt : off < 0x100 + 8 * p.progCap) (hcap : p.progCap ≤ 256) :
    isOperand (placeAt p off) = true := by
  have hi : (off - 0x100) / 8 < p.progCap := by omega
  obtain h | h : off = 0x100 + 8 * ((off - 0x100) / 8) ∨ off = 0x104 + 8 * ((off - 0x100) / 8) := by omega
  · rw [h, placeAt_progCode hi hcap, isOperand]
  · rw [h, placeAt_progK hi hcap, isOperand]

theorem isOperand_fb (hge : 0x10000 ≤ off) (hlt : off < 0x10000 + p.fbSize) : isOperand (placeAt p off) = true := by
  obtain ⟨j, rfl⟩ := Nat.exists_eq_add_of_le hge
  rw [placeAt_fb_below (by omega), isOperand]

/-! ## The hazard -/

theorem accessLanes_pos (w : Width) (off : Nat) : 0 < accessLanes w off := by
  unfold accessLanes
  split
  · exact Nat.one_pos
  · cases w <;> decide

/-- The place an access starts at is the first it covers. -/
theorem operandAt_start (h : isOperand (placeAt p off) = true) : operandAt p off (accessLanes w off) = some (placeAt p off) := by
  obtain ⟨n, hn⟩ := Nat.exists_eq_succ_of_ne_zero (accessLanes_pos w off).ne'
  simp [operandAt, hn, List.range_succ_eq_map, h]

/-- A legal write that starts at an input of commands, while one is pending, stops at that place (assumption 12). -/
theorem step_write_hazard (hr : s.run = none) (hc : s.pending = some c)
    (ht : s.turns = .host (.write w (s.cfg.base + off) v) :: ts) (hoff : off < 0x20000) (hlegal : busError w off = false)
    (hop : isOperand (placeAt s.cfg off) = true) : step s = .fault (.hazardWrite s.lastop (placeAt s.cfg off)) := by
  rw [step_write hr ht hoff hlegal]
  simp [hostWrite, hc, operandAt_start hop]

/-- Settles O54: each listed offset starts at an input of commands; CTRL and FCFG are none. -/
theorem operandWritesWhileBusyAreHazards : Obligations.OperandWritesWhileBusyAreHazards := by
  intro s c w off v ts hr hc ht hlegal
  obtain ⟨⟨-, hsize⟩, -, hcap⟩ := hlegal
  refine ⟨fun hw hoff => ?_, fun hw hal hge hlt => ?_, fun hal hge hlt => ?_, fun hw hoff => ?_, fun hw hoff => ?_⟩
  · subst w
    obtain ⟨r, hm, hop⟩ := regMap_operand off hoff
    obtain ⟨hlow, hal⟩ := regMap_bounds _ (mem_of_memRead hm)
    exact ⟨_, step_write_hazard hr hc ht (Nat.lt_trans hlow (by decide)) (busError_word hal) (placeAt_reg hm ▸ hop)⟩
  · subst w
    exact ⟨_, step_write_hazard hr hc ht (by omega) (busError_word hal) (isOperand_prog hal hge hlt hcap)⟩
  · have hbus : busError w off = false := by simp [busError, Nat.not_lt.2 hge, hal]
    exact ⟨_, step_write_hazard hr hc ht (by omega) hbus (isOperand_fb hge hlt)⟩
  · subst hw hoff
    exact step_write_reg (r := .ctrl) rfl hr ht (.inr rfl)
  · subst hw hoff
    exact step_write_reg (r := .fcfg) rfl hr ht (.inr rfl)

end Sys2Proof.Machine
end
